-- ==== Sys2Proof/Word.lean ====
section
/-! DEFINITION. The word types of the hex codec core: bytes of data memory, slots of the register block, CMD32 words. -/

namespace Sys2Proof

/-- One byte of data memory, one character of a hex text (spec R41, R12: unsigned, 8 bits). -/
abbrev Byte := BitVec 8

/-- The content of one 8-byte slot of the register block (spec R21). -/
abbrev Word := BitVec 64

/-- A CMD32 command word (spec R70). -/
abbrev CmdWord := BitVec 32

end Sys2Proof
end

