-- ==== Sys2Proof/Config.lean ====
section
/-! DEFINITION. What one instance of the core fixes (spec R6 to R11, R21, R42; 93_implementation_defined.md). -/

namespace Sys2Proof

/-- SIZE_BITS, the width of every length, address, index and result: 32 or 64 (spec R6). -/
inductive SizeBits where
  | b32 | b64
deriving DecidableEq, Repr

/-- SIZE_BITS as a number. -/
def SizeBits.bits : SizeBits → Nat
  | .b32 => 32
  | .b64 => 64

/-- BACKEND (spec R11). It determines VEC_CHUNK, so no illegal pair of the two can be written down. -/
inductive Backend where
  | none | sse | avx | neon
deriving DecidableEq, Repr

/-- VEC_CHUNK of a backend (spec R10, R11). -/
def Backend.chunk : Backend → Nat
  | .none => 0
  | .sse => 16
  | .avx => 32
  | .neon => 16

/-- The parameters of one instance (spec R42). -/
structure Config where
  /-- SIZE_BITS (spec R6). -/
  size : SizeBits
  /-- MEM_SIZE, the number of bytes of data memory (spec R8). -/
  memSize : Nat
  /-- BACKEND and with it VEC_CHUNK (spec R10, R11). -/
  backend : Backend
  /-- REG_BASE, the host address of the register block (spec R21). -/
  regBase : Nat
  /-- The length of INIT in engine steps, 0 or more (spec R231; 93, "When the tables are built"). -/
  initSteps : Nat
deriving DecidableEq, Repr

/-- SIZE_BITS, and with it ADDR_BITS (spec R6, R7). -/
def Config.sizeBits (c : Config) : Nat := c.size.bits

/-- VEC_CHUNK (spec R10). -/
def Config.vecChunk (c : Config) : Nat := c.backend.chunk

/-- The instance that `State.reset` describes. DESIGN CHOICE (log 2), unsafe for a statement about `State.reset`
alone: the spec leaves every parameter open; SIZE_BITS and MEM_SIZE are those of 95_test_vectors.md. -/
def Config.standard : Config where
  size := .b32
  memSize := 0x1000
  backend := .sse
  regBase := 0
  initSteps := 0

end Sys2Proof
end

