-- ==== Sys2Proof/Syntax.lean ====
section
/-! DEFINITION. The commands, the host's names for the registers, and the assembler's lines, as syntax. -/

namespace Sys2Proof

/-- The commands, one constructor for each row of the opcode table (spec R72, R80). A command has no operand
fields (spec R77): its operands are the operand registers (spec R78). -/
inductive Instr where
  /-- HEX.DLEN, `decoded_len` (spec R100). -/
  | dlen
  /-- HEX.DEC, `decode_to_slice` (spec R125). -/
  | dec
  /-- HEX.DECA, `decode_to_array` (spec R171). -/
  | deca
  /-- HEX.DECIP, `decode_in_place` (spec R142). -/
  | decip
  /-- HEX.ELEN, `encoded_len` (spec R103). -/
  | elen
  /-- HEX.ENC.U, `encode_to_slice` with the uppercase alphabet (spec R182, R80). -/
  | encU
  /-- HEX.ENC.L, `encode_to_slice` with the lowercase alphabet (spec R182, R80). -/
  | encL
deriving DecidableEq, Repr

/-- Why a command word is illegal (spec R74), or that too few bytes were given to hold one (spec R70). -/
inductive IllegalWord where
  /-- OP is 0x0 or in 0x7 to 0xF. -/
  | reservedOp
  /-- RSV is not zero. -/
  | reservedBits
  /-- LC = 1 with an OP other than 0x6. -/
  | lowercaseBit
  /-- Fewer than the four bytes of a CMD32 word. -/
  | tooShort
deriving DecidableEq, Repr

/-- What decoding answers (spec R76). -/
inductive Decoded where
  | command (i : Instr)
  | illegal (reason : IllegalWord)
deriving DecidableEq, Repr

/-- The named registers of the register block (spec R82). -/
inductive Reg where
  | cmd | srcAddr | srcLen | dstAddr | dstLen | argN | status | result | errIndex | errByte | caps
deriving DecidableEq, Repr

/-- One line of the assembler, after reading (spec R79): the mnemonic and its operands in the order of R78. -/
inductive AsmLine where
  | dlen (len : Nat)
  | dec (src len dst cap : Nat)
  | deca (src len dst n : Nat)
  | decip (buf len : Nat)
  | elen (len : Nat)
  | encL (src len dst cap : Nat)
  | encU (src len dst cap : Nat)
deriving DecidableEq, Repr

end Sys2Proof
end

