-- ==== Sys2Proof/WellFormed.lean ====
section
/-! DEFINITION. What is well formed: command words (spec R74), commands, and configurations (spec R6 to R11, R21). -/

namespace Sys2Proof

/-- A command word is legal (spec R74): RSV, bits 31:5, is zero; OP, bits 3:0, is 0x1 to 0x6; and LC, bit 4, is set
only with OP 0x6. Stated by arithmetic on the word's value, apart from the decoder. -/
abbrev CmdWord.Legal (w : CmdWord) : Prop :=
  w.toNat / 32 = 0 ∧ (1 ≤ w.toNat % 16 ∧ w.toNat % 16 ≤ 6) ∧ (w.toNat / 16 % 2 = 1 → w.toNat % 16 = 6)

/-- Every command is well formed: it has no operand field that could be wrong (spec R77, "Every operand value is
legal at decode"). -/
abbrev Instr.WellFormed (_i : Instr) : Prop := True

/-- A configuration is legal: 1 ≤ MEM_SIZE ≤ 2^SIZE_BITS (spec R8) and REG_BASE is 8-byte aligned (spec R21).
SIZE_BITS and the pair of BACKEND and VEC_CHUNK are legal by their types (spec R6, R10, R11). -/
abbrev Config.Legal (c : Config) : Prop :=
  1 ≤ c.memSize ∧ c.memSize ≤ 2 ^ c.sizeBits ∧ c.regBase % 8 = 0

end Sys2Proof
end

