-- ==== Sys2Proof/Decode.lean ====
section
/-! DEFINITION. Byte order of the register block (spec R54), decoding a command word (spec R76), and encoding one
(spec R71, R72). -/

namespace Sys2Proof

/-- The `n` bytes of the value `v`, least significant first (spec R54). -/
def leBytes : Nat → Nat → List Byte
  | 0, _ => []
  | n + 1, v => BitVec.ofNat 8 v :: leBytes n (v / 256)

/-- The value of a list of bytes, least significant first (spec R54). -/
def leValue : List Byte → Nat
  | [] => 0
  | b :: r => b.toNat + 256 * leValue r

/-- OP of a command word: bits 3:0 (spec R71). -/
def CmdWord.op (w : CmdWord) : BitVec 4 := w.extractLsb' 0 4

/-- LC of a command word: bit 4 (spec R71). -/
def CmdWord.lc (w : CmdWord) : Bool := w.getLsbD 4

/-- RSV of a command word: bits 31:5 (spec R71). -/
def CmdWord.rsv (w : CmdWord) : BitVec 27 := w.extractLsb' 5 27

/-- Decoding a command word, in the order of spec R76. -/
def decode (w : CmdWord) : Decoded :=
  if w.rsv ≠ 0 then .illegal .reservedBits
  else if w.op = 6 then .command (if w.lc then .encL else .encU)
  else if w.lc then .illegal .lowercaseBit
  else
    match w.op.toNat with
    | 1 => .command .dlen
    | 2 => .command .dec
    | 3 => .command .deca
    | 4 => .command .decip
    | 5 => .command .elen
    | _ => .illegal .reservedOp

/-- Decoding the bytes a host stores in the CMD slot: the low four are the CMD32 word, least significant first, and
what lies above bit 31 is ignored (spec R23, R54, R70). -/
def decodeBytes : List Byte → Decoded
  | b0 :: b1 :: b2 :: b3 :: _ => decode (BitVec.ofNat 32 (leValue [b0, b1, b2, b3]))
  | _ => .illegal .tooShort

/-- OP and LC of a command (spec R72, R73, R80). -/
def Instr.fields : Instr → BitVec 4 × Bool
  | .dlen => (0x1, false)
  | .dec => (0x2, false)
  | .deca => (0x3, false)
  | .decip => (0x4, false)
  | .elen => (0x5, false)
  | .encU => (0x6, false)
  | .encL => (0x6, true)

/-- The command word of a command: RSV = 0 above LC above OP (spec R71). -/
def encode (i : Instr) : CmdWord :=
  (0 : BitVec 27) ++ BitVec.ofBool i.fields.2 ++ i.fields.1

/-- The eight bytes a host stores in the CMD slot to issue a command (spec R54, R83). -/
def encodeBytes (i : Instr) : List Byte := leBytes 8 (encode i).toNat

/-- The command that this decoder reads from the opcode-table word `w` of `nbits` bits, laid out as the host stores
it in the CMD slot (spec R54): least significant byte first, every bit above `nbits` zero. -/
def decodeTableWord (nbits w : Nat) : Option Instr :=
  match decodeBytes (leBytes 8 (w % 2 ^ nbits)) with
  | .command i => some i
  | .illegal _ => none

end Sys2Proof
end

