-- ==== Sys2Proof/Machine/State.lean ====
section
/-! DEFINITION. The state of the core and of its host interface, as plain data, and the state after reset
(spec R20 to R43). -/

namespace Sys2Proof.Machine

/-- The outcome kinds, a closed set (spec R201). -/
inductive Kind where
  | ok | oddLength | outputTooSmall | invalidByte
  | faultIllegal | faultRange | faultOverlap | faultOverflow
deriving DecidableEq, Repr

/-- One byte access a command has made: a read that returned a byte, or a write (spec R56, R57). -/
inductive Access where
  | got (b : Byte)
  | wrote
deriving DecidableEq, Repr

/-- The engine's phase (spec R40). -/
inductive Phase where
  /-- Initialising after reset, with this many initialisation steps left before the tables are ready (spec R231). -/
  | init (left : Nat)
  /-- Ready for a command. -/
  | idle
  /-- Executing: the latched command word, and the position of its algorithm as the accesses made so far, oldest
  first (log 6). -/
  | exec (word : CmdWord) (trace : List Access)
deriving DecidableEq, Repr

/-- The vector register and the lane masks (spec R39, R151). All lists have VEC_CHUNK lanes, lane 0 first. -/
structure VecRegs where
  vr : List Byte
  dig : List Bool
  low : List Bool
  upp : List Bool
  inv : List Bool
deriving DecidableEq, Repr

/-- Data memory: the bytes that differ from what an unlisted address reads as, addresses rising (spec R41). -/
abbrev Memory := List Host.Cell

/-- One operation of the host (spec R83), or one wait of its (spec R83, R234). -/
inductive HostOp where
  /-- A store of bytes at a host address, aimed at the register block (WR; spec R54). -/
  | regStore (addr : Nat) (bytes : List Byte)
  /-- A load of `len` bytes at a host address, aimed at the register block (RD; spec R54). -/
  | regLoad (addr len : Nat)
  /-- POLL: read STATUS until DONE = 1 (spec R83). -/
  | poll
  /-- Read STATUS until BUSY = 0 (spec R234 step 1). -/
  | pollReady
  /-- MW: write bytes of data memory (spec R83). -/
  | memStore (addr : Nat) (bytes : List Byte)
  /-- MR: read `len` bytes of data memory (spec R83). -/
  | memLoad (addr len : Nat)
deriving DecidableEq, Repr

/-- What moves next. MODEL'S OWN (log 5): the order of these items is the interleaving of the agents. -/
inductive Input where
  /-- The host performs an operation. -/
  | host (op : HostOp)
  /-- The engine makes one move: one byte access, a completion, or one initialisation step. -/
  | engine
  /-- The platform asserts reset (spec R230). -/
  | reset
deriving DecidableEq, Repr

/-- What a read of the host returned: MODEL'S OWN (log 12), it stands for the names of RD and MR (spec R83). -/
inductive HostRead where
  /-- The bytes a register load returned, with its host address. -/
  | reg (addr : Nat) (bytes : List Byte)
  /-- The bytes an MR returned, with its data-memory address. -/
  | mem (addr : Nat) (bytes : List Byte)
deriving DecidableEq, Repr

/-- The state of the machine. -/
structure State where
  /-- The instance's parameters (spec R42): fixed, no step changes them (log 1). -/
  cfg : Config
  /-- CMD (spec R23). -/
  cmd : CmdWord
  /-- SRC_ADDR (spec R24), in the low SIZE_BITS bits of its slot (spec R22). -/
  srcAddr : Word
  /-- SRC_LEN (spec R25). -/
  srcLen : Word
  /-- DST_ADDR (spec R26). -/
  dstAddr : Word
  /-- DST_LEN (spec R27). -/
  dstLen : Word
  /-- ARG_N (spec R28). -/
  argN : Word
  /-- STATUS.DONE (spec R29). -/
  done : Bool
  /-- STATUS.KIND (spec R29). -/
  kind : Kind
  /-- RESULT (spec R30). -/
  result : Word
  /-- ERR_INDEX (spec R31). -/
  errIndex : Word
  /-- ERR_BYTE (spec R32). -/
  errByte : Byte
  /-- phase, the latched command word and the algorithm's position (spec R40). STATUS.BUSY is read off it. -/
  phase : Phase
  /-- VR and the lane masks (spec R39). -/
  vec : VecRegs
  /-- Data memory (spec R41). -/
  mem : Memory
  /-- The pending host operations, engine moves and reset events, next first. MODEL'S OWN (log 5). -/
  inputs : List Input
  /-- What the host's reads returned, newest first. MODEL'S OWN (log 12). -/
  hostReads : List HostRead
deriving DecidableEq, Repr

/-- Why the machine stops with a fault. No command raises one: every command completes (spec R200). -/
inductive Fault where
  /-- Raised by a host MW or MR that reaches an address outside 0 to MEM_SIZE-1 (spec R50): the address does not
  exist. Safe: the model stops where the spec says nothing (log 10). -/
  | noSuchAddress (addr : Nat)
deriving DecidableEq, Repr

/-- Why the machine refuses to go on. -/
inductive Refusal where
  /-- Raised by `exec` for a command that has no meaning yet. Safe. No arm of `exec` raises it. -/
  | notModelled (mnemonic : String)
  /-- Raised by a host access to the register block that is not one 8-byte access at an 8-byte-aligned offset of the
  block (spec R21, R54, R237: "The model gives such an access no move"). Safe (log 9). -/
  | registerAccess (addr : Nat)
deriving DecidableEq, Repr

/-- The vector registers after reset: unspecified by the spec (R39, R43); DESIGN CHOICE every lane zero, unsafe
(log 4). -/
def VecRegs.reset (c : Config) : VecRegs where
  vr := List.replicate c.vecChunk 0
  dig := List.replicate c.vecChunk false
  low := List.replicate c.vecChunk false
  upp := List.replicate c.vecChunk false
  inv := List.replicate c.vecChunk false

/-- The state right after reset of an instance with parameters `c` whose data memory holds `m`: every register at its
value of spec R43, phase INIT (spec R230), data memory as it was (spec R43). -/
def State.resetOf (c : Config) (m : Memory) : State where
  cfg := c
  cmd := 0
  srcAddr := 0
  srcLen := 0
  dstAddr := 0
  dstLen := 0
  argN := 0
  done := false
  kind := .ok
  result := 0
  errIndex := 0
  errByte := 0
  phase := .init c.initSteps
  vec := VecRegs.reset c
  mem := m
  inputs := []
  hostReads := []

/-- The machine right after power-up reset: the standard instance (log 2), data memory with nothing listed (log 3),
no host operation pending (log 7). -/
def State.reset : State := State.resetOf Config.standard []

end Sys2Proof.Machine
end

