-- ==== Sys2Proof/Machine/Flags.lean ====
section
/-! DEFINITION. The STATUS and CAPS words and the codes in them. The core has no condition codes (spec R37): STATUS and
the outcome registers are all the status there is. -/

namespace Sys2Proof.Machine

/-- The KIND code of an outcome kind (spec R201). -/
def Kind.code : Kind → BitVec 4
  | .ok => 0
  | .oddLength => 1
  | .outputTooSmall => 2
  | .invalidByte => 3
  | .faultIllegal => 8
  | .faultRange => 9
  | .faultOverlap => 10
  | .faultOverflow => 11

/-- STATUS.BUSY for a phase: 1 exactly when the phase is INIT or EXEC (spec R40). -/
def Phase.busy : Phase → Bool
  | .init _ => true
  | .idle => false
  | .exec _ _ => true

/-- STATUS.BUSY (spec R29, R40). -/
def State.busy (s : State) : Bool := s.phase.busy

/-- The STATUS word: BUSY in bit 0, DONE in bit 1, KIND in bits 7:4, every other bit zero (spec R29). -/
def State.statusWord (s : State) : Word :=
  (0 : BitVec 56) ++ s.kind.code ++ (0 : BitVec 2) ++ BitVec.ofBool s.done ++ BitVec.ofBool s.busy

/-- The BACKEND code in CAPS (spec R33). -/
def backendCode : Backend → BitVec 4
  | .none => 0
  | .sse => 1
  | .avx => 2
  | .neon => 3

/-- The CAPS word: VEC_CHUNK in bits 7:0, BACKEND in bits 11:8, SIZE_BITS in bits 19:12, the rest zero (spec R33). -/
def State.capsWord (s : State) : Word :=
  (0 : BitVec 44) ++ BitVec.ofNat 8 s.cfg.sizeBits ++ backendCode s.cfg.backend ++ BitVec.ofNat 8 s.cfg.vecChunk

end Sys2Proof.Machine
end

