-- ==== Sys2Proof/Machine/Operands.lean ====
section
/-! DEFINITION. The operands of a command (spec R78) and the checks on its regions (spec R51, R52). -/

namespace Sys2Proof.Machine

/-- A region of data memory: a start address and a byte count (spec R14). -/
structure Region where
  addr : Nat
  len : Nat
deriving DecidableEq, Repr

/-- A region is in range: it names no byte, or it ends inside data memory; unbounded arithmetic (spec R51). -/
abbrev Region.InRange (r : Region) (memSize : Nat) : Prop := r.len = 0 ∨ r.addr + r.len ≤ memSize

/-- Two regions overlap (spec R52). -/
abbrev Region.Overlap (p q : Region) : Prop :=
  0 < p.len ∧ 0 < q.len ∧ p.addr < q.addr + q.len ∧ q.addr < p.addr + p.len

/-- The values of the operand registers, unsigned, without extension or scaling (spec R77). -/
structure Operands where
  srcAddr : Nat
  srcLen : Nat
  dstAddr : Nat
  dstLen : Nat
  argN : Nat
deriving DecidableEq, Repr

/-- The source region of a command, or the single buffer of HEX.DECIP (spec R14, R78). -/
def Operands.src (o : Operands) : Region := ⟨o.srcAddr, o.srcLen⟩

/-- The destination region of HEX.DEC and HEX.ENC (spec R78). -/
def Operands.dst (o : Operands) : Region := ⟨o.dstAddr, o.dstLen⟩

/-- The destination region of HEX.DECA (spec R170). -/
def Operands.array (o : Operands) : Region := ⟨o.dstAddr, o.argN⟩

/-- The operands a command runs on: the current operand registers (spec R36). -/
def State.operands (s : State) : Operands where
  srcAddr := s.srcAddr.toNat
  srcLen := s.srcLen.toNat
  dstAddr := s.dstAddr.toNat
  dstLen := s.dstLen.toNat
  argN := s.argN.toNat

/-- The part of a host write that a value register keeps: bits SIZE_BITS-1:0 (spec R22). -/
def narrow (c : Config) (v : Word) : Word := BitVec.ofNat 64 (v.toNat % 2 ^ c.sizeBits)

end Sys2Proof.Machine
end

