-- ==== Sys2Proof/Machine/Ops.lean ====
section
/-! DEFINITION. The named operations over data memory and the register block, a command's start (spec R36), its
completion (spec R204; the core has no trap entry or return beyond it, R214, R215), and reset (spec R230). -/

namespace Sys2Proof.Machine

/-- What an address reads as when no cell lists it. DESIGN CHOICE, unsafe (log 3): the content of data memory at
power-up is unspecified (spec R43). -/
def Memory.fill : Byte := 0

/-- The byte at an address (spec R13, `MemRead(a, 1)`). -/
def Memory.read : Memory → Nat → Byte
  | [], _ => Memory.fill
  | c :: r, a => if c.1 = a then c.2 else Memory.read r a

/-- Put a cell in its place among cells with rising addresses. -/
def Memory.insert (c : Host.Cell) : Memory → Memory
  | [] => [c]
  | d :: r => if c.1 < d.1 then c :: d :: r else d :: Memory.insert c r

/-- Write a byte at an address (spec R13, `MemWrite(a, 1, v)`), keeping the canonical form. -/
def Memory.write (m : Memory) (a : Nat) (v : Byte) : Memory :=
  let rest := m.filter fun c => c.1 != a
  if v = Memory.fill then rest else Memory.insert (a, v) rest

/-- The canonical form: addresses strictly rising, and no cell equal to what an unlisted address reads as. -/
abbrev Memory.wf (m : Memory) : Prop :=
  m.Pairwise (fun c d => c.1 < d.1) ∧ ∀ c ∈ m, c.2 ≠ Memory.fill

/-- Write bytes at ascending addresses (spec R83, MW). -/
def Memory.writeBytes (m : Memory) : Nat → List Byte → Memory
  | _, [] => m
  | a, b :: r => Memory.writeBytes (m.write a b) (a + 1) r

/-- Read `n` bytes at ascending addresses (spec R83, MR). -/
def Memory.readBytes (m : Memory) : Nat → Nat → List Byte
  | _, 0 => []
  | a, n + 1 => m.read a :: Memory.readBytes m (a + 1) n

/-- A command's read of one byte of data memory. -/
def State.readByte (s : State) (a : Nat) : Byte := s.mem.read a

/-- A command's write of one byte of data memory. -/
def State.writeByte (s : State) (a : Nat) (v : Byte) : State := { s with mem := s.mem.write a v }

/-- Load the vector register and the lane masks (spec R150, R151). -/
def State.setVec (s : State) (v : VecRegs) : State := { s with vec := v }

/-- An outcome with what it records (spec R13, R201). -/
inductive Completion where
  | ok (n : Nat)
  | oddLength
  | outputTooSmall
  | invalidByte (index : Nat) (byte : Byte)
  | faultIllegal
  | faultRange
  | faultOverlap
  | faultOverflow
deriving DecidableEq, Repr

/-- The KIND an outcome records (spec R201). -/
def Completion.kind : Completion → Kind
  | .ok _ => .ok
  | .oddLength => .oddLength
  | .outputTooSmall => .outputTooSmall
  | .invalidByte _ _ => .invalidByte
  | .faultIllegal => .faultIllegal
  | .faultRange => .faultRange
  | .faultOverlap => .faultOverlap
  | .faultOverflow => .faultOverflow

/-- The RESULT an outcome records: the `Ok` value, else 0 (spec R30, R204). -/
def Completion.result : Completion → Nat
  | .ok n => n
  | _ => 0

/-- The ERR_INDEX an outcome records: of INVALID_BYTE its index, else 0 (spec R31, R204). -/
def Completion.errIndex : Completion → Nat
  | .invalidByte i _ => i
  | _ => 0

/-- The ERR_BYTE an outcome records: of INVALID_BYTE its byte, else 0 (spec R32, R204). -/
def Completion.errByte : Completion → Byte
  | .invalidByte _ b => b
  | _ => 0

/-- Completion of the current command, in one step (spec R204). BUSY becomes 0 with the phase (spec R40). -/
def State.complete (s : State) (c : Completion) : State :=
  { s with
    kind := c.kind
    result := BitVec.ofNat 64 c.result
    errIndex := BitVec.ofNat 64 c.errIndex
    errByte := c.errByte
    done := true
    phase := .idle }

/-- The offset of a register in the register block (spec R82). -/
def regOffset : Reg → Nat
  | .cmd => 0x00
  | .srcAddr => 0x08
  | .srcLen => 0x10
  | .dstAddr => 0x18
  | .dstLen => 0x20
  | .argN => 0x28
  | .status => 0x30
  | .result => 0x38
  | .errIndex => 0x40
  | .errByte => 0x48
  | .caps => 0x50

/-- The register at an offset; none for a reserved slot (spec R34, R82). -/
def regAt (off : Nat) : Option Reg :=
  [Reg.cmd, .srcAddr, .srcLen, .dstAddr, .dstLen, .argN, .status, .result, .errIndex, .errByte, .caps].find?
    fun r => regOffset r == off

/-- What a host read of a register returns (spec R22 to R33). -/
def State.readReg (s : State) : Reg → Word
  | .cmd => s.cmd.setWidth 64
  | .srcAddr => s.srcAddr
  | .srcLen => s.srcLen
  | .dstAddr => s.dstAddr
  | .dstLen => s.dstLen
  | .argN => s.argN
  | .status => s.statusWord
  | .result => s.result
  | .errIndex => s.errIndex
  | .errByte => s.errByte.setWidth 64
  | .caps => s.capsWord

/-- What a host read of the slot at an offset returns: a reserved slot reads zero (spec R34). -/
def State.readSlot (s : State) (off : Nat) : Word :=
  match regAt off with
  | some r => s.readReg r
  | none => 0

/-- Starting a command (spec R36): CMD takes the word, BUSY becomes 1 with the phase, DONE becomes 0, and the outcome
registers stay. Bits 63:32 of the written value are ignored (spec R23). -/
def State.startCommand (s : State) (v : Word) : State :=
  { s with cmd := v.setWidth 32, phase := .exec (v.setWidth 32) [], done := false }

/-- A host write of a register while STATUS.BUSY = 0: the operand registers keep SIZE_BITS bits (spec R22), CMD starts a
command (spec R36), the read-only registers ignore it (spec R29 to R33). -/
def State.writeReg (s : State) (r : Reg) (v : Word) : State :=
  match r with
  | .cmd => s.startCommand v
  | .srcAddr => { s with srcAddr := narrow s.cfg v }
  | .srcLen => { s with srcLen := narrow s.cfg v }
  | .dstAddr => { s with dstAddr := narrow s.cfg v }
  | .dstLen => { s with dstLen := narrow s.cfg v }
  | .argN => { s with argN := narrow s.cfg v }
  | .status => s
  | .result => s
  | .errIndex => s
  | .errByte => s
  | .caps => s

/-- A host write of the slot at an offset: ignored while STATUS.BUSY = 1 (spec R35) and on a reserved slot
(spec R34). -/
def State.writeSlot (s : State) (off : Nat) (v : Word) : State :=
  if s.busy then s
  else
    match regAt off with
    | some r => s.writeReg r v
    | none => s

/-- The reset event (spec R230, R232): every register takes its value of spec R43, a command in progress is abandoned
without an outcome, and data memory, the host's pending operations and what the host has read stay. -/
def State.resetEvent (s : State) : State :=
  { State.resetOf s.cfg s.mem with inputs := s.inputs, hostReads := s.hostReads }

end Sys2Proof.Machine
end

