-- ==== Sys2Proof/Machine/Algorithm.lean ====
section
/-! DEFINITION. A command's algorithm as the byte accesses it makes, in the order of its pseudocode (spec R13, R56, R57),
run as one sequential computation (spec R62) or one access at a time (spec R63, R232). -/

namespace Sys2Proof.Machine

/-- A command's algorithm: what it does next, and for a read what follows for each byte it may return. -/
inductive Algorithm where
  /-- `MemRead(a, 1)`. -/
  | read (a : Nat) (next : Byte → Algorithm)
  /-- `MemWrite(a, 1, v)`. -/
  | write (a : Nat) (v : Byte) (next : Algorithm)
  /-- The vector register and lane masks take the current chunk (spec R39). -/
  | vector (v : VecRegs) (next : Algorithm)
  /-- `complete(...)`. -/
  | complete (c : Completion)

/-- The whole algorithm as one sequential computation over the memory it started with (spec R62). -/
def Algorithm.run : Algorithm → State → State
  | .read a next, s => (next (s.readByte a)).run s
  | .write a v next, s => next.run (s.writeByte a v)
  | .vector v next, s => next.run (s.setVec v)
  | .complete c, s => s.complete c

/-- What is left of an algorithm after one more access. An access that does not fit is passed over. -/
def Algorithm.advance : Algorithm → Access → Algorithm
  | .read a next, x =>
    match x with
    | .got b => next b
    | .wrote => .read a next
  | .write a v next, x =>
    match x with
    | .wrote => next
    | .got _ => .write a v next
  | .vector _ next, x => next.advance x
  | .complete c, _ => .complete c

/-- What is left of an algorithm after the accesses a command has made so far, oldest first (log 6). -/
def Algorithm.resume (p : Algorithm) (trace : List Access) : Algorithm := trace.foldl Algorithm.advance p

/-- Add an access to the position of the executing command (spec R40). -/
def State.record (s : State) (x : Access) : State :=
  match s.phase with
  | .exec w trace => { s with phase := .exec w (trace ++ [x]) }
  | _ => s

/-- One engine step of an algorithm: up to and with its next byte access, or its completion (spec R57, R204). -/
def Algorithm.tick : Algorithm → State → State
  | .read a _, s => s.record (.got (s.readByte a))
  | .write a v _, s => (s.writeByte a v).record .wrote
  | .vector v next, s => next.tick (s.setVec v)
  | .complete c, s => s.complete c

/-- A command's meaning: its algorithm as one sequential computation. Every command completes (spec R200). -/
def runCommand (p : Algorithm) (s : State) : Host.Outcome State Fault Refusal := .next (p.run s)

/-- The checks on a command's two regions, in order, before anything else (spec R207, R208, R210). -/
def checkRegions (c : Config) (src dst : Region) (next : Algorithm) : Algorithm :=
  if ¬ (src.InRange c.memSize ∧ dst.InRange c.memSize) then .complete .faultRange
  else if Region.Overlap src dst then .complete .faultOverlap
  else next

/-- What a decode engine returns to its caller (spec R120). -/
inductive EngineReturn where
  | done (n : Nat)
  | invalidByte (index : Nat) (byte : Byte)
  | outputTooSmall
deriving DecidableEq, Repr

/-- The outcome a command completes with when its decode engine returns (spec R125, R171). -/
def EngineReturn.completion : EngineReturn → Completion
  | .done n => .ok n
  | .invalidByte i b => .invalidByte i b
  | .outputTooSmall => .outputTooSmall

end Sys2Proof.Machine
end

