-- ==== Sys2Proof/Machine/Tables.lean ====
section
/-! DEFINITION. The four read-only tables (spec R38, R110 to R115, R180) and the error locator (spec R116). -/

namespace Sys2Proof.Machine

/-- The INVALID sentinel of the nibble table (spec R111). -/
def nibbleInvalid : Byte := 0xFF

/-- The nibble table NT (spec R110). -/
def nibbleTable (c : Byte) : Byte :=
  if 0x30 ≤ c ∧ c ≤ 0x39 then c - 0x30
  else if 0x61 ≤ c ∧ c ≤ 0x66 then c - 0x57
  else if 0x41 ≤ c ∧ c ≤ 0x46 then c - 0x37
  else nibbleInvalid

/-- A byte is a hex digit: its NT entry is at most 0x0F (spec R111, R115). -/
abbrev IsHex (c : Byte) : Prop := nibbleTable c ≤ 0x0F

/-- INVALID_PAIR (spec R114). -/
def pairInvalid : BitVec 16 := 0xFFFF

/-- The pair table PT (spec R112). -/
def pairTable (k : BitVec 16) : BitVec 16 :=
  let hi : Byte := k.extractLsb' 8 8
  let lo : Byte := k.extractLsb' 0 8
  if IsHex hi ∧ IsHex lo then ((nibbleTable hi <<< 4) ||| nibbleTable lo).setWidth 16 else pairInvalid

/-- The key of a pair of characters, the first one high (spec R113). -/
def pairKey (c0 c1 : Byte) : BitVec 16 := (c0.setWidth 16 <<< 8) ||| c1.setWidth 16

/-- The invalid flag of a PT entry: bit 15 (spec R114). -/
def pairFlag (e : BitVec 16) : Bool := e.getLsbD 15

/-- The decoded byte of a PT entry: bits 7:0 (spec R114). -/
def pairByte (e : BitVec 16) : Byte := e.setWidth 8

/-- The error locator: the offending character of a pair at index `j` whose flag is set, with its index
(spec R116). -/
def locate (c0 c1 : Byte) (j : Nat) : Nat × Byte :=
  if ¬ IsHex c0 then (j, c0) else (j + 1, c1)

/-- ALPHA_LC (spec R180). -/
def alphaLower : List Byte :=
  [0x30, 0x31, 0x32, 0x33, 0x34, 0x35, 0x36, 0x37, 0x38, 0x39, 0x61, 0x62, 0x63, 0x64, 0x65, 0x66]

/-- ALPHA_UC (spec R180). -/
def alphaUpper : List Byte :=
  [0x30, 0x31, 0x32, 0x33, 0x34, 0x35, 0x36, 0x37, 0x38, 0x39, 0x41, 0x42, 0x43, 0x44, 0x45, 0x46]

/-- The entry of an alphabet at a nibble (spec R180). -/
def alphaAt (alphabet : List Byte) (v : BitVec 4) : Byte := alphabet.getD v.toNat 0

/-- The high nibble of a byte, bits 7:4 (spec R181). -/
def highNibble (x : Byte) : BitVec 4 := x.extractLsb' 4 4

/-- The low nibble of a byte, bits 3:0 (spec R181). -/
def lowNibble (x : Byte) : BitVec 4 := x.extractLsb' 0 4

end Sys2Proof.Machine
end

