-- ==== Sys2Proof/Machine/Encode.lean ====
section
/-! DEFINITION. The encode engine, HEX.ENC.L and HEX.ENC.U (spec R180 to R184). -/

namespace Sys2Proof.Machine

/-- The loop of the encode engine from source byte `k`, with `left` bytes to go (spec R181, R182). -/
def encodeLoop (alphabet : List Byte) (src dst : Nat) (next : Algorithm) : Nat → Nat → Algorithm
  | 0, _ => next
  | left + 1, k =>
    .read (src + k) fun x =>
    .write (dst + 2 * k) (alphaAt alphabet (highNibble x)) <|
    .write (dst + 2 * k + 1) (alphaAt alphabet (lowNibble x)) <|
    encodeLoop alphabet src dst next left (k + 1)

/-- HEX.ENC with an alphabet (spec R182): the capacity compare is unbounded. -/
def encAlgorithm (alphabet : List Byte) (c : Config) (o : Operands) : Algorithm :=
  checkRegions c o.src o.dst <|
    if o.dstLen < 2 * o.srcLen then .complete .outputTooSmall
    else encodeLoop alphabet o.srcAddr o.dstAddr (.complete (.ok (2 * o.srcLen))) o.srcLen 0

/-- HEX.ENC.U: LC = 0 selects ALPHA_UC (spec R73, R182). -/
def encUAlgorithm (c : Config) (o : Operands) : Algorithm := encAlgorithm alphaUpper c o

/-- HEX.ENC.L: LC = 1 selects ALPHA_LC (spec R73, R182). -/
def encLAlgorithm (c : Config) (o : Operands) : Algorithm := encAlgorithm alphaLower c o

/-- The meaning of HEX.ENC.U (spec R182). -/
def execEncU (s : State) : Host.Outcome State Fault Refusal :=
  runCommand (encUAlgorithm s.cfg s.operands) s

/-- The meaning of HEX.ENC.L (spec R182). -/
def execEncL (s : State) : Host.Outcome State Fault Refusal :=
  runCommand (encLAlgorithm s.cfg s.operands) s

end Sys2Proof.Machine
end

