-- ==== Sys2Proof/Machine/Scalar.lean ====
section
/-! DEFINITION. The scalar decode engine (spec R120) and HEX.DECA, which always uses it (spec R170 to R172). -/

namespace Sys2Proof.Machine

/-- The loop of the scalar engine from pair `p`, with `left` pairs to go of `n` (spec R120). -/
def scalarLoop (src dst off n : Nat) (ret : EngineReturn → Algorithm) : Nat → Nat → Algorithm
  | 0, _ => ret (.done n)
  | left + 1, p =>
    .read (src + 2 * p) fun c0 =>
    .read (src + 2 * p + 1) fun c1 =>
      let e := pairTable (pairKey c0 c1)
      if pairFlag e then
        ret (.invalidByte (off + (locate c0 c1 (2 * p)).1) (locate c0 c1 (2 * p)).2)
      else
        .write (dst + p) (pairByte e) (scalarLoop src dst off n ret left (p + 1))

/-- ScalarDecode (spec R120): `off` is added to the index it reports, and `ret` is its caller. -/
def scalarDecode (src len dst cap off : Nat) (ret : EngineReturn → Algorithm) : Algorithm :=
  if cap < len / 2 then ret .outputTooSmall
  else scalarLoop src dst off (len / 2) ret (len / 2) 0

/-- HEX.DECA (spec R171). -/
def decaAlgorithm (c : Config) (o : Operands) : Algorithm :=
  checkRegions c o.src o.array <|
    if o.srcLen % 2 = 1 then .complete .oddLength
    else if o.srcLen / 2 ≠ o.argN then .complete .outputTooSmall
    else scalarDecode o.srcAddr o.srcLen o.dstAddr o.argN 0 fun r => .complete r.completion

/-- The meaning of HEX.DECA (spec R171). -/
def execDeca (s : State) : Host.Outcome State Fault Refusal :=
  runCommand (decaAlgorithm s.cfg s.operands) s

end Sys2Proof.Machine
end

