-- ==== Sys2Proof/Machine/InPlace.lean ====
section
/-! DEFINITION. HEX.DECIP, the strict two-pass in-place decode (spec R140 to R145). -/

namespace Sys2Proof.Machine

/-- The validation pass from pair `p`, with `left` pairs to go: it writes nothing; `bad` follows at the first invalid
character and `valid` at the end (spec R140). -/
def validateLoop (src : Nat) (bad : Nat → Byte → Algorithm) (valid : Algorithm) : Nat → Nat → Algorithm
  | 0, _ => valid
  | left + 1, p =>
    .read (src + 2 * p) fun c0 =>
    .read (src + 2 * p + 1) fun c1 =>
      if pairFlag (pairTable (pairKey c0 c1)) then
        bad (locate c0 c1 (2 * p)).1 (locate c0 c1 (2 * p)).2
      else
        validateLoop src bad valid left (p + 1)

/-- The decode pass from pair `p`, with `left` pairs to go (spec R141). -/
def inPlaceLoop (src : Nat) (next : Algorithm) : Nat → Nat → Algorithm
  | 0, _ => next
  | left + 1, p =>
    .read (src + 2 * p) fun c0 =>
    .read (src + 2 * p + 1) fun c1 =>
    .write (src + p) (pairByte (pairTable (pairKey c0 c1))) (inPlaceLoop src next left (p + 1))

/-- HEX.DECIP (spec R142). It uses the scalar per-pair check whatever VEC_CHUNK is (spec R145). -/
def decipAlgorithm (c : Config) (o : Operands) : Algorithm :=
  if ¬ o.src.InRange c.memSize then .complete .faultRange
  else if o.srcLen % 2 = 1 then .complete .oddLength
  else
    validateLoop o.srcAddr (fun i b => .complete (.invalidByte i b))
      (inPlaceLoop o.srcAddr (.complete (.ok (o.srcLen / 2))) (o.srcLen / 2) 0)
      (o.srcLen / 2) 0

/-- The meaning of HEX.DECIP (spec R142). -/
def execDecip (s : State) : Host.Outcome State Fault Refusal :=
  runCommand (decipAlgorithm s.cfg s.operands) s

end Sys2Proof.Machine
end

