-- ==== Sys2Proof/Machine/Length.lean ====
section
/-! DEFINITION. The length commands HEX.DLEN and HEX.ELEN (spec R100 to R104). -/

namespace Sys2Proof.Machine

/-- HEX.DLEN (spec R100, R101). It accesses no memory. -/
def dlenAlgorithm (o : Operands) : Algorithm :=
  if o.srcLen % 2 = 1 then .complete .oddLength else .complete (.ok (o.srcLen / 2))

/-- HEX.ELEN (spec R103, R104). It accesses no memory. -/
def elenAlgorithm (c : Config) (o : Operands) : Algorithm :=
  if 2 ^ c.sizeBits ≤ 2 * o.srcLen then .complete .faultOverflow else .complete (.ok (2 * o.srcLen))

/-- The meaning of HEX.DLEN (spec R100). -/
def execDlen (s : State) : Host.Outcome State Fault Refusal :=
  runCommand (dlenAlgorithm s.operands) s

/-- The meaning of HEX.ELEN (spec R103). -/
def execElen (s : State) : Host.Outcome State Fault Refusal :=
  runCommand (elenAlgorithm s.cfg s.operands) s

end Sys2Proof.Machine
end

