-- ==== Sys2Proof/Machine/Vector.lean ====
section
/-! DEFINITION. The vector decode pipeline (spec R150 to R159) and HEX.DEC (spec R124, R125). -/

namespace Sys2Proof.Machine

/-- Lane class DIG: a decimal digit (spec R151). -/
def laneDig (b : Byte) : Bool := decide (b ≥ 0x30) && decide (b ≤ 0x39)

/-- Lane class LOW: a lowercase letter (spec R151). -/
def laneLow (b : Byte) : Bool := decide (b ≥ 0x61) && decide (b ≤ 0x66)

/-- Lane class UPP: an uppercase letter (spec R151). -/
def laneUpp (b : Byte) : Bool := decide (b ≥ 0x41) && decide (b ≤ 0x46)

/-- Lane class INV: none of the three (spec R151). -/
def laneInv (b : Byte) : Bool := !(laneDig b || laneLow b || laneUpp b)

/-- The vector register after a chunk load of these lanes, and the lane masks after classification (spec R150,
R151). -/
def VecRegs.ofLanes (lanes : List Byte) : VecRegs where
  vr := lanes
  dig := lanes.map laneDig
  low := lanes.map laneLow
  upp := lanes.map laneUpp
  inv := lanes.map laneInv

/-- Chunk validity: INV is 0 in every lane (spec R152). -/
def VecRegs.valid (v : VecRegs) : Bool := v.inv.all (!·)

/-- The first invalid lane, scanning from lane 0 (spec R153). -/
def VecRegs.firstInvalid (v : VecRegs) : Nat := v.inv.findIdx id

/-- The byte in a lane of the vector register. -/
def VecRegs.lane (v : VecRegs) (k : Nat) : Byte := v.vr.getD k 0

/-- The nibble of lane `k`, selected by the class masks (spec R154). -/
def VecRegs.nibble (v : VecRegs) (k : Nat) : Byte :=
  (if v.dig.getD k false then v.lane k - 0x30 else 0) |||
  (if v.low.getD k false then v.lane k - 0x57 else 0) |||
  (if v.upp.getD k false then v.lane k - 0x37 else 0)

/-- Output byte `j` of the chunk: lane 2j is its high nibble, lane 2j+1 its low one (spec R155). -/
def VecRegs.packed (v : VecRegs) (j : Nat) : Byte := (v.nibble (2 * j) <<< 4) ||| v.nibble (2 * j + 1)

/-- Chunk load: read `left` lanes from address `a` on, after the lanes already loaded (spec R150, R56). -/
def chunkLoad (next : List Byte → Algorithm) : Nat → Nat → List Byte → Algorithm
  | 0, _, lanes => next lanes
  | left + 1, a, lanes => .read a fun b => chunkLoad next left (a + 1) (lanes ++ [b])

/-- Chunk store: write `left` output bytes from output byte `j` on (spec R156, R56). -/
def chunkStore (v : VecRegs) (dst : Nat) (next : Algorithm) : Nat → Nat → Algorithm
  | 0, _ => next
  | left + 1, j => .write (dst + j) (v.packed j) (chunkStore v dst next left (j + 1))

/-- The chunk loop of the vector engine from chunk `c`, with `left` full chunks of `w` characters to go, then `tail`
(spec R157). A chunk is validated whole before any byte of it is written (spec R152). -/
def vectorLoop (w src dst : Nat) (ret : EngineReturn → Algorithm) (tail : Algorithm) : Nat → Nat → Algorithm
  | 0, _ => tail
  | left + 1, c =>
    chunkLoad (fun lanes =>
      let v := VecRegs.ofLanes lanes
      .vector v <|
        if v.valid then
          chunkStore v (dst + c * w / 2) (vectorLoop w src dst ret tail left (c + 1)) (w / 2) 0
        else
          ret (.invalidByte (c * w + v.firstInvalid) (v.lane v.firstInvalid)))
      w (src + c * w) []

/-- VectorDecode for chunks of `w` characters (spec R157): the full chunks, then the tail by the scalar engine with
its indices offset by the characters consumed (spec R158). -/
def vectorDecode (w src len dst cap : Nat) (ret : EngineReturn → Algorithm) : Algorithm :=
  let consumed := len / w * w
  vectorLoop w src dst ret
    (scalarDecode (src + consumed) (len - consumed) (dst + consumed / 2) (cap - consumed / 2) consumed fun r =>
      match r with
      | .done _ => ret (.done (len / 2))
      | .invalidByte i b => ret (.invalidByte i b)
      | .outputTooSmall => ret .outputTooSmall)
    (len / w) 0

/-- The decode engine of HEX.DEC: the scalar engine without a vector backend, else the vector engine (spec R124,
R159). -/
def decodeEngine (c : Config) (src len dst cap : Nat) (ret : EngineReturn → Algorithm) : Algorithm :=
  if c.vecChunk = 0 then scalarDecode src len dst cap 0 ret
  else vectorDecode c.vecChunk src len dst cap ret

/-- HEX.DEC (spec R125). -/
def decAlgorithm (c : Config) (o : Operands) : Algorithm :=
  checkRegions c o.src o.dst <|
    if o.srcLen % 2 = 1 then .complete .oddLength
    else if o.dstLen < o.srcLen / 2 then .complete .outputTooSmall
    else decodeEngine c o.srcAddr o.srcLen o.dstAddr o.dstLen fun r => .complete r.completion

/-- The meaning of HEX.DEC (spec R125). -/
def execDec (s : State) : Host.Outcome State Fault Refusal :=
  runCommand (decAlgorithm s.cfg s.operands) s

end Sys2Proof.Machine
end

