-- ==== Sys2Proof/Machine/Dispatch.lean ====
section
/-! DEFINITION. One arm for each command: its meaning (spec R72). -/

namespace Sys2Proof.Machine

def exec (i : Instr) (s : State) : Host.Outcome State Fault Refusal :=
  match i with
  | .dlen => Sys2Proof.Machine.execDlen s
  | .dec => Sys2Proof.Machine.execDec s
  | .deca => Sys2Proof.Machine.execDeca s
  | .decip => Sys2Proof.Machine.execDecip s
  | .elen => Sys2Proof.Machine.execElen s
  | .encU => Sys2Proof.Machine.execEncU s
  | .encL => Sys2Proof.Machine.execEncL s

end Sys2Proof.Machine
end

