-- ==== Sys2Proof/Machine/Engine.lean ====
section
/-! DEFINITION. The engine's moves: a whole command at once, or one access at a time (spec R40, R57, R62, R231). -/

namespace Sys2Proof.Machine

/-- The algorithm of a command on an instance and operands. -/
def algorithmOf (i : Instr) (c : Config) (o : Operands) : Algorithm :=
  match i with
  | .dlen => dlenAlgorithm o
  | .dec => decAlgorithm c o
  | .deca => decaAlgorithm c o
  | .decip => decipAlgorithm c o
  | .elen => elenAlgorithm c o
  | .encU => encUAlgorithm c o
  | .encL => encLAlgorithm c o

/-- The algorithm a command word starts: an illegal word reads no operand and no memory and completes at once with
FAULT_ILLEGAL (spec R74, R206). -/
def wordAlgorithm (w : CmdWord) (c : Config) (o : Operands) : Algorithm :=
  match decode w with
  | .command i => algorithmOf i c o
  | .illegal _ => .complete .faultIllegal

/-- One initialisation step: the tables are filled for one more step, and when none is left the phase becomes IDLE
(spec R231). -/
def initStep (left : Nat) (s : State) : State :=
  match left with
  | 0 => { s with phase := .idle }
  | n + 1 => { s with phase := .init n }

/-- One move of the engine: an initialisation step, one byte access or the completion of the executing command, or
nothing when idle (spec R57, R63). -/
def engineTick (s : State) : State :=
  match s.phase with
  | .init left => initStep left s
  | .idle => s
  | .exec w trace => ((wordAlgorithm w s.cfg s.operands).resume trace).tick s

/-- The engine left to itself: a command that has made no access runs whole, by the meaning of the command its word
decodes to; one that the host has interleaved with runs to its end (spec R62). -/
def engineRun (s : State) : Host.Outcome State Fault Refusal :=
  match s.phase with
  | .init left => .next (initStep left s)
  | .idle => .next s
  | .exec w [] =>
    match decode w with
    | .command i => exec i s
    | .illegal _ => .next (s.complete .faultIllegal)
  | .exec w (x :: r) => .next (((wordAlgorithm w s.cfg s.operands).resume (x :: r)).run s)

end Sys2Proof.Machine
end

