-- ==== Sys2Proof/Machine/HostPort.lean ====
section
/-! DEFINITION. The host's operations on the register block and on data memory, and the reset event (spec R21, R54,
R83, R230, R234, R237). -/

namespace Sys2Proof.Machine

/-- The offset of a host access in the register block, if it is one whole 8-byte access at an 8-byte-aligned offset of
the block's 32 slots (spec R21, R54). -/
def slotOffset (c : Config) (addr len : Nat) : Option Nat :=
  if len = 8 ∧ c.regBase ≤ addr ∧ addr + 8 ≤ c.regBase + 0x100 ∧ (addr - c.regBase) % 8 = 0 then
    some (addr - c.regBase)
  else none

/-- The addresses of a host access to data memory exist (spec R50). -/
abbrev hostReach (c : Config) (addr len : Nat) : Prop := len = 0 ∨ addr + len ≤ c.memSize

/-- The host writes the register block (spec R54: little-endian). -/
def hostRegStore (s : State) (addr : Nat) (bytes : List Byte) : Host.Outcome State Fault Refusal :=
  match slotOffset s.cfg addr bytes.length with
  | some off => .next (s.writeSlot off (BitVec.ofNat 64 (leValue bytes)))
  | none => .refused (.registerAccess addr)

/-- The host reads the register block: the current value, busy or not (spec R35, R54). -/
def hostRegLoad (s : State) (addr len : Nat) : Host.Outcome State Fault Refusal :=
  match slotOffset s.cfg addr len with
  | some off => .next { s with hostReads := .reg addr (leBytes 8 (s.readSlot off).toNat) :: s.hostReads }
  | none => .refused (.registerAccess addr)

/-- The host writes data memory (spec R83). -/
def hostMemStore (s : State) (addr : Nat) (bytes : List Byte) : Host.Outcome State Fault Refusal :=
  if hostReach s.cfg addr bytes.length then .next { s with mem := s.mem.writeBytes addr bytes }
  else .fault (.noSuchAddress addr)

/-- The host reads data memory (spec R83). -/
def hostMemLoad (s : State) (addr len : Nat) : Host.Outcome State Fault Refusal :=
  if hostReach s.cfg addr len then .next { s with hostReads := .mem addr (s.mem.readBytes addr len) :: s.hostReads }
  else .fault (.noSuchAddress addr)

/-- The host waits for a STATUS bit (spec R83, R234): when it reads as wanted the wait is over, else the engine
moves on and the host goes on waiting. -/
def hostWait (ready : Bool) (rest : List Input) (s : State) : Host.Outcome State Fault Refusal :=
  if ready then .next { s with inputs := rest } else engineRun s

/-- The next input is taken, `rest` being the inputs after it. -/
def takeInput (x : Input) (rest : List Input) (s : State) : Host.Outcome State Fault Refusal :=
  match x with
  | .engine => .next (engineTick { s with inputs := rest })
  | .reset => .next (State.resetEvent { s with inputs := rest })
  | .host op =>
    match op with
    | .regStore addr bytes => hostRegStore { s with inputs := rest } addr bytes
    | .regLoad addr len => hostRegLoad { s with inputs := rest } addr len
    | .memStore addr bytes => hostMemStore { s with inputs := rest } addr bytes
    | .memLoad addr len => hostMemLoad { s with inputs := rest } addr len
    | .poll => hostWait (s.statusWord.getLsbD 1) rest s
    | .pollReady => hostWait (!s.statusWord.getLsbD 0) rest s

/-- `WR <reg>, <value>` (spec R83): one 8-byte little-endian store at the register's address. -/
def HostOp.wr (c : Config) (r : Reg) (v : Nat) : HostOp := .regStore (c.regBase + regOffset r) (leBytes 8 v)

/-- `RD <reg>` (spec R83): one 8-byte load at the register's address. -/
def HostOp.rd (c : Config) (r : Reg) : HostOp := .regLoad (c.regBase + regOffset r) 8

end Sys2Proof.Machine
end

