-- ==== Sys2Proof/Machine/Step.lean ====
section
/-! DEFINITION. One step of the machine, and a state whose next step runs a given command word. -/

namespace Sys2Proof.Machine

/-- One step: the next pending input is taken, or, when none is pending, the engine moves (log 5). -/
def step (s : State) : Host.Outcome State Fault Refusal :=
  match s.inputs with
  | [] => engineRun s
  | x :: rest => takeInput x rest s

/-- `s` with the opcode-table word `w` of `nbits` bits as the command about to run: the state right after a host wrote
the word to CMD of a ready engine (spec R36), with no input pending, so that the next step runs it (log 7). -/
def State.withFetchWord (s : State) (nbits w : Nat) : State :=
  { s with
    cmd := BitVec.ofNat 32 (w % 2 ^ nbits)
    phase := .exec (BitVec.ofNat 32 (w % 2 ^ nbits)) []
    done := false
    inputs := [] }

end Sys2Proof.Machine
end

