-- ==== Sys2Proof/Machine/Assembler.lean ====
section
/-! DEFINITION. The assembler of spec R79 to R81: reading one line, and the host operations it expands to. It is a
convenience of the host and changes no command's meaning (spec D40). -/

namespace Sys2Proof.Machine

/-- Split characters at each occurrence of `sep`; empty pieces are kept. -/
def splitAt (sep : Char) : List Char → List (List Char)
  | [] => [[]]
  | x :: r =>
    if x = sep then [] :: splitAt sep r
    else
      match splitAt sep r with
      | [] => [[x]]
      | w :: ws => (x :: w) :: ws

/-- The words of a line: its pieces between spaces. -/
def lineWords (line : List Char) : List (List Char) := (splitAt ' ' line).filter fun w => !w.isEmpty

/-- The value of a digit in a base up to sixteen, in either letter case. -/
def digitOf (base : Nat) (x : Char) : Option Nat :=
  let n := x.toNat
  let d :=
    if 0x30 ≤ n ∧ n ≤ 0x39 then n - 0x30
    else if 0x61 ≤ n ∧ n ≤ 0x66 then n - 0x57
    else if 0x41 ≤ n ∧ n ≤ 0x46 then n - 0x37
    else base
  if d < base then some d else none

/-- The number that digits in a base write, after the digits already read. -/
def readDigits (base : Nat) : Nat → List Char → Option Nat
  | acc, [] => some acc
  | acc, x :: r =>
    match digitOf base x with
    | some d => readDigits base (base * acc + d) r
    | none => none

/-- A number: decimal, or hexadecimal after 0x (spec R79). -/
def readNumber : List Char → Option Nat
  | [] => none
  | '0' :: 'x' :: x :: r => readDigits 16 0 (x :: r)
  | x :: r => readDigits 10 0 (x :: r)

/-- What follows a keyword and an equals sign, as the numbers between commas. -/
def readField (keyword : List Char) (word : List Char) : Option (List Nat) :=
  match splitAt '=' word with
  | [k, v] => if k = keyword then (splitAt ',' v).mapM readNumber else none
  | _ => none

/-- The line with a mnemonic and operand words, in the order of spec R79. The bare spelling HEX.ENC is not accepted
(spec R80). -/
def readWords : List (List Char) → Option AsmLine
  | [m, a] =>
    if m = "HEX.DLEN".toList then
      match readField "len".toList a with
      | some [n] => some (.dlen n)
      | _ => none
    else if m = "HEX.ELEN".toList then
      match readField "len".toList a with
      | some [n] => some (.elen n)
      | _ => none
    else if m = "HEX.DECIP".toList then
      match readField "buf".toList a with
      | some [s, l] => some (.decip s l)
      | _ => none
    else none
  | [m, a, b] =>
    match readField "src".toList a, readField "dst".toList b with
    | some [s, l], some [d, c] =>
      if m = "HEX.DEC".toList then some (.dec s l d c)
      else if m = "HEX.ENC.L".toList then some (.encL s l d c)
      else if m = "HEX.ENC.U".toList then some (.encU s l d c)
      else none
    | _, _ => none
  | [m, a, b, e] =>
    match readField "src".toList a, readField "dst".toList b, readField "n".toList e with
    | some [s, l], some [d], some [n] => if m = "HEX.DECA".toList then some (.deca s l d n) else none
    | _, _, _ => none
  | _ => none

/-- Read one assembler line (spec R79). -/
def readLine (line : String) : Option AsmLine := readWords (lineWords line.toList)

/-- The command of a line (spec R72, R80). -/
def lineCommand : AsmLine → Instr
  | .dlen _ => .dlen
  | .dec _ _ _ _ => .dec
  | .deca _ _ _ _ => .deca
  | .decip _ _ => .decip
  | .elen _ => .elen
  | .encL _ _ _ _ => .encL
  | .encU _ _ _ _ => .encU

/-- The operand registers of a line with their values, in the order SRC_ADDR, SRC_LEN, DST_ADDR, DST_LEN, ARG_N
(spec R78, R81). -/
def lineOperands : AsmLine → List (Reg × Nat)
  | .dlen n => [(.srcLen, n)]
  | .dec s l d c => [(.srcAddr, s), (.srcLen, l), (.dstAddr, d), (.dstLen, c)]
  | .deca s l d n => [(.srcAddr, s), (.srcLen, l), (.dstAddr, d), (.argN, n)]
  | .decip s l => [(.srcAddr, s), (.srcLen, l)]
  | .elen n => [(.srcLen, n)]
  | .encL s l d c => [(.srcAddr, s), (.srcLen, l), (.dstAddr, d), (.dstLen, c)]
  | .encU s l d c => [(.srcAddr, s), (.srcLen, l), (.dstAddr, d), (.dstLen, c)]

/-- The host operations a line expands to: one WR for each operand register, the CMD write, and POLL (spec R81). -/
def expandLine (c : Config) (line : AsmLine) : List HostOp :=
  (lineOperands line).map (fun rv => HostOp.wr c rv.1 rv.2) ++
    [HostOp.wr c .cmd (encode (lineCommand line)).toNat, .poll]

end Sys2Proof.Machine
end

