-- ==== Sys2Proof/Safety.lean ====
section
/-! DEFINITION. The words the statements are written in: texts, what a decode or an encode writes, a command started,
and the invariant of the machine. -/

namespace Sys2Proof.Machine

/-- Character `i` of the text at the source address, or byte `i` of the source buffer (spec R14). -/
def State.text (s : State) (i : Nat) : Byte := s.mem.read (s.srcAddr.toNat + i)

/-- The first `len` characters are all hex digits (spec R16, R115). -/
def AllHex (f : Nat → Byte) (len : Nat) : Prop := ∀ i < len, IsHex (f i)

/-- `i` is the index of the first invalid character of a text of `len` characters (spec R18). -/
def FirstInvalid (f : Nat → Byte) (len i : Nat) : Prop := i < len ∧ ¬ IsHex (f i) ∧ ∀ j < i, IsHex (f j)

/-- Decoded byte `p` of a text: the nibble of its character 2p above the nibble of its character 2p+1 (spec R122). -/
def decodedByte (f : Nat → Byte) (p : Nat) : Byte :=
  (nibbleTable (f (2 * p)) <<< 4) ||| nibbleTable (f (2 * p + 1))

/-- Character `j` of the encoding of a buffer: of byte j/2, the high nibble's character when j is even, the low
nibble's when j is odd (spec R181, R182). -/
def encodedChar (alphabet : List Byte) (f : Nat → Byte) (j : Nat) : Byte :=
  if j % 2 = 0 then alphaAt alphabet (highNibble (f (j / 2))) else alphaAt alphabet (lowNibble (f (j / 2)))

/-- Memory `m'` is `m` with bytes `f 0` to `f (n-1)` at address `a` on, every other byte as before. -/
def Writes (m m' : Memory) (a n : Nat) (f : Nat → Byte) : Prop :=
  ∀ x, m'.read x = if a ≤ x ∧ x < a + n then f (x - a) else m.read x

/-- A command with word `w` has been started and has made no access (spec R36, R40). -/
def State.Started (s : State) (w : CmdWord) : Prop := s.phase = .exec w []

/-- Every value register fits SIZE_BITS (spec R22). -/
def State.ValuesFit (s : State) : Prop :=
  s.srcAddr.toNat < 2 ^ s.cfg.sizeBits ∧ s.srcLen.toNat < 2 ^ s.cfg.sizeBits ∧
  s.dstAddr.toNat < 2 ^ s.cfg.sizeBits ∧ s.dstLen.toNat < 2 ^ s.cfg.sizeBits ∧
  s.argN.toNat < 2 ^ s.cfg.sizeBits ∧ s.result.toNat < 2 ^ s.cfg.sizeBits ∧
  s.errIndex.toNat < 2 ^ s.cfg.sizeBits

/-- Data memory is canonical and lists only addresses that exist (spec R41, R50). -/
def State.MemOk (s : State) : Prop := s.mem.wf ∧ ∀ c ∈ s.mem, c.1 < s.cfg.memSize

/-- Vector registers have a given number of lanes (spec R39). -/
def VecRegs.Lanes (v : VecRegs) (w : Nat) : Prop :=
  v.vr.length = w ∧ v.dig.length = w ∧ v.low.length = w ∧ v.upp.length = w ∧ v.inv.length = w

/-- What the outcome registers hold agrees with KIND (spec R30 to R32, R204): RESULT is 0 unless KIND is OK, ERR_INDEX and
ERR_BYTE are 0 unless KIND is INVALID_BYTE, and then ERR_BYTE is no hex digit (spec R205). -/
def State.OutcomeOk (s : State) : Prop :=
  (s.kind ≠ .ok → s.result = 0) ∧ (s.kind ≠ .invalidByte → s.errIndex = 0 ∧ s.errByte = 0) ∧
  (s.kind = .invalidByte → ¬ IsHex s.errByte)

/-- The invariant of the machine: the configuration is legal (spec R8, R21), data memory is canonical and inside
MEM_SIZE (spec R41), every value register fits SIZE_BITS (spec R22), the vector registers have VEC_CHUNK lanes (spec
R39), the outcome registers agree (spec R204), BUSY and DONE do not hold together (spec R29), and the latched command
word is what CMD reads back (spec R23, R40). -/
def State.Inv (s : State) : Prop :=
  s.cfg.Legal ∧ s.MemOk ∧ s.ValuesFit ∧ s.vec.Lanes s.cfg.vecChunk ∧ s.OutcomeOk ∧
  ¬ (s.busy = true ∧ s.done = true) ∧ ∀ w trace, s.phase = .exec w trace → s.cmd = w

/-- `n` moves of the engine with no move of the host between them (spec R57, R62). -/
def engineTicks : Nat → State → State
  | 0, s => s
  | n + 1, s => engineTicks n (engineTick s)

/-- `n` steps of the machine, as long as each answers a next state. -/
def steps : Nat → State → Host.Outcome State Fault Refusal
  | 0, s => .next s
  | n + 1, s =>
    match step s with
    | .next t => steps n t
    | .fault r => .fault r
    | .refused r => .refused r

/-- The writes an algorithm makes over a memory, in order, each an address and a byte (spec R57). -/
def Algorithm.writes : Algorithm → Memory → List (Nat × Byte)
  | .read a next, m => (next (m.read a)).writes m
  | .write a v next, m => (a, v) :: next.writes (m.write a v)
  | .vector _ next, m => next.writes m
  | .complete _, _ => []

/-- The addresses an algorithm reads over a memory, in order (spec R57). -/
def Algorithm.reads : Algorithm → Memory → List Nat
  | .read a next, m => a :: (next (m.read a)).reads m
  | .write a v next, m => next.reads (m.write a v)
  | .vector _ next, m => next.reads m
  | .complete _, _ => []

/-- Writes of `f 0` to `f (n-1)` to the `n` addresses from `a` on, one byte each, at rising addresses (spec R141, R156). -/
def writesFrom (a n : Nat) (f : Nat → Byte) : List (Nat × Byte) := (List.range n).map fun k => (a + k, f k)

/-- Reads of the `n` addresses from `a` on, one byte each, at rising addresses (spec R140, R150). -/
def readsFrom (a n : Nat) : List Nat := (List.range n).map fun k => a + k

/-- An algorithm at its next access or its completion: the vector registers it loads before that are passed over (spec
R39). -/
def Algorithm.upNext : Algorithm → Algorithm
  | .vector _ next => next.upNext
  | .read a next => .read a next
  | .write a v next => .write a v next
  | .complete c => .complete c

/-- The number of byte accesses an algorithm makes over a memory. -/
def Algorithm.accesses : Algorithm → Memory → Nat
  | .read a next, m => (next (m.read a)).accesses m + 1
  | .write a v next, m => next.accesses (m.write a v) + 1
  | .vector _ next, m => next.accesses m
  | .complete _, _ => 0

/-- A memory after writes, in order. -/
def Memory.applyWrites (m : Memory) (ws : List (Nat × Byte)) : Memory :=
  ws.foldl (fun m w => m.write w.1 w.2) m

/-- The bytes a command may write: the destination region of HEX.DEC, HEX.ENC and HEX.DECA, the first half of the buffer
of HEX.DECIP, none for the length commands (spec R57). -/
def mayWrite (i : Instr) (o : Operands) (a : Nat) : Prop :=
  match i with
  | .dlen | .elen => False
  | .dec | .encU | .encL => o.dstAddr ≤ a ∧ a < o.dstAddr + o.dstLen
  | .deca => o.dstAddr ≤ a ∧ a < o.dstAddr + o.argN
  | .decip => o.srcAddr ≤ a ∧ a < o.srcAddr + o.srcLen / 2

/-- The bytes a command may read: its source region, or its buffer; none for the length commands (spec R57). -/
def mayRead (i : Instr) (o : Operands) (a : Nat) : Prop :=
  match i with
  | .dlen | .elen => False
  | .dec | .deca | .decip | .encU | .encL => o.srcAddr ≤ a ∧ a < o.srcAddr + o.srcLen

/-- The KINDs a command can end with (spec R201, column "raised by"). -/
def mayEnd : Instr → Kind → Bool
  | .dlen, k => k = .ok ∨ k = .oddLength
  | .elen, k => k = .ok ∨ k = .faultOverflow
  | .dec, k => k = .ok ∨ k = .oddLength ∨ k = .outputTooSmall ∨ k = .invalidByte ∨ k = .faultRange ∨ k = .faultOverlap
  | .deca, k => k = .ok ∨ k = .oddLength ∨ k = .outputTooSmall ∨ k = .invalidByte ∨ k = .faultRange ∨ k = .faultOverlap
  | .decip, k => k = .ok ∨ k = .oddLength ∨ k = .invalidByte ∨ k = .faultRange
  | .encU, k => k = .ok ∨ k = .outputTooSmall ∨ k = .faultRange ∨ k = .faultOverlap
  | .encL, k => k = .ok ∨ k = .outputTooSmall ∨ k = .faultRange ∨ k = .faultOverlap

/-- The number of bytes HEX.DEC has written when it fails at index `i` of a text of `len` characters, for chunks of `w`
(spec R126). -/
def decPrefix (w len i : Nat) : Nat :=
  if 0 < w ∧ i < len / w * w then i / w * (w / 2) else i / 2

/-- The number of characters HEX.DEC has read when it fails at index `i` of a text of `len` characters, for chunks of
`w`: the failing chunk or pair is read whole (spec R120, R150, R157). -/
def decReads (w len i : Nat) : Nat :=
  if 0 < w ∧ i < len / w * w then (i / w + 1) * w else (i / 2 + 1) * 2

/-- `s` with the current command ended by an outcome that records nothing but its KIND (spec R204): every other field
as it was. -/
def State.ended (s : State) (k : Kind) : State :=
  { s with phase := .idle, done := true, kind := k, result := 0, errIndex := 0, errByte := 0 }

/-- Two operand sets agree in the registers a command reads (spec R78). -/
def sameOperands (i : Instr) (o p : Operands) : Prop :=
  match i with
  | .dlen | .elen => o.srcLen = p.srcLen
  | .dec | .encU | .encL => o.srcAddr = p.srcAddr ∧ o.srcLen = p.srcLen ∧ o.dstAddr = p.dstAddr ∧ o.dstLen = p.dstLen
  | .deca => o.srcAddr = p.srcAddr ∧ o.srcLen = p.srcLen ∧ o.dstAddr = p.dstAddr ∧ o.argN = p.argN
  | .decip => o.srcAddr = p.srcAddr ∧ o.srcLen = p.srcLen

/-- The number of destination bytes a command may write when it succeeds (spec R240). -/
def dstUsed (i : Instr) (o : Operands) : Nat :=
  match i with
  | .dlen | .elen => 0
  | .dec | .deca | .decip => o.srcLen / 2
  | .encU | .encL => 2 * o.srcLen

/-- A character with an uppercase letter made lowercase (spec R15, R128). -/
def lowerCase (b : Byte) : Byte := if 0x41 ≤ b ∧ b ≤ 0x5A then b + 0x20 else b

/-- The operand registers, which a host writes and a command reads (spec R24 to R28). -/
def isOperandReg : Reg → Bool
  | .srcAddr | .srcLen | .dstAddr | .dstLen | .argN => true
  | .cmd | .status | .result | .errIndex | .errByte | .caps => false

/-- The value registers (spec R22). -/
def isValueReg : Reg → Bool
  | .srcAddr | .srcLen | .dstAddr | .dstLen | .argN | .result | .errIndex => true
  | .cmd | .status | .errByte | .caps => false

/-- The read-only registers (spec R29 to R33). -/
def isReadOnlyReg : Reg → Bool
  | .status | .result | .errIndex | .errByte | .caps => true
  | .cmd | .srcAddr | .srcLen | .dstAddr | .dstLen | .argN => false

end Sys2Proof.Machine
end

