-- ==== Sys2Proof/Certificates/Slice0/Obligations.lean ====
section
/-! DEFINITION. The statements about the core, each from the numbered rules of the spec its docstring names. -/

open Sys2Proof Sys2Proof.Machine

/-! ### Command words -/

/-- Spec R72, R74, R80: the seven words of the opcode table decode to their commands, and the nine illegal
words of 95_test_vectors.md (V-FLT) are refused, each with its reason. -/
def Obligations.TabledWordsDecode : Prop :=
  decode 0x00000001 = .command .dlen ∧ decode 0x00000002 = .command .dec ∧
  decode 0x00000003 = .command .deca ∧ decode 0x00000004 = .command .decip ∧
  decode 0x00000005 = .command .elen ∧ decode 0x00000006 = .command .encU ∧
  decode 0x00000016 = .command .encL ∧
  decode 0x00000000 = .illegal .reservedOp ∧ decode 0x00000007 = .illegal .reservedOp ∧
  decode 0x0000000F = .illegal .reservedOp ∧ decode 0x00000011 = .illegal .lowercaseBit ∧
  decode 0x00000012 = .illegal .lowercaseBit ∧ decode 0x00000015 = .illegal .lowercaseBit ∧
  decode 0x00000020 = .illegal .reservedBits ∧ decode 0x00000026 = .illegal .reservedBits ∧
  decode 0x80000006 = .illegal .reservedBits

/-- Spec R74, R76: of all 2^32 words exactly the seven are legal, each decodes to its one command, and a word decodes to
a command exactly when it meets the conditions of R74. -/
def Obligations.ExactlySevenLegalWords : Prop :=
  (∀ (w : CmdWord) (i : Instr), decode w = .command i ↔
    w = match i with
      | .dlen => 0x00000001 | .dec => 0x00000002 | .deca => 0x00000003 | .decip => 0x00000004
      | .elen => 0x00000005 | .encU => 0x00000006 | .encL => 0x00000016) ∧
  ∀ w : CmdWord, (∃ i, decode w = .command i) ↔ w.Legal

/-- Spec R23, R54, R71, R76: decoding the eight bytes a host stores in CMD gives a command exactly when the low 32 bits
are that command's word, whatever the ignored bits 63:32 hold; so decoding an encoded command gives it back. -/
def Obligations.DecodeInvertsEncode : Prop :=
  ∀ (i : Instr) (v : Word), i.WellFormed →
    (decodeBytes (leBytes 8 v.toNat) = .command i ↔ v.setWidth 32 = encode i) ∧
    decode (encode i) = .command i ∧ decodeBytes (encodeBytes i) = .command i

/-- Spec R74, R206: a started illegal word completes with FAULT_ILLEGAL in one step, on either way the engine moves, and
changes nothing but the phase and the outcome registers. -/
def Obligations.IllegalWordFaults : Prop :=
  ∀ (s : State) (w : CmdWord), s.Started w → ¬ w.Legal →
    engineTick s = s.ended .faultIllegal ∧ (s.inputs = [] → step s = .next (s.ended .faultIllegal))

/-! ### The step and the host's interface -/

/-- Spec R36, R57, R62: a started command whose word decodes runs as `exec` gives it. Model's choices: that it runs
whole in one step when no input is pending, and that an engine input is exactly one move of the engine (log 5); and that
the state made by `withFetchWord` is that of the command just started (log 7). -/
def Obligations.StepRunsDecodedCommand : Prop :=
  (∀ (s : State) (w : CmdWord) (i : Instr), s.Started w → decode w = .command i → s.inputs = [] →
    step s = exec i s) ∧
  (∀ (s : State) (i : Instr),
    step (s.withFetchWord 32 (encode i).toNat) = exec i (s.withFetchWord 32 (encode i).toNat)) ∧
  ∀ (s : State) (rest : List Input), s.inputs = .engine :: rest →
    step s = .next (engineTick { s with inputs := rest })

/-- Spec R62, R83, R200, R206, R231, R234: a waiting host goes on when STATUS reads as wanted, and otherwise, as when no
input is pending, the engine moves; and what that move does in every phase. In INIT it is one initialisation step. In
IDLE nothing changes (model's reading, log 21). A started command runs as `exec` gives it, a started illegal word completes
with FAULT_ILLEGAL, and a command at any position makes the moves that are left to its completion, BUSY up to the last of
them. Model's choices: that a wait is one pending input, taken away when met and left pending in a step in which the engine
moves (log 12), that a command then runs whole in that one step (log 5), in moves of one access each (log 15), and how long
INIT is (log 8). -/
def Obligations.WaitsLetTheEngineRun : Prop :=
  ∀ s : State,
    (∀ rest : List Input,
      (s.inputs = .host .poll :: rest → s.done = true → step s = .next { s with inputs := rest }) ∧
      (s.inputs = .host .pollReady :: rest → s.busy = false → step s = .next { s with inputs := rest }) ∧
      (s.inputs = .host .poll :: rest → s.done = false → step s = engineRun s) ∧
      (s.inputs = .host .pollReady :: rest → s.busy = true → step s = engineRun s)) ∧
    (s.inputs = [] → step s = engineRun s) ∧
    (s.phase = .init 0 → engineRun s = .next { s with phase := .idle }) ∧
    (∀ n : Nat, s.phase = .init (n + 1) → engineRun s = .next { s with phase := .init n }) ∧
    (s.phase = .idle → engineRun s = .next s) ∧
    (∀ (w : CmdWord) (i : Instr), s.Started w → decode w = .command i → engineRun s = exec i s) ∧
    (∀ w : CmdWord, s.Started w → ¬ w.Legal → engineRun s = .next (s.ended .faultIllegal)) ∧
    ∀ (w : CmdWord) (trace : List Access), s.phase = .exec w trace →
      ∃ n : Nat, engineRun s = .next (engineTicks (n + 1) s) ∧ (engineTicks (n + 1) s).phase = .idle ∧
        ∀ k ≤ n, (engineTicks k s).busy = true

/-- Spec R36: a host write of CMD while BUSY = 0 sets CMD to bits 31:0, BUSY to 1 (phase EXEC) and DONE to 0, starts the
command, and leaves KIND, RESULT, ERR_INDEX and ERR_BYTE, the operand registers and data memory unchanged. -/
def Obligations.CmdWriteStartsCommand : Prop :=
  ∀ (s : State) (v : Nat) (rest : List Input), s.busy = false →
    s.inputs = .host (HostOp.wr s.cfg .cmd v) :: rest →
    ∃ t : State, step s = .next t ∧ t.Started (BitVec.ofNat 32 v) ∧ t.busy = true ∧
      t = { s with inputs := rest, cmd := BitVec.ofNat 32 v, phase := .exec (BitVec.ofNat 32 v) [], done := false }

/-- Spec R35: while BUSY = 1 a host write to any register is ignored, and no move of the engine writes CMD or an operand
register. Busy or not, a host read of a register returns its current value (R29 to R33, R54, R83; step 5 of R234). And,
by R36 and R37, a move of the engine that does not complete a command, an initialisation step or an access, leaves DONE,
KIND, RESULT, ERR_INDEX and ERR_BYTE. -/
def Obligations.BusyEngineKeepsRegisters : Prop :=
  (∀ (s : State) (r : Reg) (v : Nat) (rest : List Input), s.busy = true →
    s.inputs = .host (HostOp.wr s.cfg r v) :: rest → step s = .next { s with inputs := rest }) ∧
  (∀ (s : State) (r : Reg) (rest : List Input), s.inputs = .host (HostOp.rd s.cfg r) :: rest →
    step s = .next { s with
      inputs := rest
      hostReads := .reg (s.cfg.regBase + regOffset r) (leBytes 8 (s.readReg r).toNat) :: s.hostReads }) ∧
  (∀ s : State, (engineTick s).cmd = s.cmd ∧ (engineTick s).operands = s.operands) ∧
  (∀ s t : State, engineRun s = .next t → t.cmd = s.cmd ∧ t.operands = s.operands) ∧
  ∀ s : State, ((engineTick s).busy = true ∨ ∀ (w : CmdWord) (trace : List Access), s.phase ≠ .exec w trace) →
    (engineTick s).done = s.done ∧ (engineTick s).kind = s.kind ∧ (engineTick s).result = s.result ∧
    (engineTick s).errIndex = s.errIndex ∧ (engineTick s).errByte = s.errByte

/-- Spec R22: a host write of a value register keeps bits SIZE_BITS-1:0 and no other register of the block, and no byte
of memory, changes; and in every state of the invariant each value register reads below 2^SIZE_BITS. -/
def Obligations.ValueRegistersHoldSizeBits : Prop :=
  (∀ (s : State) (r : Reg) (v : Nat) (rest : List Input), s.busy = false → isOperandReg r = true →
    s.inputs = .host (HostOp.wr s.cfg r v) :: rest →
    ∃ t : State, step s = .next t ∧ (t.readReg r).toNat = v % 2 ^ s.cfg.sizeBits ∧
      (∀ q, q ≠ r → t.readReg q = s.readReg q) ∧ t.mem = s.mem ∧ t.phase = s.phase ∧ t.inputs = rest ∧
      t.cfg = s.cfg ∧ t.vec = s.vec ∧ t.hostReads = s.hostReads) ∧
  ∀ (s : State) (r : Reg), s.Inv → isValueReg r = true → (s.readReg r).toNat < 2 ^ s.cfg.sizeBits

/-- Spec R29, R40, R201: what a host read of STATUS returns, field by field, and that BUSY and DONE never hold together in
a state of the invariant. -/
def Obligations.StatusWordFields : Prop :=
  ∀ s : State,
    s.statusWord.toNat = (if s.busy then 1 else 0) + 2 * (if s.done then 1 else 0) + 16 * s.kind.code.toNat ∧
    (s.busy = false ↔ s.phase = .idle) ∧
    (s.kind.code.toNat = match s.kind with
      | .ok => 0 | .oddLength => 1 | .outputTooSmall => 2 | .invalidByte => 3
      | .faultIllegal => 8 | .faultRange => 9 | .faultOverlap => 10 | .faultOverflow => 11) ∧
    (s.Inv → s.busy = true → s.done = false)

/-- Spec R33: CAPS holds VEC_CHUNK, BACKEND and SIZE_BITS, and no step changes it. -/
def Obligations.CapsIsHardwired : Prop :=
  (∀ s : State, s.capsWord.toNat =
    (match s.cfg.backend with | .none => 0 | .sse => 16 | .avx => 32 | .neon => 16) +
    256 * (match s.cfg.backend with | .none => 0 | .sse => 1 | .avx => 2 | .neon => 3) +
    4096 * (match s.cfg.size with | .b32 => 32 | .b64 => 64)) ∧
  (∀ s t : State, step s = .next t → t.readReg .caps = s.readReg .caps) ∧
  ∀ s : State, s.resetEvent.readReg .caps = s.readReg .caps

/-- Spec R34: a reserved slot, offsets 0x58 to 0xF8, reads zero and ignores writes. -/
def Obligations.ReservedSlotsReadZero : Prop :=
  ∀ (s : State) (k : Nat) (bytes : List Byte) (rest : List Input), 11 ≤ k → k < 32 → bytes.length = 8 →
    (s.inputs = .host (.regStore (s.cfg.regBase + 8 * k) bytes) :: rest → step s = .next { s with inputs := rest }) ∧
    (s.inputs = .host (.regLoad (s.cfg.regBase + 8 * k) 8) :: rest →
      step s = .next { s with
        inputs := rest
        hostReads := .reg (s.cfg.regBase + 8 * k) [0, 0, 0, 0, 0, 0, 0, 0] :: s.hostReads })

/-- Spec R29 to R33: host writes to STATUS, RESULT, ERR_INDEX, ERR_BYTE and CAPS are ignored, busy or not. -/
def Obligations.ReadOnlyRegistersIgnoreWrites : Prop :=
  ∀ (s : State) (r : Reg) (v : Nat) (rest : List Input), isReadOnlyReg r = true →
    s.inputs = .host (HostOp.wr s.cfg r v) :: rest → step s = .next { s with inputs := rest }

/-- Spec R54, R237: a host access that is not one 8-byte access at an 8-byte-aligned offset of the block has no move.
Model's choice (log 9): the machine refuses it by name, also where the address is outside the block. -/
def Obligations.PartialRegisterAccessRefused : Prop :=
  ∀ (s : State) (addr : Nat) (rest : List Input),
    (∀ bytes : List Byte,
      ¬ (bytes.length = 8 ∧ s.cfg.regBase ≤ addr ∧ addr + 8 ≤ s.cfg.regBase + 256 ∧
        (addr - s.cfg.regBase) % 8 = 0) →
      s.inputs = .host (.regStore addr bytes) :: rest → step s = .refused (.registerAccess addr)) ∧
    ∀ len : Nat,
      ¬ (len = 8 ∧ s.cfg.regBase ≤ addr ∧ addr + 8 ≤ s.cfg.regBase + 256 ∧ (addr - s.cfg.regBase) % 8 = 0) →
      s.inputs = .host (.regLoad addr len) :: rest → step s = .refused (.registerAccess addr)

/-- Spec R50, R83: a host MW puts its bytes at ascending addresses and changes no other byte and no register; an MR
returns the bytes that are there. Model's choice (log 10): outside data memory both fault. -/
def Obligations.HostMemoryAccess : Prop :=
  ∀ (s : State) (a : Nat) (rest : List Input),
    (∀ bytes : List Byte, s.inputs = .host (.memStore a bytes) :: rest → a + bytes.length ≤ s.cfg.memSize →
      ∃ m, step s = .next { s with inputs := rest, mem := m } ∧
        Writes s.mem m a bytes.length fun k => bytes.getD k 0) ∧
    (∀ bytes : List Byte, s.inputs = .host (.memStore a bytes) :: rest → bytes ≠ [] →
      s.cfg.memSize < a + bytes.length → step s = .fault (.noSuchAddress a)) ∧
    (∀ len : Nat, s.inputs = .host (.memLoad a len) :: rest → a + len ≤ s.cfg.memSize →
      ∃ bytes : List Byte, bytes.length = len ∧ (∀ k < len, bytes.getD k 0 = s.mem.read (a + k)) ∧
        step s = .next { s with inputs := rest, hostReads := .mem a bytes :: s.hostReads }) ∧
    ∀ len : Nat, s.inputs = .host (.memLoad a len) :: rest → 0 < len → s.cfg.memSize < a + len →
      step s = .fault (.noSuchAddress a)

/-- Spec R78, R81: the expansion of an assembler line, run from a ready engine, writes the operand registers its command
reads, leaves the others and data memory, and has the command started and the host waiting for it. -/
def Obligations.AssemblerLineStartsItsCommand : Prop :=
  ∀ (s : State) (line : AsmLine) (rest : List Input), s.busy = false →
    s.inputs = (expandLine s.cfg line).map Input.host ++ rest →
    ∃ t : State, steps ((lineOperands line).length + 1) s = .next t ∧
      t.Started (encode (lineCommand line)) ∧ t.inputs = .host .poll :: rest ∧ t.mem = s.mem ∧ t.cfg = s.cfg ∧
      (∀ q ∈ lineOperands line, (t.readReg q.1).toNat = q.2 % 2 ^ s.cfg.sizeBits) ∧
      ∀ r, isOperandReg r = true → (∀ n, (r, n) ∉ lineOperands line) → t.readReg r = s.readReg r

/-! ### Reset and the invariant -/

/-- Spec R230, R232: a reset at any time, a command executing or not, gives every register its reset value of R43 and
phase INIT, reports no outcome, and leaves data memory. How long INIT lasts and what the vector registers hold are left
open (spec R231, R39). -/
def Obligations.ResetEventResetsRegisters : Prop :=
  ∀ (s : State) (rest : List Input), s.inputs = .reset :: rest →
    ∃ (n : Nat) (v : VecRegs), step s = .next
      { cfg := s.cfg, cmd := 0, srcAddr := 0, srcLen := 0, dstAddr := 0, dstLen := 0, argN := 0, done := false,
        kind := .ok, result := 0, errIndex := 0, errByte := 0, phase := .init n, vec := v, mem := s.mem,
        inputs := rest, hostReads := s.hostReads }

/-- Spec R43: the state after reset of any instance: every register 0, STATUS reads BUSY only, CAPS the configuration,
data memory as it was. -/
def Obligations.ResetStateValues : Prop :=
  ∀ (c : Config) (m : Memory),
    (∀ r : Reg, r ≠ .status → r ≠ .caps → (State.resetOf c m).readReg r = 0) ∧
    (State.resetOf c m).statusWord = 1 ∧ (State.resetOf c m).mem = m ∧ (State.resetOf c m).cfg = c ∧
    (∃ n, (State.resetOf c m).phase = .init n) ∧ State.reset = State.resetOf Config.standard []

/-- Spec R231, R234 (step 1): after `left` further initialisation steps and one more, the phase is IDLE and nothing else
has changed; up to then BUSY = 1. So it is by moves of the engine, and so by steps of the machine, with no input pending
and with a host that waits for BUSY = 0, whose wait then ends in one step more. The length of INIT is the model's parameter
(log 8), and that such a step is one initialisation step the model's choice (log 5, log 12). -/
def Obligations.InitialisationEndsIdle : Prop :=
  ∀ (s : State) (left : Nat), s.phase = .init left →
    engineTicks (left + 1) s = { s with phase := .idle } ∧
    (∀ k ≤ left, (engineTicks k s).busy = true ∧ engineTicks k s = { s with phase := .init (left - k) }) ∧
    ((s.inputs = [] ∨ ∃ rest, s.inputs = .host .pollReady :: rest) →
      (∀ k ≤ left, steps k s = .next { s with phase := .init (left - k) }) ∧
      steps (left + 1) s = .next { s with phase := .idle }) ∧
    ∀ rest, s.inputs = .host .pollReady :: rest →
      steps (left + 2) s = .next { s with phase := .idle, inputs := rest }

/-- The invariant holds after reset of every legal instance over every canonical memory, and in `State.reset`. -/
def Obligations.InvariantHoldsAtReset : Prop :=
  (∀ (c : Config) (m : Memory), c.Legal → m.wf → (∀ d ∈ m, d.1 < c.memSize) → (State.resetOf c m).Inv) ∧
  State.reset.Inv

/-- Every step keeps the invariant: whatever moves, an engine step, a whole command, a host access or a reset, from every
state that meets it. -/
def Obligations.EveryStepKeepsInvariant : Prop :=
  ∀ s t : State, s.Inv → step s = .next t → t.Inv

/-- Spec R42: no step changes a configuration parameter. -/
def Obligations.ConfigurationNeverChanges : Prop :=
  ∀ s t : State, step s = .next t → t.cfg = s.cfg

/-! ### Every command -/

/-- Spec R200, R201, R204, R205: every command, from every state and on all operands, completes: the phase is IDLE, DONE is
1, BUSY is 0, KIND is one that the command raises, and RESULT, ERR_INDEX and ERR_BYTE are 0 where KIND does not set
them; an INVALID_BYTE names an index of the text and a byte that is no hex digit. -/
def Obligations.EveryCommandCompletes : Prop :=
  ∀ (i : Instr) (s : State), ∃ t : State, exec i s = .next t ∧ t.phase = .idle ∧ t.done = true ∧ t.busy = false ∧
    mayEnd i t.kind = true ∧ t.OutcomeOk ∧ (t.kind = .invalidByte → t.errIndex.toNat < s.srcLen.toNat)

/-- Spec R35, R57: what no command changes. CMD, the operand registers, the configuration and the host's side stay, and
every byte of memory outside the command's destination region reads as before. That a command which loads no chunk leaves
the vector registers is log 4. -/
def Obligations.CommandFrame : Prop :=
  ∀ (i : Instr) (s t : State), exec i s = .next t →
    t.cfg = s.cfg ∧ t.cmd = s.cmd ∧ t.srcAddr = s.srcAddr ∧ t.srcLen = s.srcLen ∧ t.dstAddr = s.dstAddr ∧
    t.dstLen = s.dstLen ∧ t.argN = s.argN ∧ t.inputs = s.inputs ∧ t.hostReads = s.hostReads ∧
    (i ≠ .dec → t.vec = s.vec) ∧ ∀ a, ¬ mayWrite i s.operands a → t.mem.read a = s.mem.read a

/-- Spec R57; 90_conflicts.md C4: no command but HEX.DECIP changes a byte of its source region. -/
def Obligations.SourceIsUnchanged : Prop :=
  ∀ (i : Instr) (s t : State), i ≠ .decip → exec i s = .next t → ∀ k < s.srcLen.toNat, t.text k = s.text k

/-- Spec R212: every fault, ODD_LENGTH and OUTPUT_TOO_SMALL writes no memory, and neither does INVALID_BYTE for
HEX.DECIP. -/
def Obligations.FailedChecksWriteNothing : Prop :=
  ∀ (i : Instr) (s t : State), exec i s = .next t → t.kind ≠ .ok → (t.kind = .invalidByte → i = .decip) →
    t.mem = s.mem

/-- Spec R57, R78: what a command does depends only on the operand registers it reads and on the bytes of its source: two
states that agree on them get the same outcome, and each byte of memory is either left as it was in both or made the
same in both. -/
def Obligations.CommandReadsOnlyItsSource : Prop :=
  ∀ (i : Instr) (s u t r : State), s.cfg = u.cfg → sameOperands i s.operands u.operands →
    (∀ a, mayRead i s.operands a → s.mem.read a = u.mem.read a) → exec i s = .next t → exec i u = .next r →
    t.kind = r.kind ∧ t.result = r.result ∧ t.errIndex = r.errIndex ∧ t.errByte = r.errByte ∧
    ∀ a, (t.mem.read a = s.mem.read a ∧ r.mem.read a = u.mem.read a) ∨ t.mem.read a = r.mem.read a

/-- Spec R207: a region out of range gives FAULT_RANGE before any memory access, with nothing else changed; the length
commands never do. -/
def Obligations.RegionOutOfRangeFaults : Prop :=
  ∀ s : State,
    (¬ (s.operands.src.InRange s.cfg.memSize ∧ s.operands.dst.InRange s.cfg.memSize) →
      ∀ i ∈ [Instr.dec, .encU, .encL], exec i s = .next (s.ended .faultRange) ∧
        algorithmOf i s.cfg s.operands = .complete .faultRange) ∧
    (¬ (s.operands.src.InRange s.cfg.memSize ∧ s.operands.array.InRange s.cfg.memSize) →
      exec .deca s = .next (s.ended .faultRange) ∧
      algorithmOf .deca s.cfg s.operands = .complete .faultRange) ∧
    (¬ s.operands.src.InRange s.cfg.memSize →
      exec .decip s = .next (s.ended .faultRange) ∧
      algorithmOf .decip s.cfg s.operands = .complete .faultRange) ∧
    ∀ i ∈ [Instr.dlen, .elen], ∀ t, exec i s = .next t → t.kind ≠ .faultRange

/-- Spec R208: regions in range that overlap give FAULT_OVERLAP before any memory access, with nothing else changed;
HEX.DECIP never does. -/
def Obligations.OverlappingRegionsFault : Prop :=
  ∀ s : State,
    (s.operands.src.InRange s.cfg.memSize → s.operands.dst.InRange s.cfg.memSize →
      Region.Overlap s.operands.src s.operands.dst → ∀ i ∈ [Instr.dec, .encU, .encL],
        exec i s = .next (s.ended .faultOverlap) ∧ algorithmOf i s.cfg s.operands = .complete .faultOverlap) ∧
    (s.operands.src.InRange s.cfg.memSize → s.operands.array.InRange s.cfg.memSize →
      Region.Overlap s.operands.src s.operands.array →
        exec .deca s = .next (s.ended .faultOverlap) ∧
        algorithmOf .deca s.cfg s.operands = .complete .faultOverlap) ∧
    ∀ t, exec .decip s = .next t → t.kind ≠ .faultOverlap

/-- Spec R202: with the faults ruled out, an odd SRC_LEN gives ODD_LENGTH before any data is read and whatever the
capacity is. -/
def Obligations.OddLengthIsDecidedFirst : Prop :=
  ∀ s : State, s.srcLen.toNat % 2 = 1 →
    (exec .dlen s = .next (s.ended .oddLength) ∧ algorithmOf .dlen s.cfg s.operands = .complete .oddLength) ∧
    (s.operands.src.InRange s.cfg.memSize → s.operands.dst.InRange s.cfg.memSize →
      ¬ Region.Overlap s.operands.src s.operands.dst →
      exec .dec s = .next (s.ended .oddLength) ∧ algorithmOf .dec s.cfg s.operands = .complete .oddLength) ∧
    (s.operands.src.InRange s.cfg.memSize → s.operands.array.InRange s.cfg.memSize →
      ¬ Region.Overlap s.operands.src s.operands.array →
      exec .deca s = .next (s.ended .oddLength) ∧ algorithmOf .deca s.cfg s.operands = .complete .oddLength) ∧
    (s.operands.src.InRange s.cfg.memSize →
      exec .decip s = .next (s.ended .oddLength) ∧ algorithmOf .decip s.cfg s.operands = .complete .oddLength)

/-- Spec R203 with R125, R171, R182: OUTPUT_TOO_SMALL is decided from the lengths alone, before any data is read, with
nothing written: for HEX.DEC when the capacity is below L/2, for HEX.DECA when L/2 is not N, for HEX.ENC when it is
below 2n, in unbounded arithmetic. -/
def Obligations.SmallOutputIsDecidedFromLengths : Prop :=
  ∀ s : State,
    (s.operands.src.InRange s.cfg.memSize → s.operands.dst.InRange s.cfg.memSize →
      ¬ Region.Overlap s.operands.src s.operands.dst → s.srcLen.toNat % 2 = 0 →
      s.dstLen.toNat < s.srcLen.toNat / 2 →
      exec .dec s = .next (s.ended .outputTooSmall) ∧
      algorithmOf .dec s.cfg s.operands = .complete .outputTooSmall) ∧
    (s.operands.src.InRange s.cfg.memSize → s.operands.array.InRange s.cfg.memSize →
      ¬ Region.Overlap s.operands.src s.operands.array → s.srcLen.toNat % 2 = 0 →
      s.srcLen.toNat / 2 ≠ s.argN.toNat →
      exec .deca s = .next (s.ended .outputTooSmall) ∧
      algorithmOf .deca s.cfg s.operands = .complete .outputTooSmall) ∧
    (s.operands.src.InRange s.cfg.memSize → s.operands.dst.InRange s.cfg.memSize →
      ¬ Region.Overlap s.operands.src s.operands.dst → s.dstLen.toNat < 2 * s.srcLen.toNat →
      ∀ i ∈ [Instr.encU, .encL], exec i s = .next (s.ended .outputTooSmall) ∧
        algorithmOf i s.cfg s.operands = .complete .outputTooSmall)

/-! ### The length commands -/

/-- Spec R100: HEX.DLEN from every state: the whole next state. An even length gives OK and half of it, an odd one
ODD_LENGTH. -/
def Obligations.DlenHalvesEvenLengths : Prop :=
  ∀ s : State, exec .dlen s = .next
    { s with
      phase := .idle
      done := true
      kind := if s.srcLen.toNat % 2 = 1 then .oddLength else .ok
      result := if s.srcLen.toNat % 2 = 1 then 0 else s.srcLen / 2
      errIndex := 0
      errByte := 0 }

/-- Spec R103, R104: HEX.ELEN from every state: the whole next state. RESULT is 2n where that fits SIZE_BITS; else the
outcome is FAULT_OVERFLOW, so no wrapped value is returned. -/
def Obligations.ElenDoublesOrOverflows : Prop :=
  ∀ s : State, ∃ r : Word,
    exec .elen s = .next
      { s with
        phase := .idle
        done := true
        kind := if 2 * s.srcLen.toNat < 2 ^ s.cfg.sizeBits then .ok else .faultOverflow
        result := r
        errIndex := 0
        errByte := 0 } ∧
    r.toNat = if 2 * s.srcLen.toNat < 2 ^ s.cfg.sizeBits then 2 * s.srcLen.toNat else 0

/-! ### The decode commands -/

/-- Spec R125, R127: HEX.DEC on a valid text completes with OK and RESULT = L/2 and writes exactly the decoded bytes
`D .. D+L/2-1`; every other byte, the rest of the destination among them, and every other register is unchanged. It
holds for every backend. Model's reading (log 4; 93 says any value): the vector registers keep what they held when no
chunk is loaded; else this statement leaves them open. -/
def Obligations.DecDecodesValidText : Prop :=
  ∀ s : State, s.operands.src.InRange s.cfg.memSize → s.operands.dst.InRange s.cfg.memSize →
    ¬ Region.Overlap s.operands.src s.operands.dst → s.srcLen.toNat % 2 = 0 →
    s.srcLen.toNat / 2 ≤ s.dstLen.toNat → AllHex s.text s.srcLen.toNat →
    ∃ (m : Memory) (v : VecRegs) (r : Word),
      exec .dec s = .next
        { s with mem := m, vec := v, phase := .idle, done := true, kind := .ok, result := r,
                 errIndex := 0, errByte := 0 } ∧
      r.toNat = s.srcLen.toNat / 2 ∧
      Writes s.mem m s.dstAddr.toNat (s.srcLen.toNat / 2) (decodedByte s.text) ∧
      (s.srcLen.toNat < s.cfg.vecChunk ∨ s.cfg.vecChunk = 0 → v = s.vec)

/-- Spec R126: HEX.DEC on a text whose first invalid character has index i completes with INVALID_BYTE, that index and
that byte, and has written exactly the prefix the rule gives for VEC_CHUNK; on every backend the bytes before
`(i div 32) * 16` are written and those from `i div 2` on are not. -/
def Obligations.DecStopsAtFirstInvalid : Prop :=
  ∀ (s : State) (i : Nat), s.operands.src.InRange s.cfg.memSize → s.operands.dst.InRange s.cfg.memSize →
    ¬ Region.Overlap s.operands.src s.operands.dst → s.srcLen.toNat % 2 = 0 →
    s.srcLen.toNat / 2 ≤ s.dstLen.toNat → FirstInvalid s.text s.srcLen.toNat i →
    ∃ (m : Memory) (v : VecRegs) (x : Word) (n : Nat),
      exec .dec s = .next
        { s with mem := m, vec := v, phase := .idle, done := true, kind := .invalidByte, result := 0,
                 errIndex := x, errByte := s.text i } ∧
      x.toNat = i ∧ Writes s.mem m s.dstAddr.toNat n (decodedByte s.text) ∧
      n = (if 0 < s.cfg.vecChunk ∧ i < s.srcLen.toNat / s.cfg.vecChunk * s.cfg.vecChunk
        then i / s.cfg.vecChunk * (s.cfg.vecChunk / 2) else i / 2) ∧
      i / 32 * 16 ≤ n ∧ n ≤ i / 2

/-- Spec R170, R171: HEX.DECA on a valid text of length 2N writes exactly the N decoded bytes and completes with OK and
RESULT = N; everything else is unchanged, the vector registers among it (log 4). -/
def Obligations.DecaDecodesValidText : Prop :=
  ∀ s : State, s.operands.src.InRange s.cfg.memSize → s.operands.array.InRange s.cfg.memSize →
    ¬ Region.Overlap s.operands.src s.operands.array → s.srcLen.toNat % 2 = 0 →
    s.srcLen.toNat / 2 = s.argN.toNat → AllHex s.text s.srcLen.toNat →
    ∃ m : Memory,
      exec .deca s = .next
        { s with mem := m, phase := .idle, done := true, kind := .ok, result := s.argN, errIndex := 0,
                 errByte := 0 } ∧
      Writes s.mem m s.dstAddr.toNat s.argN.toNat (decodedByte s.text)

/-- Spec R172: HEX.DECA uses the scalar engine whatever VEC_CHUNK is: after INVALID_BYTE at index i exactly the bytes
before `i div 2` are written, decoded. -/
def Obligations.DecaStopsAtFirstInvalid : Prop :=
  ∀ (s : State) (i : Nat), s.operands.src.InRange s.cfg.memSize → s.operands.array.InRange s.cfg.memSize →
    ¬ Region.Overlap s.operands.src s.operands.array → s.srcLen.toNat % 2 = 0 →
    s.srcLen.toNat / 2 = s.argN.toNat → FirstInvalid s.text s.srcLen.toNat i →
    ∃ (m : Memory) (x : Word),
      exec .deca s = .next
        { s with mem := m, phase := .idle, done := true, kind := .invalidByte, result := 0, errIndex := x,
                 errByte := s.text i } ∧
      x.toNat = i ∧ Writes s.mem m s.dstAddr.toNat (i / 2) (decodedByte s.text)

/-- Spec R142, R144: HEX.DECIP on a valid buffer completes with OK and RESULT = L/2; byte k of the buffer for k < L/2
holds decoded byte k of the original text, and every other byte of memory, the second half among them, is
unchanged. -/
def Obligations.DecipDecodesInPlace : Prop :=
  ∀ s : State, s.operands.src.InRange s.cfg.memSize → s.srcLen.toNat % 2 = 0 → AllHex s.text s.srcLen.toNat →
    ∃ (m : Memory) (r : Word),
      exec .decip s = .next
        { s with mem := m, phase := .idle, done := true, kind := .ok, result := r, errIndex := 0, errByte := 0 } ∧
      r.toNat = s.srcLen.toNat / 2 ∧
      Writes s.mem m s.srcAddr.toNat (s.srcLen.toNat / 2) (decodedByte s.text)

/-- Spec R140, R142: HEX.DECIP on a buffer with an invalid character reports the first one and changes nothing but the
phase and the outcome registers. -/
def Obligations.DecipReportsFirstInvalid : Prop :=
  ∀ (s : State) (i : Nat), s.operands.src.InRange s.cfg.memSize → s.srcLen.toNat % 2 = 0 →
    FirstInvalid s.text s.srcLen.toNat i →
    ∃ x : Word, x.toNat = i ∧
      exec .decip s = .next
        { s with phase := .idle, done := true, kind := .invalidByte, result := 0, errIndex := x, errByte := s.text i }

/-- Spec R143: no mutation on error. -/
def Obligations.DecipNeverMutatesOnError : Prop :=
  ∀ s t : State, exec .decip s = .next t → t.kind ≠ .ok → t.mem = s.mem

/-- Spec R145: the outcome and the memory effect of HEX.DECIP do not depend on VEC_CHUNK. -/
def Obligations.DecipIgnoresTheBackend : Prop :=
  ∀ (s : State) (b : Backend), ∃ t : State, exec .decip s = .next t ∧
    exec .decip { s with cfg := { s.cfg with backend := b } } =
      .next { t with cfg := { s.cfg with backend := b } }

/-- Spec R124, R159, R160: the backends agree. On the same operands and memory HEX.DEC ends with the same KIND, RESULT,
ERR_INDEX and ERR_BYTE on any two backends, the scalar engine (VEC_CHUNK = 0) among them, and with the same memory when
it succeeds. -/
def Obligations.BackendsAgree : Prop :=
  ∀ (s t r : State) (b c : Backend),
    exec .dec { s with cfg := { s.cfg with backend := b } } = .next t →
    exec .dec { s with cfg := { s.cfg with backend := c } } = .next r →
    t.kind = r.kind ∧ t.result = r.result ∧ t.errIndex = r.errIndex ∧ t.errByte = r.errByte ∧
    (t.kind = .ok → ∀ a, t.mem.read a = r.mem.read a)

/-- Spec R128: HEX.DEC is case-insensitive: two texts that differ only in letter case get the same KIND, RESULT and
ERR_INDEX, and the same decoded bytes; and decoding a valid text again gives the same bytes. -/
def Obligations.DecIgnoresLetterCase : Prop :=
  (∀ s u t r : State, u.cfg = s.cfg → u.operands = s.operands →
    (∀ i < s.srcLen.toNat, lowerCase (s.text i) = lowerCase (u.text i)) →
    exec .dec s = .next t → exec .dec u = .next r →
    t.kind = r.kind ∧ t.result = r.result ∧ t.errIndex = r.errIndex ∧
    (t.kind = .ok → ∀ k < s.srcLen.toNat / 2,
      t.mem.read (s.dstAddr.toNat + k) = r.mem.read (s.dstAddr.toNat + k))) ∧
  ∀ s t r : State, exec .dec s = .next t → t.kind = .ok → exec .dec t = .next r →
    r.kind = .ok ∧ r.result = t.result ∧ ∀ a, r.mem.read a = t.mem.read a

/-- Spec R210: which outcome is reported when several apply, for each command: the first in the rule's order. -/
def Obligations.OutcomePriority : Prop :=
  (∀ (s t : State), exec .dec s = .next t →
    let bad := ¬ (s.operands.src.InRange s.cfg.memSize ∧ s.operands.dst.InRange s.cfg.memSize)
    let lap := Region.Overlap s.operands.src s.operands.dst
    let odd := s.srcLen.toNat % 2 = 1
    let small := s.dstLen.toNat < s.srcLen.toNat / 2
    let inv := ¬ AllHex s.text s.srcLen.toNat
    (t.kind = .faultRange ↔ bad) ∧ (t.kind = .faultOverlap ↔ ¬ bad ∧ lap) ∧
    (t.kind = .oddLength ↔ ¬ bad ∧ ¬ lap ∧ odd) ∧ (t.kind = .outputTooSmall ↔ ¬ bad ∧ ¬ lap ∧ ¬ odd ∧ small) ∧
    (t.kind = .invalidByte ↔ ¬ bad ∧ ¬ lap ∧ ¬ odd ∧ ¬ small ∧ inv) ∧
    (t.kind = .invalidByte → FirstInvalid s.text s.srcLen.toNat t.errIndex.toNat)) ∧
  (∀ (s t : State), exec .deca s = .next t →
    let bad := ¬ (s.operands.src.InRange s.cfg.memSize ∧ s.operands.array.InRange s.cfg.memSize)
    let lap := Region.Overlap s.operands.src s.operands.array
    let odd := s.srcLen.toNat % 2 = 1
    let small := s.srcLen.toNat / 2 ≠ s.argN.toNat
    let inv := ¬ AllHex s.text s.srcLen.toNat
    (t.kind = .faultRange ↔ bad) ∧ (t.kind = .faultOverlap ↔ ¬ bad ∧ lap) ∧
    (t.kind = .oddLength ↔ ¬ bad ∧ ¬ lap ∧ odd) ∧ (t.kind = .outputTooSmall ↔ ¬ bad ∧ ¬ lap ∧ ¬ odd ∧ small) ∧
    (t.kind = .invalidByte ↔ ¬ bad ∧ ¬ lap ∧ ¬ odd ∧ ¬ small ∧ inv) ∧
    (t.kind = .invalidByte → FirstInvalid s.text s.srcLen.toNat t.errIndex.toNat)) ∧
  (∀ (s t : State), exec .decip s = .next t →
    let bad := ¬ s.operands.src.InRange s.cfg.memSize
    let odd := s.srcLen.toNat % 2 = 1
    let inv := ¬ AllHex s.text s.srcLen.toNat
    (t.kind = .faultRange ↔ bad) ∧ (t.kind = .oddLength ↔ ¬ bad ∧ odd) ∧
    (t.kind = .invalidByte ↔ ¬ bad ∧ ¬ odd ∧ inv) ∧
    (t.kind = .invalidByte → FirstInvalid s.text s.srcLen.toNat t.errIndex.toNat)) ∧
  (∀ (s t : State), ∀ i ∈ [Instr.encU, .encL], exec i s = .next t →
    let bad := ¬ (s.operands.src.InRange s.cfg.memSize ∧ s.operands.dst.InRange s.cfg.memSize)
    let lap := Region.Overlap s.operands.src s.operands.dst
    let small := s.dstLen.toNat < 2 * s.srcLen.toNat
    (t.kind = .faultRange ↔ bad) ∧ (t.kind = .faultOverlap ↔ ¬ bad ∧ lap) ∧
    (t.kind = .outputTooSmall ↔ ¬ bad ∧ ¬ lap ∧ small)) ∧
  (∀ (s t : State), exec .elen s = .next t →
    (t.kind = .faultOverflow ↔ 2 ^ s.cfg.sizeBits ≤ 2 * s.srcLen.toNat)) ∧
  (∀ (s t : State), exec .dlen s = .next t → (t.kind = .oddLength ↔ s.srcLen.toNat % 2 = 1)) ∧
  ∀ (s t : State) (w : CmdWord), s.Started w → s.inputs = [] → step s = .next t →
    (t.kind = .faultIllegal ↔ ¬ w.Legal)

/-! ### The encode commands -/

/-- Spec R181, R183: HEX.ENC with capacity for 2n characters completes with OK and RESULT = 2n and writes exactly the 2n
characters, high nibble first, in one letter case; every other byte, the rest of the destination among them, and every
other register is unchanged. -/
def Obligations.EncEncodesEveryByte : Prop :=
  ∀ s : State, s.operands.src.InRange s.cfg.memSize → s.operands.dst.InRange s.cfg.memSize →
    ¬ Region.Overlap s.operands.src s.operands.dst → 2 * s.srcLen.toNat ≤ s.dstLen.toNat →
    (∃ (m : Memory) (r : Word),
      exec .encU s = .next
        { s with mem := m, phase := .idle, done := true, kind := .ok, result := r, errIndex := 0, errByte := 0 } ∧
      r.toNat = 2 * s.srcLen.toNat ∧
      Writes s.mem m s.dstAddr.toNat (2 * s.srcLen.toNat) (encodedChar alphaUpper s.text)) ∧
    ∃ (m : Memory) (r : Word),
      exec .encL s = .next
        { s with mem := m, phase := .idle, done := true, kind := .ok, result := r, errIndex := 0, errByte := 0 } ∧
      r.toNat = 2 * s.srcLen.toNat ∧
      Writes s.mem m s.dstAddr.toNat (2 * s.srcLen.toNat) (encodedChar alphaLower s.text)

/-- Spec R184: the round trip. HEX.ENC of n bytes, then HEX.DEC of the 2n characters it wrote into a destination of
capacity at least n, ends with OK and RESULT = n and writes exactly the n bytes, for either alphabet and whatever the
backend of the decoding instance. -/
def Obligations.DecodeOfEncodeIsIdentity : Prop :=
  ∀ (s t u : State) (i : Instr), i ∈ [Instr.encU, .encL] → exec i s = .next t → t.kind = .ok →
    u.mem = t.mem → u.srcAddr = s.dstAddr → u.srcLen.toNat = 2 * s.srcLen.toNat →
    u.operands.src.InRange u.cfg.memSize → u.operands.dst.InRange u.cfg.memSize →
    ¬ Region.Overlap u.operands.src u.operands.dst → s.srcLen.toNat ≤ u.dstLen.toNat →
    ∃ r : State, exec .dec u = .next r ∧ r.kind = .ok ∧ r.result.toNat = s.srcLen.toNat ∧
      Writes u.mem r.mem u.dstAddr.toNat s.srcLen.toNat s.text

/-! ### Access by access -/

/-- Spec R57, R62, R200: a command run one access at a time, the host not interfering, ends in exactly the state that
`exec` gives; and left to itself after any number of its accesses, it goes on from there to that same state. That this takes
one engine step for each access and one for the completion is the model's choice (log 15). -/
def Obligations.AccessByAccessReachesExec : Prop :=
  ∀ (s : State) (w : CmdWord) (i : Instr), s.Started w → decode w = .command i →
    let n := (algorithmOf i s.cfg s.operands).accesses s.mem
    exec i s = .next (engineTicks (n + 1) s) ∧
    ∀ k ≤ n, engineRun (engineTicks k s) = exec i s ∧ (engineTicks k s).busy = true

/-- Spec R240: every started word completes within a number of engine steps bounded by a + b * (SRC_LEN + the destination
bytes the command may write), for constants a and b. That a step is one byte access is the model's choice (log 15). -/
def Obligations.EngineStepsAreBounded : Prop :=
  ∃ a b : Nat, ∀ (s : State) (w : CmdWord), s.Started w →
    (∀ i, decode w = .command i →
      ∃ n ≤ a + b * (s.srcLen.toNat + dstUsed i s.operands), (engineTicks n s).busy = false) ∧
    (∀ e, decode w = .illegal e → ∃ n ≤ a, (engineTicks n s).busy = false)

/-- Spec R232: a reset during a command reports no outcome and changes no byte of data memory itself; what the command
had written is a prefix of its writes, in their order; and every prefix can be left, the command still executing when
the reset comes. Which writes these are, and in which order, CommandWritesAscend says. That the number of engine moves
selects the prefix is the model's reading (log 14). -/
def Obligations.ResetLeavesAPrefixOfTheWrites : Prop :=
  ∀ (s : State) (w : CmdWord) (i : Instr), s.Started w → decode w = .command i →
    let ws := (algorithmOf i s.cfg s.operands).writes s.mem
    (∀ k, let t := (engineTicks k s).resetEvent
      t.done = false ∧ t.kind = .ok ∧ t.result = 0 ∧ t.errIndex = 0 ∧ t.errByte = 0 ∧
      t.mem = (engineTicks k s).mem ∧ ∃ j ≤ ws.length, t.mem = s.mem.applyWrites (ws.take j)) ∧
    ∀ j ≤ ws.length, ∃ k, (engineTicks k s).busy = true ∧
      (engineTicks k s).resetEvent.mem = s.mem.applyWrites (ws.take j)

/-- Spec R62: a host write during a command to a byte outside the command's regions does not interfere with it and is
not interfered with: an engine step before it or after it comes to the same. -/
def Obligations.AccessOutsideRegionsDoesNotInterfere : Prop :=
  ∀ (s : State) (w : CmdWord) (trace : List Access) (i : Instr) (a : Nat) (b : Byte), s.phase = .exec w trace →
    decode w = .command i → ¬ mayRead i s.operands a → ¬ mayWrite i s.operands a →
    ∃ m : Memory, engineTick { s with mem := s.mem.write a b } = { engineTick s with mem := m } ∧
      ∀ x, m.read x = if a = x then b else (engineTick s).mem.read x

/-- Spec R63: the race. When the command's next access is a read at `a`, a host write of that byte makes the read return
the new value if it comes before the engine's step and the old value if it comes after it; when it is a write at `a`,
a host read of that byte returns the new value after the engine's step and the old value before it. -/
def Obligations.RacedByteIsOldOrNew : Prop :=
  ∀ (s : State) (w : CmdWord) (trace : List Access) (a : Nat), s.phase = .exec w trace →
    (∀ (next : Byte → Algorithm) (b : Byte),
      ((wordAlgorithm w s.cfg s.operands).resume trace).upNext = .read a next →
      (engineTick s).phase = .exec w (trace ++ [.got (s.mem.read a)]) ∧
      (engineTick { s with mem := s.mem.write a b }).phase = .exec w (trace ++ [.got b])) ∧
    ∀ (v : Byte) (next : Algorithm),
      ((wordAlgorithm w s.cfg s.operands).resume trace).upNext = .write a v next →
      (engineTick s).mem.read a = v ∧ (engineTick s).phase = .exec w (trace ++ [.wrote]) ∧
      ∀ x, x ≠ a → (engineTick s).mem.read x = s.mem.read x

/-! ### The tables and the lane stages -/

/-- Spec R110, R111: the nibble table by its three ranges, and its 22 valid entries. -/
def Obligations.NibbleTableContent : Prop :=
  (∀ c : Byte, (nibbleTable c).toNat =
    if 0x30 ≤ c.toNat ∧ c.toNat ≤ 0x39 then c.toNat - 0x30
    else if 0x61 ≤ c.toNat ∧ c.toNat ≤ 0x66 then c.toNat - 0x57
    else if 0x41 ≤ c.toNat ∧ c.toNat ≤ 0x46 then c.toNat - 0x37
    else 0xFF) ∧
  (((List.range 256).map (BitVec.ofNat 8)).filter fun c => decide (IsHex c)).length = 22

/-- Spec R112, R113: the pair table at a pair's key, whose high byte is the first character, and its 484 valid
entries. -/
def Obligations.PairTableContent : Prop :=
  (∀ c0 c1 : Byte, (pairKey c0 c1).toNat = 256 * c0.toNat + c1.toNat ∧
    (pairTable (pairKey c0 c1)).toNat =
      if (nibbleTable c0).toNat ≤ 15 ∧ (nibbleTable c1).toNat ≤ 15
      then 16 * (nibbleTable c0).toNat + (nibbleTable c1).toNat else 0xFFFF) ∧
  (∀ k : BitVec 16, ∃ c0 c1 : Byte, k = pairKey c0 c1) ∧
  (((List.range 65536).map (BitVec.ofNat 16)).filter fun k => !pairFlag (pairTable k)).length = 484

/-- Spec R116: the error locator on a pair whose flag is set: the first character if it is invalid, also when both are,
else the second, which is then invalid. -/
def Obligations.LocatorNamesTheFirstOffender : Prop :=
  ∀ (c0 c1 : Byte) (j : Nat), pairFlag (pairTable (pairKey c0 c1)) = true →
    (¬ nibbleTable c0 ≤ 0x0F → locate c0 c1 j = (j, c0)) ∧
    (nibbleTable c0 ≤ 0x0F → locate c0 c1 j = (j + 1, c1) ∧ ¬ nibbleTable c1 ≤ 0x0F)

/-- Spec R151, R153 to R155: the lane stages of one chunk. Each lane has one class, INV exactly where the nibble table is
INVALID; the first invalid lane is the least one; and in a valid chunk each nibble is the table's and each output byte is
the pair table's. -/
def Obligations.LaneStagesMatchTheTables : Prop :=
  (∀ b : Byte, laneInv b = !decide (IsHex b) ∧ (laneDig b && laneLow b) = false ∧ (laneDig b && laneUpp b) = false ∧
    (laneLow b && laneUpp b) = false) ∧
  (∀ l : List Byte, (VecRegs.ofLanes l).valid = true ↔ ∀ b ∈ l, IsHex b) ∧
  (∀ (l : List Byte) (f : Nat), FirstInvalid (fun k => l.getD k 0) l.length f →
    (VecRegs.ofLanes l).firstInvalid = f ∧ (VecRegs.ofLanes l).lane f = l.getD f 0) ∧
  ∀ l : List Byte, (∀ b ∈ l, IsHex b) →
    (∀ k < l.length, (VecRegs.ofLanes l).nibble k = nibbleTable (l.getD k 0)) ∧
    ∀ j, 2 * j + 1 < l.length → (VecRegs.ofLanes l).packed j =
      pairByte (pairTable (pairKey (l.getD (2 * j) 0) (l.getD (2 * j + 1) 0)))

/-- Spec R180, R181: the alphabets' characters, and that the two characters of a byte decode back to it with either
alphabet. -/
def Obligations.AlphabetsInvertTheNibbleTable : Prop :=
  (∀ v : BitVec 4, (alphaAt alphaLower v).toNat = (if v.toNat < 10 then 0x30 + v.toNat else 0x57 + v.toNat) ∧
    (alphaAt alphaUpper v).toNat = (if v.toNat < 10 then 0x30 + v.toNat else 0x37 + v.toNat)) ∧
  ∀ x : Byte, ∀ alphabet ∈ [alphaLower, alphaUpper],
    pairTable (pairKey (alphaAt alphabet (highNibble x)) (alphaAt alphabet (lowNibble x))) = x.setWidth 16

/-! ### The order of a command's accesses -/

/-- Spec R57 with R122, R126, R141, R156, R161, R172, R182: the writes a command makes, in order: bytes at rising
addresses, one write each. HEX.DECIP on a valid text writes decoded byte p at S + p for p rising below L/2, and nothing on
an invalid one; HEX.DEC and HEX.DECA write decoded byte p at D + p for p rising below L/2, or below the prefix of R126 or
R172 when character i is the first invalid one; HEX.ENC writes character j at D + j for j rising below 2n; the length
commands write nothing. -/
def Obligations.CommandWritesAscend : Prop :=
  ∀ s : State,
    let writes := fun i : Instr => (algorithmOf i s.cfg s.operands).writes s.mem
    let len := s.srcLen.toNat
    writes .dlen = [] ∧ writes .elen = [] ∧
    (s.operands.src.InRange s.cfg.memSize → len % 2 = 0 →
      (AllHex s.text len → writes .decip = writesFrom s.srcAddr.toNat (len / 2) (decodedByte s.text)) ∧
      ∀ i, FirstInvalid s.text len i → writes .decip = []) ∧
    (s.operands.src.InRange s.cfg.memSize → s.operands.dst.InRange s.cfg.memSize →
      ¬ Region.Overlap s.operands.src s.operands.dst → len % 2 = 0 → len / 2 ≤ s.dstLen.toNat →
      (AllHex s.text len → writes .dec = writesFrom s.dstAddr.toNat (len / 2) (decodedByte s.text)) ∧
      ∀ i, FirstInvalid s.text len i →
        writes .dec = writesFrom s.dstAddr.toNat (decPrefix s.cfg.vecChunk len i) (decodedByte s.text)) ∧
    (s.operands.src.InRange s.cfg.memSize → s.operands.array.InRange s.cfg.memSize →
      ¬ Region.Overlap s.operands.src s.operands.array → len % 2 = 0 → len / 2 = s.argN.toNat →
      (AllHex s.text len → writes .deca = writesFrom s.dstAddr.toNat (len / 2) (decodedByte s.text)) ∧
      ∀ i, FirstInvalid s.text len i →
        writes .deca = writesFrom s.dstAddr.toNat (i / 2) (decodedByte s.text)) ∧
    (s.operands.src.InRange s.cfg.memSize → s.operands.dst.InRange s.cfg.memSize →
      ¬ Region.Overlap s.operands.src s.operands.dst → 2 * len ≤ s.dstLen.toNat →
      writes .encU = writesFrom s.dstAddr.toNat (2 * len) (encodedChar alphaUpper s.text) ∧
      writes .encL = writesFrom s.dstAddr.toNat (2 * len) (encodedChar alphaLower s.text))

/-- Spec R57 with R120, R140, R141, R150, R157, R158, R171, R182: the bytes a command reads, in order. HEX.DEC, HEX.DECA
and HEX.ENC read their source once, at rising addresses; HEX.DECIP reads a valid buffer twice, once for each pass. On a
text whose first invalid character is i they read up to the end of the failing pair, and HEX.DEC with a vector backend to
the end of the failing chunk when it is a full one. The length commands read nothing. -/
def Obligations.CommandReadsAscend : Prop :=
  ∀ s : State,
    let reads := fun i : Instr => (algorithmOf i s.cfg s.operands).reads s.mem
    let src := s.srcAddr.toNat
    let len := s.srcLen.toNat
    reads .dlen = [] ∧ reads .elen = [] ∧
    (s.operands.src.InRange s.cfg.memSize → len % 2 = 0 →
      (AllHex s.text len → reads .decip = readsFrom src len ++ readsFrom src len) ∧
      ∀ i, FirstInvalid s.text len i → reads .decip = readsFrom src ((i / 2 + 1) * 2)) ∧
    (s.operands.src.InRange s.cfg.memSize → s.operands.dst.InRange s.cfg.memSize →
      ¬ Region.Overlap s.operands.src s.operands.dst → len % 2 = 0 → len / 2 ≤ s.dstLen.toNat →
      (AllHex s.text len → reads .dec = readsFrom src len) ∧
      ∀ i, FirstInvalid s.text len i → reads .dec = readsFrom src (decReads s.cfg.vecChunk len i)) ∧
    (s.operands.src.InRange s.cfg.memSize → s.operands.array.InRange s.cfg.memSize →
      ¬ Region.Overlap s.operands.src s.operands.array → len % 2 = 0 → len / 2 = s.argN.toNat →
      (AllHex s.text len → reads .deca = readsFrom src len) ∧
      ∀ i, FirstInvalid s.text len i → reads .deca = readsFrom src ((i / 2 + 1) * 2)) ∧
    (s.operands.src.InRange s.cfg.memSize → s.operands.dst.InRange s.cfg.memSize →
      ¬ Region.Overlap s.operands.src s.operands.dst → 2 * len ≤ s.dstLen.toNat →
      reads .encU = readsFrom src len ∧ reads .encL = readsFrom src len)
end

