-- ==== Sys2Proof/Laws/Memory.lean ====
section
/-! SUPPORT. Data memory: read after write, and that every operation keeps the canonical form. -/

namespace Sys2Proof.Machine

theorem Memory.read_insert (c : Host.Cell) (m : Memory) (x : Nat) (h : ∀ d ∈ m, d.1 ≠ c.1) :
    Memory.read (Memory.insert c m) x = if c.1 = x then c.2 else Memory.read m x := by
  induction m with
  | nil => rfl
  | cons d r ih =>
    have hd : d.1 ≠ c.1 := h d (by simp)
    unfold Memory.insert
    split
    · rfl
    · simp only [Memory.read, ih fun e he => h e (by simp [he])]
      split_ifs <;> first | rfl | omega

theorem Memory.read_filter (m : Memory) (a x : Nat) :
    Memory.read (m.filter fun c => c.1 != a) x = if a = x then Memory.fill else Memory.read m x := by
  induction m with
  | nil => simp [Memory.read]
  | cons d r ih =>
    by_cases hd : d.1 = a
    · have : (d.1 != a) = false := by simp [hd]
      rw [List.filter_cons_of_neg (by simp [hd]), ih]
      simp only [Memory.read]
      split_ifs <;> first | rfl | omega
    · rw [List.filter_cons_of_pos (by simp [hd])]
      simp only [Memory.read, ih]
      split_ifs <;> first | rfl | omega

/-- What a memory reads as after a write: the byte at its address, every other byte as before. It needs no canonical
form. -/
theorem Memory.read_write (m : Memory) (a : Nat) (v : Byte) (x : Nat) :
    (m.write a v).read x = if a = x then v else m.read x := by
  unfold Memory.write
  simp only
  split
  · rename_i hv
    rw [Memory.read_filter, hv]
  · rw [Memory.read_insert _ _ _ (by simp), Memory.read_filter]
    split_ifs <;> rfl

@[simp] theorem Memory.read_write_same (m : Memory) (a : Nat) (v : Byte) : (m.write a v).read a = v := by
  rw [Memory.read_write, if_pos rfl]

theorem Memory.read_write_ne (m : Memory) {a x : Nat} (v : Byte) (h : a ≠ x) : (m.write a v).read x = m.read x := by
  rw [Memory.read_write, if_neg h]

theorem Memory.mem_insert {c d : Host.Cell} {m : Memory} : d ∈ Memory.insert c m ↔ d = c ∨ d ∈ m := by
  induction m with
  | nil => simp [Memory.insert]
  | cons e r ih =>
    unfold Memory.insert
    split
    · simp
    · simp only [List.mem_cons, ih]
      tauto

/-- The cells of a memory after a write are the written one and cells that were there. -/
theorem Memory.mem_write {m : Memory} {a : Nat} {v : Byte} {d : Host.Cell} (h : d ∈ m.write a v) :
    d = (a, v) ∨ d ∈ m := by
  unfold Memory.write at h
  simp only at h
  split at h
  · exact .inr (List.mem_of_mem_filter h)
  · exact (Memory.mem_insert.mp h).imp_right List.mem_of_mem_filter

theorem Memory.insert_rising (c : Host.Cell) (m : Memory) (h : ∀ d ∈ m, d.1 ≠ c.1)
    (hm : m.Pairwise fun c d => c.1 < d.1) : (Memory.insert c m).Pairwise fun c d => c.1 < d.1 := by
  induction m with
  | nil => simp [Memory.insert]
  | cons e r ih =>
    have hr := List.pairwise_cons.mp hm
    unfold Memory.insert
    split
    · rename_i hlt
      refine List.pairwise_cons.mpr ⟨fun d hd => ?_, hm⟩
      rcases List.mem_cons.mp hd with rfl | hd
      · exact hlt
      · exact hlt.trans (hr.1 d hd)
    · rename_i hlt
      refine List.pairwise_cons.mpr ⟨fun d hd => ?_, ih (fun d hd => h d (by simp [hd])) hr.2⟩
      rcases Memory.mem_insert.mp hd with rfl | hd
      · have := h e (by simp)
        omega
      · exact hr.1 d hd

/-- A write keeps the canonical form. -/
theorem Memory.write_wf {m : Memory} (a : Nat) (v : Byte) (h : m.wf) : (m.write a v).wf := by
  refine ⟨?_, fun d hd => ?_⟩
  · unfold Memory.write
    simp only
    split
    · exact h.1.filter _
    · exact Memory.insert_rising _ _ (by simp) (h.1.filter _)
  · unfold Memory.write at hd
    simp only at hd
    split at hd
    · exact h.2 d (List.mem_of_mem_filter hd)
    · rename_i hv
      rcases Memory.mem_insert.mp hd with rfl | hd
      · exact hv
      · exact h.2 d (List.mem_of_mem_filter hd)

/-- A write inside a bound keeps every listed address inside it. -/
theorem Memory.write_below {m : Memory} {a : Nat} (v : Byte) {n : Nat} (ha : a < n) (h : ∀ c ∈ m, c.1 < n) :
    ∀ c ∈ m.write a v, c.1 < n := by
  intro c hc
  rcases Memory.mem_write hc with rfl | hc
  · exact ha
  · exact h c hc

theorem Memory.writeBytes_wf (bytes : List Byte) : ∀ {m : Memory} (a : Nat), m.wf → (m.writeBytes a bytes).wf := by
  induction bytes with
  | nil => exact fun _ h => h
  | cons b r ih => exact fun a h => ih (a + 1) (Memory.write_wf a b h)

theorem Memory.writeBytes_below (bytes : List Byte) : ∀ {m : Memory} {a n : Nat}, a + bytes.length ≤ n →
    (∀ c ∈ m, c.1 < n) → ∀ c ∈ m.writeBytes a bytes, c.1 < n := by
  induction bytes with
  | nil => exact fun _ h => h
  | cons b r ih =>
    intro m a n ha h
    have hl : a + (r.length + 1) ≤ n := ha
    exact ih (by omega) (Memory.write_below b (by omega) h)

/-- What a memory reads as after bytes were written at ascending addresses. -/
theorem Memory.read_writeBytes (bytes : List Byte) : ∀ (m : Memory) (a x : Nat),
    (m.writeBytes a bytes).read x = if a ≤ x ∧ x < a + bytes.length then bytes.getD (x - a) 0 else m.read x := by
  induction bytes with
  | nil =>
    intro m a x
    have : ¬ (a ≤ x ∧ x < a + ([] : List Byte).length) := by simp only [List.length_nil]; omega
    rw [if_neg this]
    rfl
  | cons b r ih =>
    intro m a x
    simp only [Memory.writeBytes, ih, Memory.read_write, List.length_cons]
    by_cases hx : x = a
    · subst hx
      rw [if_neg (by omega), if_pos rfl, if_pos (by omega)]
      simp
    · by_cases h : a + 1 ≤ x ∧ x < a + 1 + r.length
      · rw [if_pos h, if_pos (by omega)]
        have : x - a = (x - (a + 1)) + 1 := by omega
        rw [this, List.getD_cons_succ]
      · rw [if_neg h, if_neg (by omega), if_neg (by omega)]

end Sys2Proof.Machine
end

