-- ==== Sys2Proof/Laws/State.lean ====
section
/-! SUPPORT. Field by field, what each update of State leaves and what it writes: one lemma per field per update. -/

namespace Sys2Proof.Machine

@[simp] theorem State.writeByte_cfg (s : State) (a : Nat) (v : Byte) : (s.writeByte a v).cfg = s.cfg := rfl
@[simp] theorem State.writeByte_cmd (s : State) (a : Nat) (v : Byte) : (s.writeByte a v).cmd = s.cmd := rfl
@[simp] theorem State.writeByte_srcAddr (s : State) (a : Nat) (v : Byte) : (s.writeByte a v).srcAddr = s.srcAddr := rfl
@[simp] theorem State.writeByte_srcLen (s : State) (a : Nat) (v : Byte) : (s.writeByte a v).srcLen = s.srcLen := rfl
@[simp] theorem State.writeByte_dstAddr (s : State) (a : Nat) (v : Byte) : (s.writeByte a v).dstAddr = s.dstAddr := rfl
@[simp] theorem State.writeByte_dstLen (s : State) (a : Nat) (v : Byte) : (s.writeByte a v).dstLen = s.dstLen := rfl
@[simp] theorem State.writeByte_argN (s : State) (a : Nat) (v : Byte) : (s.writeByte a v).argN = s.argN := rfl
@[simp] theorem State.writeByte_done (s : State) (a : Nat) (v : Byte) : (s.writeByte a v).done = s.done := rfl
@[simp] theorem State.writeByte_kind (s : State) (a : Nat) (v : Byte) : (s.writeByte a v).kind = s.kind := rfl
@[simp] theorem State.writeByte_result (s : State) (a : Nat) (v : Byte) : (s.writeByte a v).result = s.result := rfl
@[simp] theorem State.writeByte_errIndex (s : State) (a : Nat) (v : Byte) : (s.writeByte a v).errIndex = s.errIndex := rfl
@[simp] theorem State.writeByte_errByte (s : State) (a : Nat) (v : Byte) : (s.writeByte a v).errByte = s.errByte := rfl
@[simp] theorem State.writeByte_phase (s : State) (a : Nat) (v : Byte) : (s.writeByte a v).phase = s.phase := rfl
@[simp] theorem State.writeByte_vec (s : State) (a : Nat) (v : Byte) : (s.writeByte a v).vec = s.vec := rfl
@[simp] theorem State.writeByte_mem (s : State) (a : Nat) (v : Byte) : (s.writeByte a v).mem = s.mem.write a v := rfl
@[simp] theorem State.writeByte_inputs (s : State) (a : Nat) (v : Byte) : (s.writeByte a v).inputs = s.inputs := rfl
@[simp] theorem State.writeByte_hostReads (s : State) (a : Nat) (v : Byte) : (s.writeByte a v).hostReads = s.hostReads := rfl

@[simp] theorem State.setVec_cfg (s : State) (v : VecRegs) : (s.setVec v).cfg = s.cfg := rfl
@[simp] theorem State.setVec_cmd (s : State) (v : VecRegs) : (s.setVec v).cmd = s.cmd := rfl
@[simp] theorem State.setVec_srcAddr (s : State) (v : VecRegs) : (s.setVec v).srcAddr = s.srcAddr := rfl
@[simp] theorem State.setVec_srcLen (s : State) (v : VecRegs) : (s.setVec v).srcLen = s.srcLen := rfl
@[simp] theorem State.setVec_dstAddr (s : State) (v : VecRegs) : (s.setVec v).dstAddr = s.dstAddr := rfl
@[simp] theorem State.setVec_dstLen (s : State) (v : VecRegs) : (s.setVec v).dstLen = s.dstLen := rfl
@[simp] theorem State.setVec_argN (s : State) (v : VecRegs) : (s.setVec v).argN = s.argN := rfl
@[simp] theorem State.setVec_done (s : State) (v : VecRegs) : (s.setVec v).done = s.done := rfl
@[simp] theorem State.setVec_kind (s : State) (v : VecRegs) : (s.setVec v).kind = s.kind := rfl
@[simp] theorem State.setVec_result (s : State) (v : VecRegs) : (s.setVec v).result = s.result := rfl
@[simp] theorem State.setVec_errIndex (s : State) (v : VecRegs) : (s.setVec v).errIndex = s.errIndex := rfl
@[simp] theorem State.setVec_errByte (s : State) (v : VecRegs) : (s.setVec v).errByte = s.errByte := rfl
@[simp] theorem State.setVec_phase (s : State) (v : VecRegs) : (s.setVec v).phase = s.phase := rfl
@[simp] theorem State.setVec_vec (s : State) (v : VecRegs) : (s.setVec v).vec = v := rfl
@[simp] theorem State.setVec_mem (s : State) (v : VecRegs) : (s.setVec v).mem = s.mem := rfl
@[simp] theorem State.setVec_inputs (s : State) (v : VecRegs) : (s.setVec v).inputs = s.inputs := rfl
@[simp] theorem State.setVec_hostReads (s : State) (v : VecRegs) : (s.setVec v).hostReads = s.hostReads := rfl

@[simp] theorem State.complete_cfg (s : State) (c : Completion) : (s.complete c).cfg = s.cfg := rfl
@[simp] theorem State.complete_cmd (s : State) (c : Completion) : (s.complete c).cmd = s.cmd := rfl
@[simp] theorem State.complete_srcAddr (s : State) (c : Completion) : (s.complete c).srcAddr = s.srcAddr := rfl
@[simp] theorem State.complete_srcLen (s : State) (c : Completion) : (s.complete c).srcLen = s.srcLen := rfl
@[simp] theorem State.complete_dstAddr (s : State) (c : Completion) : (s.complete c).dstAddr = s.dstAddr := rfl
@[simp] theorem State.complete_dstLen (s : State) (c : Completion) : (s.complete c).dstLen = s.dstLen := rfl
@[simp] theorem State.complete_argN (s : State) (c : Completion) : (s.complete c).argN = s.argN := rfl
@[simp] theorem State.complete_done (s : State) (c : Completion) : (s.complete c).done = true := rfl
@[simp] theorem State.complete_kind (s : State) (c : Completion) : (s.complete c).kind = c.kind := rfl
@[simp] theorem State.complete_result (s : State) (c : Completion) : (s.complete c).result = BitVec.ofNat 64 c.result := rfl
@[simp] theorem State.complete_errIndex (s : State) (c : Completion) : (s.complete c).errIndex = BitVec.ofNat 64 c.errIndex := rfl
@[simp] theorem State.complete_errByte (s : State) (c : Completion) : (s.complete c).errByte = c.errByte := rfl
@[simp] theorem State.complete_phase (s : State) (c : Completion) : (s.complete c).phase = .idle := rfl
@[simp] theorem State.complete_vec (s : State) (c : Completion) : (s.complete c).vec = s.vec := rfl
@[simp] theorem State.complete_mem (s : State) (c : Completion) : (s.complete c).mem = s.mem := rfl
@[simp] theorem State.complete_inputs (s : State) (c : Completion) : (s.complete c).inputs = s.inputs := rfl
@[simp] theorem State.complete_hostReads (s : State) (c : Completion) : (s.complete c).hostReads = s.hostReads := rfl

@[simp] theorem State.startCommand_cfg (s : State) (v : Word) : (s.startCommand v).cfg = s.cfg := rfl
@[simp] theorem State.startCommand_cmd (s : State) (v : Word) : (s.startCommand v).cmd = v.setWidth 32 := rfl
@[simp] theorem State.startCommand_srcAddr (s : State) (v : Word) : (s.startCommand v).srcAddr = s.srcAddr := rfl
@[simp] theorem State.startCommand_srcLen (s : State) (v : Word) : (s.startCommand v).srcLen = s.srcLen := rfl
@[simp] theorem State.startCommand_dstAddr (s : State) (v : Word) : (s.startCommand v).dstAddr = s.dstAddr := rfl
@[simp] theorem State.startCommand_dstLen (s : State) (v : Word) : (s.startCommand v).dstLen = s.dstLen := rfl
@[simp] theorem State.startCommand_argN (s : State) (v : Word) : (s.startCommand v).argN = s.argN := rfl
@[simp] theorem State.startCommand_done (s : State) (v : Word) : (s.startCommand v).done = false := rfl
@[simp] theorem State.startCommand_kind (s : State) (v : Word) : (s.startCommand v).kind = s.kind := rfl
@[simp] theorem State.startCommand_result (s : State) (v : Word) : (s.startCommand v).result = s.result := rfl
@[simp] theorem State.startCommand_errIndex (s : State) (v : Word) : (s.startCommand v).errIndex = s.errIndex := rfl
@[simp] theorem State.startCommand_errByte (s : State) (v : Word) : (s.startCommand v).errByte = s.errByte := rfl
@[simp] theorem State.startCommand_phase (s : State) (v : Word) : (s.startCommand v).phase = .exec (v.setWidth 32) [] := rfl
@[simp] theorem State.startCommand_vec (s : State) (v : Word) : (s.startCommand v).vec = s.vec := rfl
@[simp] theorem State.startCommand_mem (s : State) (v : Word) : (s.startCommand v).mem = s.mem := rfl
@[simp] theorem State.startCommand_inputs (s : State) (v : Word) : (s.startCommand v).inputs = s.inputs := rfl
@[simp] theorem State.startCommand_hostReads (s : State) (v : Word) : (s.startCommand v).hostReads = s.hostReads := rfl

@[simp] theorem State.record_cfg (s : State) (x : Access) : (s.record x).cfg = s.cfg := by unfold State.record; split <;> rfl
@[simp] theorem State.record_cmd (s : State) (x : Access) : (s.record x).cmd = s.cmd := by unfold State.record; split <;> rfl
@[simp] theorem State.record_srcAddr (s : State) (x : Access) : (s.record x).srcAddr = s.srcAddr := by unfold State.record; split <;> rfl
@[simp] theorem State.record_srcLen (s : State) (x : Access) : (s.record x).srcLen = s.srcLen := by unfold State.record; split <;> rfl
@[simp] theorem State.record_dstAddr (s : State) (x : Access) : (s.record x).dstAddr = s.dstAddr := by unfold State.record; split <;> rfl
@[simp] theorem State.record_dstLen (s : State) (x : Access) : (s.record x).dstLen = s.dstLen := by unfold State.record; split <;> rfl
@[simp] theorem State.record_argN (s : State) (x : Access) : (s.record x).argN = s.argN := by unfold State.record; split <;> rfl
@[simp] theorem State.record_done (s : State) (x : Access) : (s.record x).done = s.done := by unfold State.record; split <;> rfl
@[simp] theorem State.record_kind (s : State) (x : Access) : (s.record x).kind = s.kind := by unfold State.record; split <;> rfl
@[simp] theorem State.record_result (s : State) (x : Access) : (s.record x).result = s.result := by unfold State.record; split <;> rfl
@[simp] theorem State.record_errIndex (s : State) (x : Access) : (s.record x).errIndex = s.errIndex := by unfold State.record; split <;> rfl
@[simp] theorem State.record_errByte (s : State) (x : Access) : (s.record x).errByte = s.errByte := by unfold State.record; split <;> rfl
@[simp] theorem State.record_vec (s : State) (x : Access) : (s.record x).vec = s.vec := by unfold State.record; split <;> rfl
@[simp] theorem State.record_mem (s : State) (x : Access) : (s.record x).mem = s.mem := by unfold State.record; split <;> rfl
@[simp] theorem State.record_inputs (s : State) (x : Access) : (s.record x).inputs = s.inputs := by unfold State.record; split <;> rfl
@[simp] theorem State.record_hostReads (s : State) (x : Access) : (s.record x).hostReads = s.hostReads := by unfold State.record; split <;> rfl

@[simp] theorem State.resetEvent_cfg (s : State)  : (s.resetEvent).cfg = s.cfg := rfl
@[simp] theorem State.resetEvent_cmd (s : State)  : (s.resetEvent).cmd = 0 := rfl
@[simp] theorem State.resetEvent_srcAddr (s : State)  : (s.resetEvent).srcAddr = 0 := rfl
@[simp] theorem State.resetEvent_srcLen (s : State)  : (s.resetEvent).srcLen = 0 := rfl
@[simp] theorem State.resetEvent_dstAddr (s : State)  : (s.resetEvent).dstAddr = 0 := rfl
@[simp] theorem State.resetEvent_dstLen (s : State)  : (s.resetEvent).dstLen = 0 := rfl
@[simp] theorem State.resetEvent_argN (s : State)  : (s.resetEvent).argN = 0 := rfl
@[simp] theorem State.resetEvent_done (s : State)  : (s.resetEvent).done = false := rfl
@[simp] theorem State.resetEvent_kind (s : State)  : (s.resetEvent).kind = .ok := rfl
@[simp] theorem State.resetEvent_result (s : State)  : (s.resetEvent).result = 0 := rfl
@[simp] theorem State.resetEvent_errIndex (s : State)  : (s.resetEvent).errIndex = 0 := rfl
@[simp] theorem State.resetEvent_errByte (s : State)  : (s.resetEvent).errByte = 0 := rfl
@[simp] theorem State.resetEvent_phase (s : State)  : (s.resetEvent).phase = .init s.cfg.initSteps := rfl
@[simp] theorem State.resetEvent_vec (s : State)  : (s.resetEvent).vec = VecRegs.reset s.cfg := rfl
@[simp] theorem State.resetEvent_mem (s : State)  : (s.resetEvent).mem = s.mem := rfl
@[simp] theorem State.resetEvent_inputs (s : State)  : (s.resetEvent).inputs = s.inputs := rfl
@[simp] theorem State.resetEvent_hostReads (s : State)  : (s.resetEvent).hostReads = s.hostReads := rfl

@[simp] theorem State.writeReg_cfg (s : State) (r : Reg) (v : Word) : (s.writeReg r v).cfg = s.cfg := by cases r <;> rfl
@[simp] theorem State.writeReg_kind (s : State) (r : Reg) (v : Word) : (s.writeReg r v).kind = s.kind := by cases r <;> rfl
@[simp] theorem State.writeReg_result (s : State) (r : Reg) (v : Word) : (s.writeReg r v).result = s.result := by cases r <;> rfl
@[simp] theorem State.writeReg_errIndex (s : State) (r : Reg) (v : Word) : (s.writeReg r v).errIndex = s.errIndex := by cases r <;> rfl
@[simp] theorem State.writeReg_errByte (s : State) (r : Reg) (v : Word) : (s.writeReg r v).errByte = s.errByte := by cases r <;> rfl
@[simp] theorem State.writeReg_vec (s : State) (r : Reg) (v : Word) : (s.writeReg r v).vec = s.vec := by cases r <;> rfl
@[simp] theorem State.writeReg_mem (s : State) (r : Reg) (v : Word) : (s.writeReg r v).mem = s.mem := by cases r <;> rfl
@[simp] theorem State.writeReg_inputs (s : State) (r : Reg) (v : Word) : (s.writeReg r v).inputs = s.inputs := by cases r <;> rfl
@[simp] theorem State.writeReg_hostReads (s : State) (r : Reg) (v : Word) : (s.writeReg r v).hostReads = s.hostReads := by cases r <;> rfl

@[simp] theorem State.writeSlot_cfg (s : State) (off : Nat) (v : Word) : (s.writeSlot off v).cfg = s.cfg := by
  unfold State.writeSlot
  split
  · rfl
  · split
    · exact State.writeReg_cfg s _ v
    · rfl
@[simp] theorem State.writeSlot_kind (s : State) (off : Nat) (v : Word) : (s.writeSlot off v).kind = s.kind := by
  unfold State.writeSlot
  split
  · rfl
  · split
    · exact State.writeReg_kind s _ v
    · rfl
@[simp] theorem State.writeSlot_result (s : State) (off : Nat) (v : Word) : (s.writeSlot off v).result = s.result := by
  unfold State.writeSlot
  split
  · rfl
  · split
    · exact State.writeReg_result s _ v
    · rfl
@[simp] theorem State.writeSlot_errIndex (s : State) (off : Nat) (v : Word) : (s.writeSlot off v).errIndex = s.errIndex := by
  unfold State.writeSlot
  split
  · rfl
  · split
    · exact State.writeReg_errIndex s _ v
    · rfl
@[simp] theorem State.writeSlot_errByte (s : State) (off : Nat) (v : Word) : (s.writeSlot off v).errByte = s.errByte := by
  unfold State.writeSlot
  split
  · rfl
  · split
    · exact State.writeReg_errByte s _ v
    · rfl
@[simp] theorem State.writeSlot_vec (s : State) (off : Nat) (v : Word) : (s.writeSlot off v).vec = s.vec := by
  unfold State.writeSlot
  split
  · rfl
  · split
    · exact State.writeReg_vec s _ v
    · rfl
@[simp] theorem State.writeSlot_mem (s : State) (off : Nat) (v : Word) : (s.writeSlot off v).mem = s.mem := by
  unfold State.writeSlot
  split
  · rfl
  · split
    · exact State.writeReg_mem s _ v
    · rfl
@[simp] theorem State.writeSlot_inputs (s : State) (off : Nat) (v : Word) : (s.writeSlot off v).inputs = s.inputs := by
  unfold State.writeSlot
  split
  · rfl
  · split
    · exact State.writeReg_inputs s _ v
    · rfl
@[simp] theorem State.writeSlot_hostReads (s : State) (off : Nat) (v : Word) : (s.writeSlot off v).hostReads = s.hostReads := by
  unfold State.writeSlot
  split
  · rfl
  · split
    · exact State.writeReg_hostReads s _ v
    · rfl

@[simp] theorem State.readByte_eq (s : State) (a : Nat) : s.readByte a = s.mem.read a := rfl

/-- Recording an access adds it to the position of the executing command. -/
theorem State.record_phase (s : State) (x : Access) {w : CmdWord} {trace : List Access} (h : s.phase = .exec w trace) :
    (s.record x).phase = .exec w (trace ++ [x]) := by
  unfold State.record
  rw [h]

/-- STATUS bit 0 is BUSY (spec R29). -/
theorem State.statusWord_busy (s : State) : s.statusWord.getLsbD 0 = s.busy := by
  unfold State.statusWord
  generalize s.kind.code = k
  cases s.done <;> cases s.busy <;> revert k <;> decide

/-- STATUS bit 1 is DONE (spec R29). -/
theorem State.statusWord_done (s : State) : s.statusWord.getLsbD 1 = s.done := by
  unfold State.statusWord
  generalize s.kind.code = k
  cases s.done <;> cases s.busy <;> revert k <;> decide

/-- The same two bits as `simp` writes them. -/
@[simp] theorem State.statusWord_bit0 (s : State) (h : 0 < 64) : s.statusWord[0] = s.busy := by
  rw [← BitVec.getLsbD_eq_getElem h, State.statusWord_busy]

@[simp] theorem State.statusWord_bit1 (s : State) (h : 1 < 64) : s.statusWord[1] = s.done := by
  rw [← BitVec.getLsbD_eq_getElem h, State.statusWord_done]

/-- The operands are the operand registers, whatever else a state holds. -/
theorem State.operands_congr {s t : State} (h1 : t.srcAddr = s.srcAddr) (h2 : t.srcLen = s.srcLen)
    (h3 : t.dstAddr = s.dstAddr) (h4 : t.dstLen = s.dstLen) (h5 : t.argN = s.argN) : t.operands = s.operands := by
  simp only [State.operands, h1, h2, h3, h4, h5]

end Sys2Proof.Machine
end

