-- ==== Sys2Proof/Laws/Algorithm.lean ====
section
/-! SUPPORT. What running an algorithm can do, said once: the frame of a run, what holds on every path of an
algorithm, and where an algorithm leads over a memory: what it reads, writes and hands on, in order. -/

namespace Sys2Proof.Machine

/-- On every path of an algorithm, whatever its reads return: every read is at an address in `R`, every write at one in
`W`, the vector registers take values in `V`, and it ends with an outcome in `C`. -/
def Algorithm.All (R W : Nat → Prop) (V : VecRegs → Prop) (C : Completion → Prop) : Algorithm → Prop
  | .read a next => R a ∧ ∀ b, (next b).All R W V C
  | .write a _ next => W a ∧ next.All R W V C
  | .vector v next => V v ∧ next.All R W V C
  | .complete c => C c

theorem Algorithm.All.mono {R R' W W' : Nat → Prop} {V V' : VecRegs → Prop} {C C' : Completion → Prop}
    (hR : ∀ a, R a → R' a) (hW : ∀ a, W a → W' a) (hV : ∀ v, V v → V' v) (hC : ∀ c, C c → C' c) :
    ∀ {p : Algorithm}, p.All R W V C → p.All R' W' V' C' := by
  intro p
  induction p with
  | read a next ih => exact fun h => ⟨hR a h.1, fun b => ih b (h.2 b)⟩
  | write a v next ih => exact fun h => ⟨hW a h.1, ih h.2⟩
  | vector v next ih => exact fun h => ⟨hV v h.1, ih h.2⟩
  | complete c => exact hC c

theorem Algorithm.All.advance {R W : Nat → Prop} {V : VecRegs → Prop} {C : Completion → Prop} (x : Access) :
    ∀ {p : Algorithm}, p.All R W V C → (p.advance x).All R W V C := by
  intro p
  induction p with
  | read a next ih =>
    intro h
    cases x with
    | got b => exact h.2 b
    | wrote => exact h
  | write a v next ih =>
    intro h
    cases x with
    | got b => exact h
    | wrote => exact h.2
  | vector v next ih => exact fun h => ih h.2
  | complete c => exact fun h => h

theorem Algorithm.All.resume {R W : Nat → Prop} {V : VecRegs → Prop} {C : Completion → Prop} (trace : List Access) :
    ∀ {p : Algorithm}, p.All R W V C → (p.resume trace).All R W V C := by
  induction trace with
  | nil => exact fun h => h
  | cons x r ih => exact fun h => ih (h.advance x)

/-- What a run answers: a memory, vector registers and an outcome, each inside what its paths allow, and every other
field as it was. -/
theorem Algorithm.run_all {R W : Nat → Prop} {V : VecRegs → Prop} {C : Completion → Prop} :
    ∀ {p : Algorithm}, p.All R W V C → ∀ s : State, ∃ (m : Memory) (v : VecRegs) (c : Completion),
      p.run s = State.complete { s with mem := m, vec := v } c ∧ C c ∧ (v = s.vec ∨ V v) ∧
      (∀ a, ¬ W a → m.read a = s.mem.read a) ∧ (s.mem.wf → m.wf) ∧
      (∀ n, (∀ a, W a → a < n) → (∀ d ∈ s.mem, d.1 < n) → ∀ d ∈ m, d.1 < n) := by
  intro p
  induction p with
  | read a next ih => exact fun h s => ih _ (h.2 _) s
  | write a b next ih =>
    intro h s
    obtain ⟨m, v, c, hrun, hc, hv, hm, hwf, hlt⟩ := ih h.2 (s.writeByte a b)
    refine ⟨m, v, c, hrun, hc, hv, fun x hx => ?_, fun hw => hwf (Memory.write_wf a b hw), fun n hn hs => ?_⟩
    · rw [hm x hx, State.writeByte_mem, Memory.read_write_ne]
      rintro rfl
      exact hx h.1
    · exact hlt n hn (Memory.write_below b (hn a h.1) hs)
  | vector w next ih =>
    intro h s
    obtain ⟨m, v, c, hrun, hc, hv, hm, hwf, hlt⟩ := ih h.2 (s.setVec w)
    refine ⟨m, v, c, hrun, hc, .inr ?_, hm, hwf, hlt⟩
    rcases hv with rfl | hv
    · exact h.1
    · exact hv
  | complete c => exact fun h s => ⟨s.mem, s.vec, c, rfl, h, .inl rfl, fun _ _ => rfl, id, fun _ _ hs => hs⟩

/-- What one engine step of an algorithm does: an access or a completion, inside what its paths allow. -/
theorem Algorithm.tick_all {R W : Nat → Prop} {V : VecRegs → Prop} {C : Completion → Prop} :
    ∀ {p : Algorithm}, p.All R W V C → ∀ s : State, ∃ v : VecRegs, (v = s.vec ∨ V v) ∧
      ((∃ a, R a ∧ p.tick s = State.record { s with vec := v } (.got (s.mem.read a))) ∨
       (∃ a b, W a ∧ p.tick s = State.record { s with vec := v, mem := s.mem.write a b } .wrote) ∨
       (∃ c, C c ∧ p.tick s = State.complete { s with vec := v } c)) := by
  intro p
  induction p with
  | read a next ih => exact fun h s => ⟨s.vec, .inl rfl, .inl ⟨a, h.1, rfl⟩⟩
  | write a b next ih => exact fun h s => ⟨s.vec, .inl rfl, .inr (.inl ⟨a, b, h.1, rfl⟩)⟩
  | vector w next ih =>
    intro h s
    obtain ⟨v, hv, hcase⟩ := ih h.2 (s.setVec w)
    refine ⟨v, .inr ?_, hcase⟩
    rcases hv with rfl | hv
    · exact h.1
    · exact hv
  | complete c => exact fun h s => ⟨s.vec, .inl rfl, .inr (.inr ⟨c, h, rfl⟩)⟩

/-- An algorithm that only completes. -/
@[simp] theorem Algorithm.run_complete (c : Completion) (s : State) : (Algorithm.complete c).run s = s.complete c := rfl

@[simp] theorem Algorithm.run_read (a : Nat) (next : Byte → Algorithm) (s : State) :
    (Algorithm.read a next).run s = (next (s.mem.read a)).run s := rfl

@[simp] theorem Algorithm.run_write (a : Nat) (v : Byte) (next : Algorithm) (s : State) :
    (Algorithm.write a v next).run s = next.run (s.writeByte a v) := rfl

@[simp] theorem Algorithm.run_vector (v : VecRegs) (next : Algorithm) (s : State) :
    (Algorithm.vector v next).run s = next.run (s.setVec v) := rfl

/-- The position after one more access (spec R40). -/
theorem Algorithm.resume_concat (p : Algorithm) (trace : List Access) (x : Access) :
    p.resume (trace ++ [x]) = (p.resume trace).advance x := by
  simp [Algorithm.resume, List.foldl_append]

/-- Over a memory, an algorithm reads the addresses `rs` and makes the writes `ws`, each list in order, loads vector
registers the last of which is `v` if any, and goes on as `q`. What it does whole, and in which order, in one. -/
def Algorithm.Leads (p : Algorithm) (m : Memory) (rs : List Nat) (ws : List (Nat × Byte)) (v : Option VecRegs)
    (q : Algorithm) : Prop :=
  p.reads m = rs ++ q.reads (m.applyWrites ws) ∧ p.writes m = ws ++ q.writes (m.applyWrites ws) ∧
  ∀ s : State, s.mem = m → p.run s = q.run { s with mem := m.applyWrites ws, vec := v.getD s.vec }

namespace Algorithm.Leads

variable {p q r : Algorithm} {m : Memory} {rs rs' : List Nat} {ws ws' : List (Nat × Byte)} {v v' : Option VecRegs}

theorem refl (p : Algorithm) (m : Memory) : p.Leads m [] [] none p :=
  ⟨rfl, rfl, fun s h => by subst h; rfl⟩

theorem trans (h : p.Leads m rs ws v q) (h' : q.Leads (m.applyWrites ws) rs' ws' v' r) :
    p.Leads m (rs ++ rs') (ws ++ ws') (v'.or v) r := by
  have e : m.applyWrites (ws ++ ws') = (m.applyWrites ws).applyWrites ws' := List.foldl_append
  refine ⟨?_, ?_, fun s hs => ?_⟩
  · rw [h.1, h'.1, e, List.append_assoc]
  · rw [h.2.1, h'.2.1, e, List.append_assoc]
  · rw [h.2.2 s hs, h'.2.2 _ rfl, e]
    cases v' <;> rfl

theorem read {a : Nat} {next : Byte → Algorithm} (h : (next (m.read a)).Leads m rs ws v q) :
    (Algorithm.read a next).Leads m (a :: rs) ws v q :=
  ⟨congrArg _ h.1, h.2.1, fun s hs => by rw [Algorithm.run_read, hs]; exact h.2.2 s hs⟩

theorem write {a : Nat} {b : Byte} {next : Algorithm} (h : next.Leads (m.write a b) rs ws v q) :
    (Algorithm.write a b next).Leads m rs ((a, b) :: ws) v q :=
  ⟨h.1, congrArg _ h.2.1, fun s hs => by subst hs; exact h.2.2 (s.writeByte a b) rfl⟩

theorem vector {w : VecRegs} {next : Algorithm} (h : next.Leads m rs ws v q) :
    (Algorithm.vector w next).Leads m rs ws (v.or (some w)) q := by
  refine ⟨h.1, h.2.1, fun s hs => ?_⟩
  rw [Algorithm.run_vector, h.2.2 (s.setVec w) hs]
  cases v <;> rfl

/-- An algorithm that leads to a completion: its reads, its writes, and what it leaves. -/
theorem reads_eq {c : Completion} (h : p.Leads m rs ws v (.complete c)) : p.reads m = rs :=
  h.1.trans (List.append_nil rs)

theorem writes_eq {c : Completion} (h : p.Leads m rs ws v (.complete c)) : p.writes m = ws :=
  h.2.1.trans (List.append_nil ws)

theorem run_eq {c : Completion} {s : State} (h : p.Leads s.mem rs ws v (.complete c)) :
    p.run s = State.complete { s with mem := s.mem.applyWrites ws, vec := v.getD s.vec } c := h.2.2 s rfl

end Algorithm.Leads

/-- The `n` reads from the one of `a + p` on, at rising addresses: a part of `readsFrom`. -/
def readsAt (a p n : Nat) : List Nat := (List.range' p n).map fun k => a + k

/-- The `n` writes from the one to `a + p` on, at rising addresses: a part of `writesFrom`. -/
def writesAt (a : Nat) (f : Nat → Byte) (p n : Nat) : List (Nat × Byte) :=
  (List.range' p n).map fun k => (a + k, f k)

theorem readsAt_zero (a n : Nat) : readsAt a 0 n = readsFrom a n := by
  rw [readsAt, readsFrom, List.range_eq_range']

theorem writesAt_zero (a : Nat) (f : Nat → Byte) (n : Nat) : writesAt a f 0 n = writesFrom a n f := by
  rw [writesAt, writesFrom, List.range_eq_range']

theorem readsAt_succ (a p n : Nat) : readsAt a p (n + 1) = (a + p) :: readsAt a (p + 1) n := rfl

theorem writesAt_succ (a : Nat) (f : Nat → Byte) (p n : Nat) :
    writesAt a f p (n + 1) = (a + p, f p) :: writesAt a f (p + 1) n := rfl

/-- Two parts that follow on each other are one. -/
theorem readsAt_add (a p n k : Nat) : readsAt a p n ++ readsAt a (p + n) k = readsAt a p (n + k) := by
  simp only [readsAt, ← List.map_append, List.range'_append_1]

theorem writesAt_add (a : Nat) (f : Nat → Byte) (p n k : Nat) :
    writesAt a f p n ++ writesAt a f (p + n) k = writesAt a f p (n + k) := by
  simp only [writesAt, ← List.map_append, List.range'_append_1]

/-- A part counted from its own first address. -/
theorem readsAt_shift (a q p n : Nat) : readsAt (a + q) p n = readsAt a (q + p) n := by
  simp only [readsAt, ← List.map_add_range' (a := q) p n 1, List.map_map, Function.comp_def, Nat.add_assoc]

theorem writesAt_shift (a : Nat) {f g : Nat → Byte} (q p n : Nat) (h : ∀ k, p ≤ k → k < p + n → g k = f (q + k)) :
    writesAt (a + q) g p n = writesAt a f (q + p) n := by
  simp only [writesAt, ← List.map_add_range' (a := q) p n 1, List.map_map]
  refine List.map_congr_left fun k hk => ?_
  have hk := List.mem_range'_1.mp hk
  simp only [Function.comp, h k hk.1 hk.2, Nat.add_assoc]

/-- What a memory reads as after such writes. -/
theorem Memory.read_writesAt (a : Nat) (f : Nat → Byte) : ∀ (n p : Nat) (m : Memory) (x : Nat),
    (m.applyWrites (writesAt a f p n)).read x = if a + p ≤ x ∧ x < a + p + n then f (x - a) else m.read x := by
  intro n
  induction n with
  | zero =>
    intro p m x
    rw [if_neg (by omega)]
    rfl
  | succ n ih =>
    intro p m x
    show ((m.write (a + p) (f p)).applyWrites (writesAt a f (p + 1) n)).read x = _
    rw [ih, Memory.read_write]
    by_cases hx : x = a + p
    · subst hx
      rw [if_neg (by omega), if_pos rfl, if_pos (by omega), Nat.add_sub_cancel_left]
    · by_cases h : a + (p + 1) ≤ x ∧ x < a + (p + 1) + n
      · rw [if_pos h, if_pos (by omega)]
      · rw [if_neg h, if_neg (Ne.symm hx), if_neg (by omega)]

/-- Writes at rising addresses write exactly their bytes. -/
theorem writes_writesFrom (m : Memory) (a n : Nat) (f : Nat → Byte) :
    Writes m (m.applyWrites (writesFrom a n f)) a n f := by
  intro x
  rw [← writesAt_zero, Memory.read_writesAt]
  rfl

/-- The checks on the regions, when they pass (spec R207, R208). -/
theorem checkRegions_pass {c : Config} {src dst : Region} (next : Algorithm) (h1 : src.InRange c.memSize)
    (h2 : dst.InRange c.memSize) (h3 : ¬ Region.Overlap src dst) : checkRegions c src dst next = next := by
  unfold checkRegions
  rw [if_neg (by simp only [not_not]; exact ⟨h1, h2⟩), if_neg h3]

theorem checkRegions_range {c : Config} {src dst : Region} (next : Algorithm)
    (h : ¬ (src.InRange c.memSize ∧ dst.InRange c.memSize)) :
    checkRegions c src dst next = .complete .faultRange := by
  unfold checkRegions
  rw [if_pos h]

theorem checkRegions_overlap {c : Config} {src dst : Region} (next : Algorithm) (h1 : src.InRange c.memSize)
    (h2 : dst.InRange c.memSize) (h3 : Region.Overlap src dst) :
    checkRegions c src dst next = .complete .faultOverlap := by
  unfold checkRegions
  rw [if_neg (by simp only [not_not]; exact ⟨h1, h2⟩), if_pos h3]

/-- The checks say one of the two faults, or the rest follows with both regions in range and apart. -/
theorem Algorithm.All.checkRegions {R W : Nat → Prop} {V : VecRegs → Prop} {C : Completion → Prop} {c : Config}
    {src dst : Region} {next : Algorithm} (hr : C .faultRange) (ho : C .faultOverlap)
    (h : src.InRange c.memSize → dst.InRange c.memSize → ¬ Region.Overlap src dst → next.All R W V C) :
    (checkRegions c src dst next).All R W V C := by
  unfold Machine.checkRegions
  split
  · exact hr
  · rename_i h1
    split
    · exact ho
    · rename_i h3
      have h1 := not_not.mp h1
      exact h h1.1 h1.2 h3

end Sys2Proof.Machine
end

