-- ==== Sys2Proof/Laws/Tables.lean ====
section
/-! SUPPORT. What the tables hold, pair by pair and lane by lane. -/

namespace Sys2Proof.Machine

theorem pairKey_high (c0 c1 : Byte) : (pairKey c0 c1).extractLsb' 8 8 = c0 := by
  apply BitVec.eq_of_getLsbD_eq
  intro i hi
  have h1 : 8 + i < 16 := by omega
  simp [pairKey, hi, h1]

theorem pairKey_low (c0 c1 : Byte) : (pairKey c0 c1).extractLsb' 0 8 = c1 := by
  apply BitVec.eq_of_getLsbD_eq
  intro i hi
  have h2 : i < 16 := by omega
  simp [pairKey, hi, h2]

theorem pairTable_pairKey (c0 c1 : Byte) : pairTable (pairKey c0 c1) =
    if IsHex c0 ∧ IsHex c1 then ((nibbleTable c0 <<< 4) ||| nibbleTable c1).setWidth 16 else pairInvalid := by
  unfold pairTable
  simp only [pairKey_high, pairKey_low]

/-- A pair's flag is set exactly when one of its characters is no hex digit (spec R112, R114). -/
@[simp] theorem pairFlag_pairTable (c0 c1 : Byte) :
    pairFlag (pairTable (pairKey c0 c1)) = !decide (IsHex c0 ∧ IsHex c1) := by
  rw [pairTable_pairKey]
  by_cases h : IsHex c0 ∧ IsHex c1
  · rw [if_pos h]
    simp only [pairFlag, h, BitVec.getLsbD_setWidth]
    simp
  · rw [if_neg h]
    simp only [h]
    decide

/-- The decoded byte of a valid pair (spec R112). -/
theorem pairByte_pairTable {c0 c1 : Byte} (h0 : IsHex c0) (h1 : IsHex c1) :
    pairByte (pairTable (pairKey c0 c1)) = (nibbleTable c0 <<< 4) ||| nibbleTable c1 := by
  rw [pairTable_pairKey, if_pos ⟨h0, h1⟩, pairByte, BitVec.setWidth_setWidth_of_le _ (by omega)]
  simp

/-- The locator's answer is no hex digit, when the pair's flag is set (spec R116). -/
theorem locate_not_hex {c0 c1 : Byte} (j : Nat) (h : ¬ (IsHex c0 ∧ IsHex c1)) : ¬ IsHex (locate c0 c1 j).2 := by
  unfold locate
  split
  · assumption
  · intro h1
    exact h ⟨by simpa using ‹¬¬IsHex c0›, h1⟩

/-- The classes of a lane agree with the nibble table (spec R151). -/
theorem laneInv_iff (b : Byte) : laneInv b = !decide (IsHex b) := by
  revert b
  decide

/-- The masked select of a lane is its nibble (spec R154). -/
theorem laneNibble_eq (b : Byte) (h : IsHex b) :
    ((if laneDig b then b - 0x30 else 0) ||| (if laneLow b then b - 0x57 else 0) |||
      (if laneUpp b then b - 0x37 else 0)) = nibbleTable b := by
  revert b
  decide

/-- The characters of the two alphabets are hex digits whose nibbles are their positions (spec R180). -/
theorem nibble_alphaLower (v : BitVec 4) : nibbleTable (alphaAt alphaLower v) = v.setWidth 8 := by
  revert v
  decide

theorem nibble_alphaUpper (v : BitVec 4) : nibbleTable (alphaAt alphaUpper v) = v.setWidth 8 := by
  revert v
  decide

theorem nibbles_of_byte (x : Byte) : ((highNibble x).setWidth 8 <<< 4) ||| (lowNibble x).setWidth 8 = x := by
  revert x
  decide

end Sys2Proof.Machine
end

