-- ==== Sys2Proof/Laws/Engines.lean ====
section
/-! SUPPORT. Where the loops of the engines lead: what they read and write, in order, and the outcome they hand on. -/

namespace Sys2Proof.Machine

/-- The scalar loop on valid pairs: it reads each pair and writes each decoded byte, in order (spec R120, R122). -/
theorem scalarLoop_leads_ok (src dst off n : Nat) (ret : EngineReturn → Algorithm) (f : Nat → Byte) :
    ∀ (left p : Nat) (m : Memory),
    (∀ i, 2 * p ≤ i → i < 2 * (p + left) → m.read (src + i) = f i ∧ IsHex (f i)) →
    (∀ i k, 2 * p ≤ i → i < 2 * (p + left) → p ≤ k → k < p + left → src + i ≠ dst + k) →
    (scalarLoop src dst off n ret left p).Leads m (readsAt src (2 * p) (2 * left))
      (writesAt dst (decodedByte f) p left) none (ret (.done n)) := by
  intro left
  induction left with
  | zero => exact fun p m _ _ => .refl _ m
  | succ l ih =>
    intro p m ht hd
    have h0 := ht (2 * p) (by omega) (by omega)
    have h1 := ht (2 * p + 1) (by omega) (by omega)
    rw [← Nat.add_assoc] at h1
    refine .read (.read ?_)
    simp only [h0.1, h1.1, pairFlag_pairTable, h0.2, h1.2, and_self, decide_true, Bool.not_true, Bool.false_eq_true,
      if_false, pairByte_pairTable h0.2 h1.2]
    refine .write (ih (p + 1) _ (fun i a b => ?_)
      fun i k a b c d => hd i k (by omega) (by omega) (by omega) (by omega))
    have := ht i (by omega) (by omega)
    rw [Memory.read_write_ne _ _ (hd i p (by omega) (by omega) (by omega) (by omega)).symm]
    exact this

/-- The locator on a pair whose first invalid character has index `i` (spec R116, R121). -/
theorem locate_first {f : Nat → Byte} {p i : Nat} (hi : i / 2 = p) (hbad : ¬ IsHex (f i))
    (hok : ∀ j, 2 * p ≤ j → j < i → IsHex (f j)) : locate (f (2 * p)) (f (2 * p + 1)) (2 * p) = (i, f i) := by
  rcases (by omega : i = 2 * p ∨ i = 2 * p + 1) with rfl | rfl
  · rw [locate, if_pos hbad]
  · rw [locate, if_neg (not_not.mpr (hok _ (by omega) (by omega)))]

/-- The scalar loop on a text with an invalid character: it writes the pairs before it and reports it (spec R121,
R122). -/
theorem scalarLoop_leads_bad (src dst off n : Nat) (ret : EngineReturn → Algorithm) (f : Nat → Byte) (i0 : Nat)
    (hbad : ¬ IsHex (f i0)) :
    ∀ (left p : Nat) (m : Memory), 2 * p ≤ i0 → i0 < 2 * (p + left) →
    (∀ i, 2 * p ≤ i → i < 2 * (p + left) → m.read (src + i) = f i) →
    (∀ i, 2 * p ≤ i → i < i0 → IsHex (f i)) →
    (∀ i k, 2 * p ≤ i → i < 2 * (p + left) → p ≤ k → k < p + left → src + i ≠ dst + k) →
    (scalarLoop src dst off n ret left p).Leads m (readsAt src (2 * p) (2 * (i0 / 2 - p + 1)))
      (writesAt dst (decodedByte f) p (i0 / 2 - p)) none (ret (.invalidByte (off + i0) (f i0))) := by
  intro left
  induction left with
  | zero => intro p m h1 h2; omega
  | succ l ih =>
    intro p m hp hlt ht hok hd
    have h0 := ht (2 * p) (by omega) (by omega)
    have h1 := ht (2 * p + 1) (by omega) (by omega)
    rw [← Nat.add_assoc] at h1
    by_cases hi : i0 / 2 = p
    · have hpair : ¬ (IsHex (f (2 * p)) ∧ IsHex (f (2 * p + 1))) := by
        rcases (by omega : i0 = 2 * p ∨ i0 = 2 * p + 1) with rfl | rfl
        · exact fun h => hbad h.1
        · exact fun h => hbad h.2
      rw [hi, Nat.sub_self]
      refine .read (.read ?_)
      simp only [h0, h1, pairFlag_pairTable, hpair, decide_false, Bool.not_false, if_true, locate_first hi hbad hok]
      exact .refl _ m
    · have hx0 := hok (2 * p) (by omega) (by omega)
      have hx1 := hok (2 * p + 1) (by omega) (by omega)
      rw [show i0 / 2 - p = (i0 / 2 - (p + 1)) + 1 by omega]
      refine .read (.read ?_)
      simp only [h0, h1, pairFlag_pairTable, hx0, hx1, and_self, decide_true, Bool.not_true, Bool.false_eq_true,
        if_false, pairByte_pairTable hx0 hx1]
      refine .write (ih (p + 1) _ (by omega) (by omega) (fun i a b => ?_) (fun i a b => hok i (by omega) b)
        fun i k a b c d => hd i k (by omega) (by omega) (by omega) (by omega))
      rw [Memory.read_write_ne _ _ (hd i p (by omega) (by omega) (by omega) (by omega)).symm]
      exact ht i (by omega) (by omega)

/-- A chunk load reads ascending addresses and hands their bytes on (spec R150). -/
theorem chunkLoad_leads (next : List Byte → Algorithm) (a : Nat) (m : Memory) : ∀ (left p : Nat) (lanes : List Byte),
    (chunkLoad next left (a + p) lanes).Leads m (readsAt a p left) [] none
      (next (lanes ++ (readsAt a p left).map m.read)) := by
  intro left
  induction left with
  | zero => intro p lanes; simpa [chunkLoad, readsAt] using Algorithm.Leads.refl _ m
  | succ n ih =>
    intro p lanes
    have := ih (p + 1) (lanes ++ [m.read (a + p)])
    rw [List.append_assoc] at this
    exact .read this

/-- A chunk store writes the packed bytes at ascending addresses (spec R156). -/
theorem chunkStore_leads (v : VecRegs) (dst : Nat) (next : Algorithm) : ∀ (left j : Nat) (m : Memory),
    (chunkStore v dst next left j).Leads m [] (writesAt dst v.packed j left) none next := by
  intro left
  induction left with
  | zero => exact fun j m => .refl _ m
  | succ n ih => exact fun j m => .write (ih (j + 1) _)

/-- The lanes of a chunk whose characters are given by a function. -/
theorem ofLanes_lane (g : Nat → Byte) {w k : Nat} (h : k < w) :
    (VecRegs.ofLanes ((List.range w).map g)).lane k = g k := by
  simp [VecRegs.lane, VecRegs.ofLanes, List.getD_eq_getElem?_getD, h]

theorem ofLanes_nibble (g : Nat → Byte) {w k : Nat} (h : k < w) (hx : IsHex (g k)) :
    (VecRegs.ofLanes ((List.range w).map g)).nibble k = nibbleTable (g k) := by
  rw [← laneNibble_eq (g k) hx, VecRegs.nibble, ofLanes_lane g h]
  simp [VecRegs.ofLanes, List.getD_eq_getElem?_getD, h]

theorem ofLanes_packed (g : Nat → Byte) {w j : Nat} (h : 2 * j + 1 < w) (hx : ∀ k < w, IsHex (g k)) :
    (VecRegs.ofLanes ((List.range w).map g)).packed j = decodedByte g j := by
  rw [VecRegs.packed, ofLanes_nibble g (by omega) (hx _ (by omega)), ofLanes_nibble g h (hx _ h)]
  rfl

theorem ofLanes_inv (g : Nat → Byte) (w : Nat) :
    (VecRegs.ofLanes ((List.range w).map g)).inv = (List.range w).map fun k => !decide (IsHex (g k)) := by
  simp [VecRegs.ofLanes, Function.comp_def, laneInv_iff]

/-- A chunk is valid exactly when its characters are hex digits (spec R152). -/
theorem ofLanes_valid (g : Nat → Byte) (w : Nat) :
    (VecRegs.ofLanes ((List.range w).map g)).valid = true ↔ ∀ k < w, IsHex (g k) := by
  rw [VecRegs.valid, ofLanes_inv]
  simp

/-- The first invalid lane (spec R153). -/
theorem ofLanes_firstInvalid (g : Nat → Byte) {w k : Nat} (h : k < w) (hbad : ¬ IsHex (g k))
    (hok : ∀ j < k, IsHex (g j)) : (VecRegs.ofLanes ((List.range w).map g)).firstInvalid = k := by
  rw [VecRegs.firstInvalid, ofLanes_inv, List.findIdx_eq (by simpa using h)]
  refine ⟨by simpa using hbad, fun j hj => ?_⟩
  simpa using hok j hj

theorem decodedByte_shift (f : Nat → Byte) (c h j : Nat) :
    decodedByte (fun k => f (c * (2 * h) + k)) j = decodedByte f (c * h + j) := by
  have e0 : c * (2 * h) + 2 * j = 2 * (c * h + j) := by ring
  have e1 : c * (2 * h) + (2 * j + 1) = 2 * (c * h + j) + 1 := by ring
  simp only [decodedByte, e0, e1]

/-- A chunk whose characters are given by a function (spec R150). -/
theorem lanes_eq {src base w : Nat} {m : Memory} {f : Nat → Byte} (h : ∀ k < w, m.read (src + (base + k)) = f (base + k)) :
    (readsAt (src + base) 0 w).map m.read = (List.range w).map fun k => f (base + k) := by
  rw [readsAt_zero, readsFrom, List.map_map]
  refine List.map_congr_left fun k hk => ?_
  rw [← h k (List.mem_range.mp hk), Function.comp, Nat.add_assoc]

/-- One valid chunk: its characters are read, then its bytes written (spec R150 to R156). -/
theorem chunk_leads_ok {h src dst c : Nat} {f : Nat → Byte} {m : Memory} (next bad : VecRegs → Algorithm)
    (ht : ∀ k < 2 * h, m.read (src + (c * (2 * h) + k)) = f (c * (2 * h) + k) ∧ IsHex (f (c * (2 * h) + k))) :
    ∃ v, (chunkLoad (fun lanes => .vector (VecRegs.ofLanes lanes) <|
        if (VecRegs.ofLanes lanes).valid then
          chunkStore (VecRegs.ofLanes lanes) (dst + c * (2 * h) / 2) (next (VecRegs.ofLanes lanes)) (2 * h / 2) 0
        else bad (VecRegs.ofLanes lanes)) (2 * h) (src + c * (2 * h)) []).Leads m
      (readsAt src (c * (2 * h)) (2 * h)) (writesAt dst (decodedByte f) (c * h) h) (some v) (next v) := by
  refine ⟨VecRegs.ofLanes ((List.range (2 * h)).map fun k => f (c * (2 * h) + k)), ?_⟩
  have hload := chunkLoad_leads (fun lanes => .vector (VecRegs.ofLanes lanes) <|
        if (VecRegs.ofLanes lanes).valid then
          chunkStore (VecRegs.ofLanes lanes) (dst + c * (2 * h) / 2) (next (VecRegs.ofLanes lanes)) (2 * h / 2) 0
        else bad (VecRegs.ofLanes lanes)) (src + c * (2 * h)) m (2 * h) 0 []
  have hhex : ∀ k < 2 * h, IsHex (f (c * (2 * h) + k)) := fun k hk => (ht k hk).2
  rw [List.nil_append, lanes_eq fun k hk => (ht k hk).1, readsAt_shift, Nat.add_zero] at hload
  have hdiv : dst + c * (2 * h) / 2 = dst + c * h := by
    rw [show c * (2 * h) = 2 * (c * h) by ring, Nat.mul_div_cancel_left _ (by omega)]
  simp only [(ofLanes_valid _ _).mpr hhex, if_true, hdiv, Nat.mul_div_cancel_left h (by omega : 0 < 2)] at hload ⊢
  have hstore := chunkStore_leads (VecRegs.ofLanes ((List.range (2 * h)).map fun k => f (c * (2 * h) + k)))
    (dst + c * h) (next (VecRegs.ofLanes ((List.range (2 * h)).map fun k => f (c * (2 * h) + k)))) h 0 m
  rw [writesAt_shift dst (f := decodedByte f) (c * h) 0 h fun k _ hk => by
    rw [ofLanes_packed _ (by omega) hhex, decodedByte_shift], Nat.add_zero] at hstore
  have := hload.trans (Algorithm.Leads.vector hstore)
  rwa [List.append_nil, List.nil_append] at this

/-- The chunk loop on valid chunks (spec R157, R161). -/
theorem vectorLoop_leads_ok (h src dst : Nat) (ret : EngineReturn → Algorithm) (tail : Algorithm) (f : Nat → Byte) :
    ∀ (left c : Nat) (m : Memory),
    (∀ i, c * (2 * h) ≤ i → i < (c + left) * (2 * h) → m.read (src + i) = f i ∧ IsHex (f i)) →
    (∀ i k, c * (2 * h) ≤ i → i < (c + left) * (2 * h) → c * h ≤ k → k < (c + left) * h → src + i ≠ dst + k) →
    ∃ v, (vectorLoop (2 * h) src dst ret tail left c).Leads m (readsAt src (c * (2 * h)) (left * (2 * h)))
      (writesAt dst (decodedByte f) (c * h) (left * h)) v tail := by
  intro left
  induction left with
  | zero =>
    intro c m _ _
    rw [Nat.zero_mul, Nat.zero_mul]
    exact ⟨none, .refl _ m⟩
  | succ n ih =>
    intro c m ht hd
    have hn : (c + (n + 1)) * h = c * h + h + n * h := by ring
    have hn2 : (c + (n + 1)) * (2 * h) = c * (2 * h) + 2 * h + n * (2 * h) := by ring
    have hn3 : (c + 1 + n) * h = c * h + h + n * h := by ring
    have hn4 : (c + 1 + n) * (2 * h) = c * (2 * h) + 2 * h + n * (2 * h) := by ring
    have hn5 : (c + 1) * (2 * h) = c * (2 * h) + 2 * h := by ring
    have hn6 : (c + 1) * h = c * h + h := by ring
    obtain ⟨v, hv⟩ := chunk_leads_ok (dst := dst) (fun _ => vectorLoop (2 * h) src dst ret tail n (c + 1))
      (fun v => ret (.invalidByte (c * (2 * h) + v.firstInvalid) (v.lane v.firstInvalid)))
      (fun k hk => ht (c * (2 * h) + k) (by omega) (by omega))
    obtain ⟨w, hw⟩ := ih (c + 1) (m.applyWrites (writesAt dst (decodedByte f) (c * h) h))
      (fun i a b => by
        rw [Memory.read_writesAt, if_neg]
        · exact ht i (by omega) (by omega)
        · rintro ⟨h1, h2⟩
          exact hd i (src + i - dst) (by omega) (by omega) (by omega) (by omega) (by omega))
      (fun i k a b e g => hd i k (by omega) (by omega) (by omega) (by omega))
    have := hv.trans hw
    rw [hn5, hn6, readsAt_add, writesAt_add, Nat.add_comm (2 * h), Nat.add_comm h, ← Nat.succ_mul,
      ← Nat.succ_mul] at this
    exact ⟨_, this⟩

/-- The chunk loop on chunks one of which is invalid (spec R153, R157, R161): no byte of that chunk is written. -/
theorem vectorLoop_leads_bad (h src dst : Nat) (ret : EngineReturn → Algorithm) (tail : Algorithm) (f : Nat → Byte)
    (i0 : Nat) (hbad : ¬ IsHex (f i0)) :
    ∀ (left c : Nat) (m : Memory), c * (2 * h) ≤ i0 → i0 < (c + left) * (2 * h) →
    (∀ i, c * (2 * h) ≤ i → i < (c + left) * (2 * h) → m.read (src + i) = f i) →
    (∀ i, c * (2 * h) ≤ i → i < i0 → IsHex (f i)) →
    (∀ i k, c * (2 * h) ≤ i → i < (c + left) * (2 * h) → c * h ≤ k → k < (c + left) * h → src + i ≠ dst + k) →
    ∃ v, (vectorLoop (2 * h) src dst ret tail left c).Leads m
      (readsAt src (c * (2 * h)) ((i0 / (2 * h) - c + 1) * (2 * h)))
      (writesAt dst (decodedByte f) (c * h) ((i0 / (2 * h) - c) * h)) v (ret (.invalidByte i0 (f i0))) := by
  intro left
  induction left with
  | zero => intro c m h1 h2; simp only [Nat.add_zero] at h2; omega
  | succ n ih =>
    intro c m hle hlt ht hok hd
    have hh : 0 < 2 * h := by
      rcases Nat.eq_zero_or_pos (2 * h) with h0 | h0
      · rw [h0] at hlt
        omega
      · exact h0
    have hn : (c + (n + 1)) * h = c * h + h + n * h := by ring
    have hn2 : (c + (n + 1)) * (2 * h) = c * (2 * h) + 2 * h + n * (2 * h) := by ring
    have hn3 : (c + 1 + n) * h = c * h + h + n * h := by ring
    have hn4 : (c + 1 + n) * (2 * h) = c * (2 * h) + 2 * h + n * (2 * h) := by ring
    have hn5 : (c + 1) * (2 * h) = c * (2 * h) + 2 * h := by ring
    have hn6 : (c + 1) * h = c * h + h := by ring
    by_cases hin : i0 < c * (2 * h) + 2 * h
    · have hfirst := ofLanes_firstInvalid (fun k => f (c * (2 * h) + k)) (w := 2 * h) (k := i0 - c * (2 * h))
        (by omega) (by simpa only [Nat.add_sub_cancel' hle] using hbad) (fun j hj => hok _ (by omega) (by omega))
      have hlane := ofLanes_lane (fun k => f (c * (2 * h) + k)) (w := 2 * h) (k := i0 - c * (2 * h)) (by omega)
      simp only [Nat.add_sub_cancel' hle] at hlane
      have hnv : ¬ (VecRegs.ofLanes ((List.range (2 * h)).map fun k => f (c * (2 * h) + k))).valid = true := by
        rw [ofLanes_valid]
        intro hall
        have := hall (i0 - c * (2 * h)) (by omega)
        rw [Nat.add_sub_cancel' hle] at this
        exact hbad this
      have hq : i0 / (2 * h) = c := Nat.div_eq_of_lt_le hle (by omega)
      rw [hq, Nat.sub_self, Nat.zero_mul, Nat.zero_add, Nat.one_mul]
      have hload := chunkLoad_leads (fun lanes => .vector (VecRegs.ofLanes lanes) <|
        if (VecRegs.ofLanes lanes).valid then
          chunkStore (VecRegs.ofLanes lanes) (dst + c * (2 * h) / 2)
            (vectorLoop (2 * h) src dst ret tail n (c + 1)) (2 * h / 2) 0
        else ret (.invalidByte (c * (2 * h) + (VecRegs.ofLanes lanes).firstInvalid)
          ((VecRegs.ofLanes lanes).lane (VecRegs.ofLanes lanes).firstInvalid))) (src + c * (2 * h)) m (2 * h) 0 []
      rw [List.nil_append, lanes_eq fun k hk => ht _ (by omega) (by omega), readsAt_shift, Nat.add_zero] at hload
      simp only [hnv, hfirst, hlane, Nat.add_sub_cancel' hle] at hload
      have := hload.trans (Algorithm.Leads.vector (.refl _ m))
      rw [List.append_nil] at this
      exact ⟨_, this⟩
    · obtain ⟨v, hv⟩ := chunk_leads_ok (dst := dst) (fun _ => vectorLoop (2 * h) src dst ret tail n (c + 1))
        (fun v => ret (.invalidByte (c * (2 * h) + v.firstInvalid) (v.lane v.firstInvalid)))
        (fun k hk => ⟨ht (c * (2 * h) + k) (by omega) (by omega), hok _ (by omega) (by omega)⟩)
      obtain ⟨w, hw⟩ := ih (c + 1) (m.applyWrites (writesAt dst (decodedByte f) (c * h) h)) (by omega) (by omega)
        (fun i a b => by
          rw [Memory.read_writesAt, if_neg]
          · exact ht i (by omega) (by omega)
          · rintro ⟨h1, h2⟩
            exact hd i (src + i - dst) (by omega) (by omega) (by omega) (by omega) (by omega))
        (fun i a b => hok i (by omega) b)
        (fun i k a b e g => hd i k (by omega) (by omega) (by omega) (by omega))
      have hq : c + 1 ≤ i0 / (2 * h) := by
        rw [Nat.le_div_iff_mul_le hh]
        omega
      have := hv.trans hw
      rw [hn5, hn6, readsAt_add, writesAt_add, Nat.add_comm (2 * h), Nat.add_comm h, ← Nat.succ_mul,
        ← Nat.succ_mul, show (i0 / (2 * h) - (c + 1)).succ = i0 / (2 * h) - c by omega,
        show (i0 / (2 * h) - (c + 1) + 1).succ = i0 / (2 * h) - c + 1 by omega] at this
      exact ⟨_, this⟩

/-- The validation pass on valid pairs: it reads each pair and writes nothing (spec R140). -/
theorem validateLoop_leads_ok (src : Nat) (bad : Nat → Byte → Algorithm) (valid : Algorithm) (m : Memory) :
    ∀ (left p : Nat), (∀ i, 2 * p ≤ i → i < 2 * (p + left) → IsHex (m.read (src + i))) →
    (validateLoop src bad valid left p).Leads m (readsAt src (2 * p) (2 * left)) [] none valid := by
  intro left
  induction left with
  | zero => exact fun p _ => .refl _ m
  | succ l ih =>
    intro p ht
    have h0 := ht (2 * p) (by omega) (by omega)
    have h1 := ht (2 * p + 1) (by omega) (by omega)
    rw [← Nat.add_assoc] at h1
    refine .read (.read ?_)
    simp only [pairFlag_pairTable, h0, h1, and_self, decide_true, Bool.not_true, Bool.false_eq_true, if_false]
    exact ih (p + 1) fun i a b => ht i (by omega) (by omega)

/-- The validation pass on a text with an invalid character (spec R140, R211). -/
theorem validateLoop_leads_bad (src : Nat) (bad : Nat → Byte → Algorithm) (valid : Algorithm) (m : Memory) (i0 : Nat)
    (hbad : ¬ IsHex (m.read (src + i0))) :
    ∀ (left p : Nat), 2 * p ≤ i0 → i0 < 2 * (p + left) →
    (∀ i, 2 * p ≤ i → i < i0 → IsHex (m.read (src + i))) →
    (validateLoop src bad valid left p).Leads m (readsAt src (2 * p) (2 * (i0 / 2 - p + 1))) [] none
      (bad i0 (m.read (src + i0))) := by
  intro left
  induction left with
  | zero => intro p h1 h2; omega
  | succ l ih =>
    intro p hp hlt hok
    by_cases hi : i0 / 2 = p
    · have hpair : ¬ (IsHex (m.read (src + 2 * p)) ∧ IsHex (m.read (src + 2 * p + 1))) := by
        rw [Nat.add_assoc]
        rcases (by omega : i0 = 2 * p ∨ i0 = 2 * p + 1) with rfl | rfl
        · exact fun h => hbad h.1
        · exact fun h => hbad h.2
      have hloc := locate_first (f := fun i => m.read (src + i)) hi hbad hok
      simp only [← Nat.add_assoc] at hloc
      rw [hi, Nat.sub_self]
      refine .read (.read ?_)
      simp only [pairFlag_pairTable, hpair, decide_false, Bool.not_false, if_true, hloc]
      exact .refl _ m
    · have hx0 := hok (2 * p) (by omega) (by omega)
      have hx1 := hok (2 * p + 1) (by omega) (by omega)
      rw [← Nat.add_assoc] at hx1
      rw [show i0 / 2 - p = (i0 / 2 - (p + 1)) + 1 by omega]
      refine .read (.read ?_)
      simp only [pairFlag_pairTable, hx0, hx1, and_self, decide_true, Bool.not_true, Bool.false_eq_true, if_false]
      exact ih (p + 1) (by omega) (by omega) fun i a b => hok i (by omega) b

/-- The decode pass on valid pairs: every pair is read before a write reaches it (spec R141). -/
theorem inPlaceLoop_leads (src : Nat) (next : Algorithm) (f : Nat → Byte) : ∀ (left p : Nat) (m : Memory),
    (∀ i, 2 * p ≤ i → i < 2 * (p + left) → m.read (src + i) = f i ∧ IsHex (f i)) →
    (inPlaceLoop src next left p).Leads m (readsAt src (2 * p) (2 * left)) (writesAt src (decodedByte f) p left)
      none next := by
  intro left
  induction left with
  | zero => exact fun p m _ => .refl _ m
  | succ l ih =>
    intro p m ht
    have h0 := ht (2 * p) (by omega) (by omega)
    have h1 := ht (2 * p + 1) (by omega) (by omega)
    rw [← Nat.add_assoc] at h1
    refine .read (.read ?_)
    simp only [h0.1, h1.1, pairByte_pairTable h0.2 h1.2]
    refine .write (ih (p + 1) _ fun i a b => ?_)
    rw [Memory.read_write_ne _ _ (by omega)]
    exact ht i (by omega) (by omega)

/-- The encode loop: two characters a byte, the high nibble's first (spec R181, R182). -/
theorem encodeLoop_leads (alphabet : List Byte) (src dst : Nat) (next : Algorithm) (f : Nat → Byte) :
    ∀ (left k : Nat) (m : Memory),
    (∀ i, k ≤ i → i < k + left → m.read (src + i) = f i) →
    (∀ i j, k ≤ i → i < k + left → 2 * k ≤ j → j < 2 * (k + left) → src + i ≠ dst + j) →
    (encodeLoop alphabet src dst next left k).Leads m (readsAt src k left)
      (writesAt dst (encodedChar alphabet f) (2 * k) (2 * left)) none next := by
  intro left
  induction left with
  | zero => exact fun k m _ _ => .refl _ m
  | succ l ih =>
    intro k m ht hd
    have h0 := ht k (by omega) (by omega)
    have e0 : encodedChar alphabet f (2 * k) = alphaAt alphabet (highNibble (f k)) := by
      rw [encodedChar, if_pos (by omega), show 2 * k / 2 = k by omega]
    have e1 : encodedChar alphabet f (2 * k + 1) = alphaAt alphabet (lowNibble (f k)) := by
      rw [encodedChar, if_neg (by omega), show (2 * k + 1) / 2 = k by omega]
    rw [show 2 * (l + 1) = 2 * l + 1 + 1 by ring, writesAt_succ, writesAt_succ, e0, e1, ← h0]
    refine .read (.write (.write (ih (k + 1) _ (fun i a b => ?_)
      fun i j a b c d => hd i j (by omega) (by omega) (by omega) (by omega))))
    have n0 := hd i (2 * k) (by omega) (by omega) (by omega) (by omega)
    have n1 := hd i (2 * k + 1) (by omega) (by omega) (by omega) (by omega)
    rw [Memory.read_write_ne _ _ (by omega), Memory.read_write_ne _ _ (by omega)]
    exact ht i (by omega) (by omega)

end Sys2Proof.Machine
end

