-- ==== Sys2Proof/Laws/Commands.lean ====
section
/-! SUPPORT. Where each decode engine and each command leads as a whole, and what every command can do on every path, one lemma for each. -/

namespace Sys2Proof.Machine

/-- Every backend's chunk is even. -/
theorem vecChunk_even (c : Config) : ∃ h, c.vecChunk = 2 * h := by
  unfold Config.vecChunk
  cases c.backend
  · exact ⟨0, rfl⟩
  · exact ⟨8, rfl⟩
  · exact ⟨16, rfl⟩
  · exact ⟨8, rfl⟩

/-- The scalar engine on a valid text of even length (spec R122). -/
theorem scalarDecode_leads_ok {src len dst cap off : Nat} (ret : EngineReturn → Algorithm) {f : Nat → Byte} {m : Memory}
    (heven : len % 2 = 0) (hcap : len / 2 ≤ cap) (ht : ∀ i < len, m.read (src + i) = f i) (hx : AllHex f len)
    (hd : ∀ i k, i < len → k < len / 2 → src + i ≠ dst + k) :
    (scalarDecode src len dst cap off ret).Leads m (readsAt src 0 len) (writesAt dst (decodedByte f) 0 (len / 2)) none
      (ret (.done (len / 2))) := by
  rw [scalarDecode, if_neg (by omega)]
  have := scalarLoop_leads_ok src dst off (len / 2) ret f (len / 2) 0 m
    (fun i _ h => ⟨ht i (by omega), hx i (by omega)⟩) fun i k _ h _ g => hd i k (by omega) (by omega)
  rwa [Nat.mul_zero, show 2 * (len / 2) = len by omega] at this

/-- The scalar engine on a text of even length with an invalid character (spec R121, R122). -/
theorem scalarDecode_leads_bad {src len dst cap off i0 : Nat} (ret : EngineReturn → Algorithm) {f : Nat → Byte}
    {m : Memory} (heven : len % 2 = 0) (hcap : len / 2 ≤ cap) (ht : ∀ i < len, m.read (src + i) = f i)
    (hx : FirstInvalid f len i0) (hd : ∀ i k, i < len → k < len / 2 → src + i ≠ dst + k) :
    (scalarDecode src len dst cap off ret).Leads m (readsAt src 0 ((i0 / 2 + 1) * 2))
      (writesAt dst (decodedByte f) 0 (i0 / 2)) none (ret (.invalidByte (off + i0) (f i0))) := by
  have hlt := hx.1
  rw [scalarDecode, if_neg (by omega)]
  have := scalarLoop_leads_bad src dst off (len / 2) ret f i0 hx.2.1 (len / 2) 0 m (by omega) (by omega)
    (fun i _ h => ht i (by omega)) (fun i _ h => hx.2.2 i h)
    fun i k _ h _ g => hd i k (by omega) (by omega)
  rwa [Nat.mul_zero, Nat.sub_zero, Nat.mul_comm] at this

/-- The tail of the vector engine (spec R158): the scalar engine from character `2q` on, its bytes counted from the whole
text. -/
theorem decodedByte_tail (f : Nat → Byte) (q k : Nat) : decodedByte (fun i => f (2 * q + i)) k = decodedByte f (q + k) := by
  have e0 : 2 * q + 2 * k = 2 * (q + k) := by ring
  have e1 : 2 * q + (2 * k + 1) = 2 * (q + k) + 1 := by ring
  simp only [decodedByte, e0, e1]

/-- The vector engine on a valid text: it does what the scalar engine does (spec R160, R161). -/
theorem vectorDecode_leads_ok {h src len dst cap : Nat} (ret : EngineReturn → Algorithm) {f : Nat → Byte} {m : Memory}
    (heven : len % 2 = 0) (hcap : len / 2 ≤ cap) (ht : ∀ i < len, m.read (src + i) = f i)
    (hx : AllHex f len) (hd : ∀ i k, i < len → k < len / 2 → src + i ≠ dst + k) :
    ∃ v, (vectorDecode (2 * h) src len dst cap ret).Leads m (readsAt src 0 len)
      (writesAt dst (decodedByte f) 0 (len / 2)) v (ret (.done (len / 2))) := by
  have hle : len / (2 * h) * (2 * h) ≤ len := Nat.div_mul_le_self len (2 * h)
  have hhalf : len / (2 * h) * (2 * h) = 2 * (len / (2 * h) * h) := by ring
  obtain ⟨v, hv⟩ := vectorLoop_leads_ok h src dst ret
    (scalarDecode (src + len / (2 * h) * (2 * h)) (len - len / (2 * h) * (2 * h))
      (dst + len / (2 * h) * (2 * h) / 2) (cap - len / (2 * h) * (2 * h) / 2) (len / (2 * h) * (2 * h)) fun r =>
        match r with
        | .done _ => ret (.done (len / 2))
        | .invalidByte i b => ret (.invalidByte i b)
        | .outputTooSmall => ret .outputTooSmall) f (len / (2 * h)) 0 m
    (fun i _ hi => ⟨ht i (by simp only [Nat.zero_add] at hi; omega), hx i (by simp only [Nat.zero_add] at hi; omega)⟩)
    (fun i k _ hi _ hk => hd i k (by simp only [Nat.zero_add] at hi; omega)
      (by simp only [Nat.zero_add] at hk; omega))
  rw [Nat.zero_mul, Nat.zero_mul] at hv
  generalize hq : len / (2 * h) * h = q at *
  rw [hhalf, Nat.mul_div_cancel_left _ (by omega)] at hv
  have htail := scalarDecode_leads_ok (src := src + 2 * q) (len := len - 2 * q) (dst := dst + q) (cap := cap - q)
    (off := 2 * q) (f := fun i => f (2 * q + i)) (m := m.applyWrites (writesAt dst (decodedByte f) 0 q))
    (fun r => match r with
        | .done _ => ret (.done (len / 2))
        | .invalidByte i b => ret (.invalidByte i b)
        | .outputTooSmall => ret .outputTooSmall) (by omega) (by omega)
    (fun i hi => by
      rw [Memory.read_writesAt, if_neg, Nat.add_assoc]
      · exact ht _ (by omega)
      · rintro ⟨h1, h2⟩
        exact hd (2 * q + i) (src + 2 * q + i - dst) (by omega) (by omega) (by omega))
    (fun i hi => hx _ (by omega)) (fun i k hi hk => by have := hd (2 * q + i) (q + k) (by omega) (by omega); omega)
  rw [readsAt_shift, writesAt_shift dst (f := decodedByte f) q _ _ fun k _ _ => decodedByte_tail f q k, Nat.add_zero,
    Nat.add_zero] at htail
  have := hv.trans htail
  have hr := readsAt_add src 0 (2 * q) (len - 2 * q)
  have hw := writesAt_add dst (decodedByte f) 0 q ((len - 2 * q) / 2)
  rw [Nat.zero_add] at hr hw
  rw [hr, hw, Nat.add_sub_cancel' (by omega), show q + (len - 2 * q) / 2 = len / 2 by omega] at this
  rw [vectorDecode, hhalf, Nat.mul_div_cancel_left _ (by omega)]
  exact ⟨_, this⟩

/-- The vector engine on a text with an invalid character (spec R126, R160, R161). -/
theorem vectorDecode_leads_bad {h src len dst cap i0 : Nat} (ret : EngineReturn → Algorithm) {f : Nat → Byte}
    {m : Memory} (hpos : 0 < h) (heven : len % 2 = 0) (hcap : len / 2 ≤ cap)
    (ht : ∀ i < len, m.read (src + i) = f i) (hx : FirstInvalid f len i0)
    (hd : ∀ i k, i < len → k < len / 2 → src + i ≠ dst + k) :
    ∃ v, (vectorDecode (2 * h) src len dst cap ret).Leads m (readsAt src 0 (decReads (2 * h) len i0))
      (writesAt dst (decodedByte f) 0 (decPrefix (2 * h) len i0)) v (ret (.invalidByte i0 (f i0))) := by
  have hlt := hx.1
  have hle : len / (2 * h) * (2 * h) ≤ len := Nat.div_mul_le_self len (2 * h)
  have hhalf : len / (2 * h) * (2 * h) = 2 * (len / (2 * h) * h) := by ring
  by_cases hin : i0 < len / (2 * h) * (2 * h)
  · obtain ⟨v, hv⟩ := vectorLoop_leads_bad h src dst ret
      (scalarDecode (src + len / (2 * h) * (2 * h)) (len - len / (2 * h) * (2 * h))
        (dst + len / (2 * h) * (2 * h) / 2) (cap - len / (2 * h) * (2 * h) / 2) (len / (2 * h) * (2 * h)) fun r =>
          match r with
          | .done _ => ret (.done (len / 2))
          | .invalidByte i b => ret (.invalidByte i b)
          | .outputTooSmall => ret .outputTooSmall) f i0 hx.2.1 (len / (2 * h)) 0 m (by omega)
      (by rw [Nat.zero_add]; exact hin) (fun i _ hi => ht i (by simp only [Nat.zero_add] at hi; omega))
      (fun i _ hi => hx.2.2 i hi)
      (fun i k _ hi _ hk => hd i k (by simp only [Nat.zero_add] at hi; omega)
        (by simp only [Nat.zero_add] at hk; omega))
    rw [Nat.zero_mul, Nat.zero_mul, Nat.sub_zero] at hv
    rw [vectorDecode, decReads, decPrefix, if_pos ⟨by omega, hin⟩, if_pos ⟨by omega, hin⟩,
      Nat.mul_div_cancel_left h (by omega : 0 < 2)]
    exact ⟨v, hv⟩
  · obtain ⟨v, hv⟩ := vectorLoop_leads_ok h src dst ret
      (scalarDecode (src + len / (2 * h) * (2 * h)) (len - len / (2 * h) * (2 * h))
        (dst + len / (2 * h) * (2 * h) / 2) (cap - len / (2 * h) * (2 * h) / 2) (len / (2 * h) * (2 * h)) fun r =>
          match r with
          | .done _ => ret (.done (len / 2))
          | .invalidByte i b => ret (.invalidByte i b)
          | .outputTooSmall => ret .outputTooSmall) f (len / (2 * h)) 0 m
      (fun i _ hi => ⟨ht i (by simp only [Nat.zero_add] at hi; omega),
        hx.2.2 i (by simp only [Nat.zero_add] at hi; omega)⟩)
      (fun i k _ hi _ hk => hd i k (by simp only [Nat.zero_add] at hi; omega)
        (by simp only [Nat.zero_add] at hk; omega))
    rw [decReads, decPrefix, if_neg fun hc => hin hc.2, if_neg fun hc => hin hc.2]
    rw [Nat.zero_mul, Nat.zero_mul] at hv
    generalize hq : len / (2 * h) * h = q at *
    rw [hhalf, Nat.mul_div_cancel_left _ (by omega)] at hv
    rw [hhalf] at hin
    have hq0 := Nat.add_sub_cancel' (Nat.le_of_not_lt hin)
    have htail := scalarDecode_leads_bad (src := src + 2 * q) (len := len - 2 * q) (dst := dst + q) (cap := cap - q)
      (off := 2 * q) (f := fun i => f (2 * q + i)) (i0 := i0 - 2 * q)
      (m := m.applyWrites (writesAt dst (decodedByte f) 0 q))
      (fun r => match r with
          | .done _ => ret (.done (len / 2))
          | .invalidByte i b => ret (.invalidByte i b)
          | .outputTooSmall => ret .outputTooSmall) (by omega) (by omega)
      (fun i hi => by
        rw [Memory.read_writesAt, if_neg, Nat.add_assoc]
        · exact ht _ (by omega)
        · rintro ⟨h1, h2⟩
          exact hd (2 * q + i) (src + 2 * q + i - dst) (by omega) (by omega) (by omega))
      ⟨by omega, by simpa only [hq0] using hx.2.1, fun j hj => hx.2.2 _ (by omega)⟩
      (fun i k hi hk => by have := hd (2 * q + i) (q + k) (by omega) (by omega); omega)
    rw [readsAt_shift, writesAt_shift dst (f := decodedByte f) q _ _ fun k _ _ => decodedByte_tail f q k] at htail
    simp only [Nat.add_zero, hq0] at htail
    have := hv.trans htail
    have hr := readsAt_add src 0 (2 * q) (((i0 - 2 * q) / 2 + 1) * 2)
    have hw := writesAt_add dst (decodedByte f) 0 q ((i0 - 2 * q) / 2)
    rw [Nat.zero_add] at hr hw
    rw [hr, hw, show 2 * q + ((i0 - 2 * q) / 2 + 1) * 2 = (i0 / 2 + 1) * 2 by omega,
      show q + (i0 - 2 * q) / 2 = i0 / 2 by omega] at this
    rw [vectorDecode, hhalf, Nat.mul_div_cancel_left _ (by omega)]
    exact ⟨_, this⟩

/-- The decode engine of HEX.DEC on a valid text, whatever the backend (spec R124, R160). -/
theorem decodeEngine_leads_ok {c : Config} {src len dst cap : Nat} (ret : EngineReturn → Algorithm) {f : Nat → Byte}
    {m : Memory} (heven : len % 2 = 0) (hcap : len / 2 ≤ cap) (ht : ∀ i < len, m.read (src + i) = f i)
    (hx : AllHex f len) (hd : ∀ i k, i < len → k < len / 2 → src + i ≠ dst + k) :
    ∃ v, (decodeEngine c src len dst cap ret).Leads m (readsFrom src len) (writesFrom dst (len / 2) (decodedByte f)) v
      (ret (.done (len / 2))) := by
  rw [← readsAt_zero, ← writesAt_zero]
  unfold decodeEngine
  split
  · exact ⟨none, scalarDecode_leads_ok ret heven hcap ht hx hd⟩
  · obtain ⟨h, hh⟩ := vecChunk_even c
    rw [hh]
    exact vectorDecode_leads_ok ret heven hcap ht hx hd

/-- The decode engine of HEX.DEC on a text with an invalid character (spec R126, R160). -/
theorem decodeEngine_leads_bad {c : Config} {src len dst cap i0 : Nat} (ret : EngineReturn → Algorithm)
    {f : Nat → Byte} {m : Memory} (heven : len % 2 = 0) (hcap : len / 2 ≤ cap)
    (ht : ∀ i < len, m.read (src + i) = f i) (hx : FirstInvalid f len i0)
    (hd : ∀ i k, i < len → k < len / 2 → src + i ≠ dst + k) :
    ∃ v, (decodeEngine c src len dst cap ret).Leads m (readsFrom src (decReads c.vecChunk len i0))
      (writesFrom dst (decPrefix c.vecChunk len i0) (decodedByte f)) v (ret (.invalidByte i0 (f i0))) := by
  rw [← readsAt_zero, ← writesAt_zero]
  unfold decodeEngine
  split
  · rename_i h0
    refine ⟨none, ?_⟩
    rw [h0, decReads, decPrefix, if_neg (by omega), if_neg (by omega)]
    have := scalarDecode_leads_bad (off := 0) ret heven hcap ht hx hd
    rwa [Nat.zero_add] at this
  · rename_i h0
    obtain ⟨h, hh⟩ := vecChunk_even c
    rw [hh] at h0 ⊢
    exact vectorDecode_leads_bad ret (by omega) heven hcap ht hx hd

/-- Regions that do not overlap share no address (spec R52). -/
theorem not_overlap {p q : Region} (h : ¬ Region.Overlap p q) {i k : Nat} (hi : i < p.len) (hk : k < q.len) :
    p.addr + i ≠ q.addr + k := by
  intro he
  exact h ⟨by omega, by omega, by omega, by omega⟩

section All

variable {R W : Nat → Prop} {V : VecRegs → Prop} {C : Completion → Prop}

theorem scalarLoop_all {src dst off n : Nat} {ret : EngineReturn → Algorithm} (hdone : (ret (.done n)).All R W V C) :
    ∀ (left p : Nat), (∀ i, 2 * p ≤ i → i < 2 * (p + left) → R (src + i)) → (∀ k, p ≤ k → k < p + left → W (dst + k)) →
    (∀ i b, 2 * p ≤ i → i < 2 * (p + left) → ¬ IsHex b → (ret (.invalidByte (off + i) b)).All R W V C) →
    (scalarLoop src dst off n ret left p).All R W V C := by
  intro left
  induction left with
  | zero => exact fun _ _ _ _ => hdone
  | succ m ih =>
    intro p hr hw hbad
    have h1 := hr (2 * p + 1) (by omega) (by omega)
    rw [← Nat.add_assoc] at h1
    refine ⟨hr _ (by omega) (by omega), fun c0 => ⟨h1, fun c1 => ?_⟩⟩
    simp only [pairFlag_pairTable]
    split
    · rename_i hf
      have hp : ¬ (IsHex c0 ∧ IsHex c1) := by simpa only [Bool.not_eq_true', decide_eq_false_iff_not] using hf
      refine hbad _ _ ?_ ?_ (locate_not_hex _ hp)
      · unfold locate; split <;> simp only <;> omega
      · unfold locate; split <;> simp only <;> omega
    · exact ⟨hw p (by omega) (by omega), ih (p + 1) (fun i a b => hr i (by omega) (by omega))
        (fun k a b => hw k (by omega) (by omega)) fun i b a e g => hbad i b (by omega) (by omega) g⟩

theorem scalarDecode_all {src len dst cap off : Nat} {ret : EngineReturn → Algorithm}
    (hcap : len / 2 ≤ cap) (hdone : (ret (.done (len / 2))).All R W V C) (hr : ∀ i < len, R (src + i))
    (hw : ∀ k < len / 2, W (dst + k))
    (hbad : ∀ i b, i < len → ¬ IsHex b → (ret (.invalidByte (off + i) b)).All R W V C) :
    (scalarDecode src len dst cap off ret).All R W V C := by
  rw [scalarDecode, if_neg (by omega)]
  exact scalarLoop_all hdone _ 0 (fun i _ h => hr i (by omega)) (fun k _ h => hw k (by omega))
    fun i b _ h g => hbad i b (by omega) g

theorem chunkLoad_all {next : List Byte → Algorithm} : ∀ (left a : Nat) (lanes : List Byte),
    (∀ k < left, R (a + k)) → (∀ l : List Byte, l.length = lanes.length + left → (next l).All R W V C) →
    (chunkLoad next left a lanes).All R W V C := by
  intro left
  induction left with
  | zero => exact fun a lanes _ h => h lanes rfl
  | succ n ih =>
    intro a lanes hr h
    refine ⟨hr 0 (by omega), fun b => ih (a + 1) _ (fun k hk => ?_) fun l hl => h l ?_⟩
    · have := hr (k + 1) (by omega)
      rwa [← Nat.add_assoc, Nat.add_right_comm] at this
    · simp only [List.length_append, List.length_singleton] at hl
      omega

theorem chunkStore_all {v : VecRegs} {dst : Nat} {next : Algorithm} (h : next.All R W V C) : ∀ (left j : Nat),
    (∀ k, j ≤ k → k < j + left → W (dst + k)) → (chunkStore v dst next left j).All R W V C := by
  intro left
  induction left with
  | zero => exact fun _ _ => h
  | succ n ih => exact fun j hw => ⟨hw j (by omega) (by omega), ih (j + 1) fun k a b => hw k (by omega) (by omega)⟩

theorem ofLanes_lanes (l : List Byte) : (VecRegs.ofLanes l).Lanes l.length := by
  simp [VecRegs.Lanes, VecRegs.ofLanes]

/-- The first invalid lane of a chunk that is not valid is a lane, and its byte is no hex digit (spec R153). -/
theorem firstInvalid_lane {l : List Byte} (h : ¬ (VecRegs.ofLanes l).valid = true) :
    (VecRegs.ofLanes l).firstInvalid < l.length ∧
      ¬ IsHex ((VecRegs.ofLanes l).lane (VecRegs.ofLanes l).firstInvalid) := by
  have hex : ∃ x ∈ (VecRegs.ofLanes l).inv, id x = true := by
    simpa [VecRegs.valid] using h
  have hlt := List.findIdx_lt_length_of_exists hex
  have hlen : (VecRegs.ofLanes l).inv.length = l.length := (ofLanes_lanes l).2.2.2.2
  have hget := List.findIdx_getElem (w := hlt)
  refine ⟨by rw [← hlen]; exact hlt, ?_⟩
  have hlt' : (VecRegs.ofLanes l).firstInvalid < l.length := by rw [← hlen]; exact hlt
  have : laneInv (l[(VecRegs.ofLanes l).firstInvalid]) = true := by
    simpa [VecRegs.ofLanes, VecRegs.firstInvalid] using hget
  rw [laneInv_iff, Bool.not_eq_true', decide_eq_false_iff_not] at this
  rw [VecRegs.lane, show (VecRegs.ofLanes l).vr = l from rfl, List.getD_eq_getElem _ _ hlt']
  exact this

theorem vectorLoop_all {h src dst : Nat} {ret : EngineReturn → Algorithm} {tail : Algorithm}
    (htail : tail.All R W V C) (hv : ∀ v : VecRegs, v.Lanes (2 * h) → V v) : ∀ (left c : Nat),
    (∀ i, c * (2 * h) ≤ i → i < (c + left) * (2 * h) → R (src + i)) →
    (∀ k, c * h ≤ k → k < (c + left) * h → W (dst + k)) →
    (∀ i b, i < (c + left) * (2 * h) → ¬ IsHex b → (ret (.invalidByte i b)).All R W V C) →
    (vectorLoop (2 * h) src dst ret tail left c).All R W V C := by
  intro left
  induction left with
  | zero => exact fun _ _ _ _ => htail
  | succ n ih =>
    intro c hr hw hbad
    have hn : (c + (n + 1)) * h = c * h + h + n * h := by ring
    have hn2 : (c + (n + 1)) * (2 * h) = c * (2 * h) + 2 * h + n * (2 * h) := by ring
    have hn3 : (c + 1 + n) * h = c * h + h + n * h := by ring
    have hn4 : (c + 1 + n) * (2 * h) = c * (2 * h) + 2 * h + n * (2 * h) := by ring
    have hn5 : (c + 1) * (2 * h) = c * (2 * h) + 2 * h := by ring
    have hn6 : (c + 1) * h = c * h + h := by ring
    refine chunkLoad_all _ _ _ (fun k hk => ?_) fun l hl => ⟨hv _ ?_, ?_⟩
    · rw [Nat.add_assoc]
      exact hr _ (by omega) (by omega)
    · have := ofLanes_lanes l
      rwa [hl, List.length_nil, Nat.zero_add] at this
    · rw [List.length_nil, Nat.zero_add] at hl
      split
      · refine chunkStore_all (ih (c + 1) (fun i a b => hr i (by omega) (by omega))
          (fun k a b => hw k (by omega) (by omega)) fun i b a g => hbad i b (by omega) g) _ _ fun k _ hk => ?_
        rw [show dst + c * (2 * h) / 2 = dst + c * h by
          rw [show c * (2 * h) = 2 * (c * h) by ring, Nat.mul_div_cancel_left _ (by omega)], Nat.add_assoc]
        rw [Nat.zero_add, Nat.mul_div_cancel_left _ (by omega)] at hk
        exact hw _ (by omega) (by omega)
      · rename_i hnv
        have := firstInvalid_lane hnv
        exact hbad _ _ (by omega) this.2

theorem vectorDecode_all {h src len dst cap : Nat} {ret : EngineReturn → Algorithm} (heven : len % 2 = 0)
    (hcap : len / 2 ≤ cap) (hv : ∀ v : VecRegs, v.Lanes (2 * h) → V v) (hdone : (ret (.done (len / 2))).All R W V C)
    (hr : ∀ i < len, R (src + i)) (hw : ∀ k < len / 2, W (dst + k))
    (hbad : ∀ i b, i < len → ¬ IsHex b → (ret (.invalidByte i b)).All R W V C) :
    (vectorDecode (2 * h) src len dst cap ret).All R W V C := by
  have hle : len / (2 * h) * (2 * h) ≤ len := Nat.div_mul_le_self len (2 * h)
  have hhalf : len / (2 * h) * (2 * h) = 2 * (len / (2 * h) * h) := by ring
  unfold vectorDecode
  refine vectorLoop_all ?_ hv _ 0 (fun i _ hi => hr i ?_) (fun k _ hk => hw k ?_) fun i b hi => hbad i b ?_
  · generalize len / (2 * h) * h = q at *
    rw [hhalf, Nat.mul_div_cancel_left _ (by omega)]
    refine scalarDecode_all (by omega) hdone (fun i hi => ?_) (fun k hk => ?_) fun i b hi hx => ?_
    · rw [Nat.add_assoc]; exact hr _ (by omega)
    · rw [Nat.add_assoc]; exact hw _ (by omega)
    · exact hbad _ _ (by omega) hx
  · simp only [Nat.zero_add] at hi; omega
  · simp only [Nat.zero_add] at hk; omega
  · simp only [Nat.zero_add] at hi; omega

theorem decodeEngine_all {c : Config} {src len dst cap : Nat} {ret : EngineReturn → Algorithm} (heven : len % 2 = 0)
    (hcap : len / 2 ≤ cap) (hv : ∀ v : VecRegs, v.Lanes c.vecChunk → V v)
    (hdone : (ret (.done (len / 2))).All R W V C)
    (hr : ∀ i < len, R (src + i)) (hw : ∀ k < len / 2, W (dst + k))
    (hbad : ∀ i b, i < len → ¬ IsHex b → (ret (.invalidByte i b)).All R W V C) :
    (decodeEngine c src len dst cap ret).All R W V C := by
  unfold decodeEngine
  split
  · exact scalarDecode_all hcap hdone hr hw fun i b => by rw [Nat.zero_add]; exact hbad i b
  · obtain ⟨h, hh⟩ := vecChunk_even c
    rw [hh] at hv ⊢
    exact vectorDecode_all heven hcap hv hdone hr hw hbad

theorem validateLoop_all {src : Nat} {bad : Nat → Byte → Algorithm} {valid : Algorithm} (hvalid : valid.All R W V C) :
    ∀ (left p : Nat), (∀ i, 2 * p ≤ i → i < 2 * (p + left) → R (src + i)) →
    (∀ i b, i < 2 * (p + left) → ¬ IsHex b → (bad i b).All R W V C) →
    (validateLoop src bad valid left p).All R W V C := by
  intro left
  induction left with
  | zero => exact fun _ _ _ => hvalid
  | succ m ih =>
    intro p hr hbad
    have h1 := hr (2 * p + 1) (by omega) (by omega)
    rw [← Nat.add_assoc] at h1
    refine ⟨hr _ (by omega) (by omega), fun c0 => ⟨h1, fun c1 => ?_⟩⟩
    simp only [pairFlag_pairTable]
    split
    · rename_i hf
      have hp : ¬ (IsHex c0 ∧ IsHex c1) := by simpa only [Bool.not_eq_true', decide_eq_false_iff_not] using hf
      refine hbad _ _ ?_ (locate_not_hex _ hp)
      unfold locate; split <;> simp only <;> omega
    · exact ih (p + 1) (fun i a b => hr i (by omega) (by omega)) fun i b a => hbad i b (by omega)

theorem inPlaceLoop_all {src : Nat} {next : Algorithm} (hnext : next.All R W V C) : ∀ (left p : Nat),
    (∀ i, 2 * p ≤ i → i < 2 * (p + left) → R (src + i)) → (∀ k, p ≤ k → k < p + left → W (src + k)) →
    (inPlaceLoop src next left p).All R W V C := by
  intro left
  induction left with
  | zero => exact fun _ _ _ => hnext
  | succ m ih =>
    intro p hr hw
    have h1 := hr (2 * p + 1) (by omega) (by omega)
    rw [← Nat.add_assoc] at h1
    exact ⟨hr _ (by omega) (by omega), fun c0 => ⟨h1, fun c1 => ⟨hw p (by omega) (by omega),
      ih (p + 1) (fun i a b => hr i (by omega) (by omega)) fun k a b => hw k (by omega) (by omega)⟩⟩⟩

theorem encodeLoop_all {alphabet : List Byte} {src dst : Nat} {next : Algorithm} (hnext : next.All R W V C) :
    ∀ (left k : Nat), (∀ i, k ≤ i → i < k + left → R (src + i)) →
    (∀ j, 2 * k ≤ j → j < 2 * (k + left) → W (dst + j)) →
    (encodeLoop alphabet src dst next left k).All R W V C := by
  intro left
  induction left with
  | zero => exact fun _ _ _ => hnext
  | succ m ih =>
    intro k hr hw
    have h1 := hw (2 * k + 1) (by omega) (by omega)
    rw [← Nat.add_assoc] at h1
    exact ⟨hr k (by omega) (by omega), fun x => ⟨hw _ (by omega) (by omega), h1,
      ih (k + 1) (fun i a b => hr i (by omega) (by omega)) fun j a b => hw j (by omega) (by omega)⟩⟩

end All

/-- What HEX.ENC may do, with either alphabet (spec R57, R182). -/
theorem encAlgorithm_all (alphabet : List Byte) (c : Config) (o : Operands) :
    (encAlgorithm alphabet c o).All (fun a => mayRead .encU o a ∧ a < c.memSize)
      (fun a => mayWrite .encU o a ∧ a < c.memSize) (fun v => v.Lanes c.vecChunk)
      (fun k => mayEnd .encU k.kind = true ∧ k.errIndex ≤ o.srcLen ∧
        (k.kind = .invalidByte → k.errIndex < o.srcLen) ∧
        k.result ≤ max (max o.srcLen o.dstLen) (max o.argN (2 ^ c.sizeBits - 1)) ∧
        (k.kind = .invalidByte → ¬ IsHex k.errByte)) := by
  unfold encAlgorithm
  refine Algorithm.All.checkRegions (by simp [mayEnd, Completion.kind, Completion.errIndex, Completion.result])
    (by simp [mayEnd, Completion.kind, Completion.errIndex, Completion.result]) fun hs hd _ => ?_
  simp only [Region.InRange, Operands.src, Operands.dst] at hs hd
  split
  · simp [Algorithm.All, mayEnd, Completion.kind, Completion.errIndex, Completion.result]
  · refine encodeLoop_all ?_ _ 0 (fun i _ hi => ?_) fun j _ hj => ?_
    · simp only [Algorithm.All, mayEnd, Completion.kind, Completion.errIndex, Completion.result]
      refine ⟨by simp, by omega, by simp, by omega, by simp⟩
    · simp only [mayRead]; omega
    · simp only [mayWrite]; omega

/-- What a command may do on an instance and operands, whatever its reads return (spec R57, R201, R204, R205): its
reads and writes stay in its regions and in data memory, the vector registers keep VEC_CHUNK lanes, its outcome is of a
KIND it raises, an `Ok` value fits in what bounds its lengths, and an offending byte is no hex digit. -/
theorem algorithmOf_all (i : Instr) (c : Config) (o : Operands) :
    (algorithmOf i c o).All (fun a => mayRead i o a ∧ a < c.memSize) (fun a => mayWrite i o a ∧ a < c.memSize)
      (fun v => v.Lanes c.vecChunk)
      (fun k => mayEnd i k.kind = true ∧ k.errIndex ≤ o.srcLen ∧ (k.kind = .invalidByte → k.errIndex < o.srcLen) ∧
        k.result ≤ max (max o.srcLen o.dstLen) (max o.argN (2 ^ c.sizeBits - 1)) ∧
        (k.kind = .invalidByte → ¬ IsHex k.errByte)) := by
  cases i with
  | dlen =>
    show (dlenAlgorithm o).All _ _ _ _
    unfold dlenAlgorithm
    split
    · simp [Algorithm.All, mayEnd, Completion.kind, Completion.errIndex, Completion.result]
    · simp only [Algorithm.All, mayEnd, Completion.kind, Completion.errIndex, Completion.result]
      refine ⟨by simp, by omega, by simp, by omega, by simp⟩
  | elen =>
    show (elenAlgorithm c o).All _ _ _ _
    unfold elenAlgorithm
    split
    · simp [Algorithm.All, mayEnd, Completion.kind, Completion.errIndex, Completion.result]
    · simp only [Algorithm.All, mayEnd, Completion.kind, Completion.errIndex, Completion.result]
      refine ⟨by simp, by omega, by simp, by omega, by simp⟩
  | dec =>
    show (decAlgorithm c o).All _ _ _ _
    unfold decAlgorithm
    refine Algorithm.All.checkRegions (by simp [mayEnd, Completion.kind, Completion.errIndex, Completion.result])
      (by simp [mayEnd, Completion.kind, Completion.errIndex, Completion.result]) fun hs hd _ => ?_
    simp only [Region.InRange, Operands.src, Operands.dst] at hs hd
    split
    · simp [Algorithm.All, mayEnd, Completion.kind, Completion.errIndex, Completion.result]
    · split
      · simp [Algorithm.All, mayEnd, Completion.kind, Completion.errIndex, Completion.result]
      · refine decodeEngine_all (by omega) (by omega) (fun _ h => h) ?_ (fun i hi => ?_) (fun k hk => ?_)
          fun i b hi hx => ?_
        · simp only [Algorithm.All, EngineReturn.completion, mayEnd, Completion.kind, Completion.errIndex,
            Completion.result]
          refine ⟨by simp, by omega, by simp, by omega, by simp⟩
        · simp only [mayRead]; omega
        · simp only [mayWrite]; omega
        · simp only [Algorithm.All, EngineReturn.completion, mayEnd, Completion.kind, Completion.errIndex,
            Completion.result, Completion.errByte]
          exact ⟨by simp, by omega, fun _ => hi, by omega, fun _ => hx⟩
  | deca =>
    show (decaAlgorithm c o).All _ _ _ _
    unfold decaAlgorithm
    refine Algorithm.All.checkRegions (by simp [mayEnd, Completion.kind, Completion.errIndex, Completion.result])
      (by simp [mayEnd, Completion.kind, Completion.errIndex, Completion.result]) fun hs hd _ => ?_
    simp only [Region.InRange, Operands.src, Operands.array] at hs hd
    split
    · simp [Algorithm.All, mayEnd, Completion.kind, Completion.errIndex, Completion.result]
    · split
      · simp [Algorithm.All, mayEnd, Completion.kind, Completion.errIndex, Completion.result]
      · refine scalarDecode_all (by omega) ?_ (fun i hi => ?_) (fun k hk => ?_) fun i b hi hx => ?_
        · simp only [Algorithm.All, EngineReturn.completion, mayEnd, Completion.kind, Completion.errIndex,
            Completion.result]
          refine ⟨by simp, by omega, by simp, by omega, by simp⟩
        · simp only [mayRead]; omega
        · simp only [mayWrite]; omega
        · simp only [Algorithm.All, EngineReturn.completion, mayEnd, Completion.kind, Completion.errIndex,
            Completion.result, Completion.errByte, Nat.zero_add]
          exact ⟨by simp, by omega, fun _ => hi, by omega, fun _ => hx⟩
  | decip =>
    show (decipAlgorithm c o).All _ _ _ _
    unfold decipAlgorithm
    split
    · simp [Algorithm.All, mayEnd, Completion.kind, Completion.errIndex, Completion.result]
    · rename_i hs
      have hs := not_not.mp hs
      simp only [Region.InRange, Operands.src] at hs
      split
      · simp [Algorithm.All, mayEnd, Completion.kind, Completion.errIndex, Completion.result]
      · refine validateLoop_all (inPlaceLoop_all ?_ _ 0 (fun i _ hi => ?_) fun k _ hk => ?_) _ 0 (fun i _ hi => ?_)
          fun i b hi hx => ?_
        · simp only [Algorithm.All, mayEnd, Completion.kind, Completion.errIndex, Completion.result]
          refine ⟨by simp, by omega, by simp, by omega, by simp⟩
        · simp only [mayRead]; omega
        · simp only [mayWrite]; omega
        · simp only [mayRead]; omega
        · simp only [Algorithm.All, mayEnd, Completion.kind, Completion.errIndex, Completion.result,
            Completion.errByte]
          exact ⟨by simp, by omega, fun _ => by omega, by omega, fun _ => hx⟩
  | encU => exact encAlgorithm_all alphaUpper c o
  | encL => exact encAlgorithm_all alphaLower c o

/-- `exec` runs the command's algorithm whole (spec R62, R200). -/
theorem exec_eq (i : Instr) (s : State) : exec i s = .next ((algorithmOf i s.cfg s.operands).run s) := by
  cases i <;> rfl

end Sys2Proof.Machine
end

