-- ==== Sys2Proof/Laws/HostPort.lean ====
section
/-! SUPPORT. What the host's accesses and the engine's moves can do, said once: byte order, the slots of the register
block, what a register access comes to, and what no move of the engine changes. -/

namespace Sys2Proof.Machine

/-- Bytes stored least significant first read back as the value they hold (spec R54). -/
theorem leValue_leBytes : ∀ n v, leValue (leBytes n v) = v % 256 ^ n := by
  intro n
  induction n with
  | zero => intro v; simp [leBytes, leValue, Nat.mod_one]
  | succ n ih =>
    intro v
    simp only [leBytes, leValue, ih, BitVec.toNat_ofNat]
    rw [show 256 ^ (n + 1) = 256 * 256 ^ n from Nat.pow_succ', Nat.mod_mul]

@[simp] theorem leBytes_length : ∀ n v, (leBytes n v).length = n := by
  intro n
  induction n with
  | zero => intro v; rfl
  | succ n ih => intro v; simp [leBytes, ih]

/-- The low 32 bits of what a host stores in CMD are the command word (spec R23, R54, R70). -/
theorem decodeBytes_leBytes (v : Nat) : decodeBytes (leBytes 8 v) = decode (BitVec.ofNat 32 v) := by
  show decode (BitVec.ofNat 32 (leValue (leBytes 4 v))) = _
  rw [leValue_leBytes]
  congr 1
  apply BitVec.eq_of_toNat_eq
  simp only [BitVec.toNat_ofNat]
  norm_num

/-- RSV is zero exactly when the word is below 32 (spec R71). -/
theorem rsv_iff (w : CmdWord) : w.rsv = 0 ↔ w.toNat < 32 := by
  unfold CmdWord.rsv
  rw [← BitVec.toNat_inj, BitVec.extractLsb'_toNat, Nat.shiftRight_eq_div_pow]
  have := w.isLt
  simp only [BitVec.ofNat_eq_ofNat, BitVec.toNat_ofNat]
  omega

/-- A word with RSV zero is one of 32 (spec R71). -/
theorem exists_five_bits (w : CmdWord) (h : w.toNat < 32) : ∃ k : BitVec 5, w = k.setWidth 32 := by
  refine ⟨w.setWidth 5, ?_⟩
  apply BitVec.eq_of_toNat_eq
  simp only [BitVec.toNat_setWidth]
  omega

/-- The offset of a register's slot, seen from the host's address (spec R21, R82). -/
@[simp] theorem slotOffset_reg (c : Config) (r : Reg) :
    slotOffset c (c.regBase + regOffset r) 8 = some (regOffset r) := by
  unfold slotOffset
  rw [Nat.add_sub_cancel_left, if_pos]
  cases r <;> simp [regOffset]

@[simp] theorem regAt_offset (r : Reg) : regAt (regOffset r) = some r := by cases r <;> decide

/-- What one WR comes to (spec R54, R83). -/
theorem step_wr {s : State} {r : Reg} {v : Nat} {rest : List Input}
    (hi : s.inputs = .host (HostOp.wr s.cfg r v) :: rest) :
    step s = .next (State.writeSlot { s with inputs := rest } (regOffset r) (BitVec.ofNat 64 v)) := by
  unfold step
  rw [hi]
  have hv : BitVec.ofNat 64 (leValue (leBytes 8 v)) = BitVec.ofNat 64 v := by
    rw [leValue_leBytes]
    apply BitVec.eq_of_toNat_eq
    simp
  simp only [takeInput, HostOp.wr, hostRegStore, leBytes_length, slotOffset_reg, hv]

/-- What one WR to a ready engine comes to (spec R35). -/
theorem step_wr_ready {s : State} {r : Reg} {v : Nat} {rest : List Input} (hb : s.busy = false)
    (hi : s.inputs = .host (HostOp.wr s.cfg r v) :: rest) :
    step s = .next (State.writeReg { s with inputs := rest } r (BitVec.ofNat 64 v)) := by
  rw [step_wr hi, State.writeSlot, if_neg, regAt_offset]
  rw [show State.busy { s with inputs := rest } = false from hb]
  simp

/-- What one RD comes to, busy or not (spec R35, R54, R83). -/
theorem step_rd {s : State} {r : Reg} {rest : List Input} (hi : s.inputs = .host (HostOp.rd s.cfg r) :: rest) :
    step s = .next
      { s with
        inputs := rest
        hostReads := .reg (s.cfg.regBase + regOffset r) (leBytes 8 (s.readReg r).toNat) :: s.hostReads } := by
  unfold step
  rw [hi]
  simp only [takeInput, HostOp.rd, hostRegLoad, slotOffset_reg, State.readSlot, regAt_offset]
  have : State.readReg { s with inputs := rest } r = s.readReg r := by cases r <;> rfl
  rw [this]

/-- The bits a value register keeps (spec R22). -/
theorem narrow_toNat (c : Config) (v : Word) : (narrow c v).toNat = v.toNat % 2 ^ c.sizeBits := by
  unfold narrow
  rw [BitVec.toNat_ofNat]
  exact Nat.mod_eq_of_lt (lt_of_le_of_lt (Nat.mod_le _ _) v.isLt)

theorem narrow_ofNat (c : Config) (v : Nat) : (narrow c (BitVec.ofNat 64 v)).toNat = v % 2 ^ c.sizeBits := by
  rw [narrow_toNat, BitVec.toNat_ofNat]
  apply Nat.mod_mod_of_dvd
  apply pow_dvd_pow
  unfold Config.sizeBits SizeBits.bits
  cases c.size <;> simp

/-- The bytes an MR returns (spec R83). -/
theorem Memory.readBytes_spec (m : Memory) : ∀ n a, (m.readBytes a n).length = n ∧
    ∀ k < n, (m.readBytes a n).getD k 0 = m.read (a + k) := by
  intro n
  induction n with
  | zero => intro a; simp [Memory.readBytes]
  | succ n ih =>
    intro a
    refine ⟨by simp [Memory.readBytes, (ih (a + 1)).1], fun k hk => ?_⟩
    cases k with
    | zero => rfl
    | succ k =>
      simp only [Memory.readBytes, List.getD_cons_succ]
      rw [(ih (a + 1)).2 k (by omega)]
      congr 1
      omega

/-- What one engine step of any algorithm leaves as it was. -/
theorem Algorithm.tick_frame : ∀ (p : Algorithm) (s : State), (p.tick s).cmd = s.cmd ∧
    (p.tick s).operands = s.operands ∧ (p.tick s).cfg = s.cfg ∧ (p.tick s).inputs = s.inputs ∧
    (p.tick s).hostReads = s.hostReads := by
  intro p
  induction p with
  | read a n ih => intro s; simp [Algorithm.tick, State.operands]
  | write a v n ih => intro s; simp [Algorithm.tick, State.operands]
  | vector v n ih => intro s; exact ih (s.setVec v)
  | complete c => intro s; simp [Algorithm.tick, State.operands]

/-- What the run of any algorithm can change: data memory, the vector registers, and what a completion records. -/
theorem Algorithm.run_frame (p : Algorithm) : ∀ s : State, ∃ (m : Memory) (v : VecRegs) (c : Completion),
    p.run s = State.complete { s with mem := m, vec := v } c := by
  induction p with
  | read a n ih => exact fun s => ih _ s
  | write a v n ih => exact fun s => ih (s.writeByte a v)
  | vector v n ih => exact fun s => ih (s.setVec v)
  | complete c => exact fun s => ⟨s.mem, s.vec, c, rfl⟩

/-- A run does not read the phase it starts in. -/
theorem Algorithm.run_phase (p : Algorithm) : ∀ (s : State) (x : Phase), p.run { s with phase := x } = p.run s := by
  induction p with
  | read a n ih => exact fun s x => ih _ s x
  | write a v n ih => exact fun s x => ih (s.writeByte a v) x
  | vector v n ih => exact fun s x => ih (s.setVec v) x
  | complete c => exact fun s x => rfl

/-- What no move of the engine changes. -/
theorem engineTick_frame (s : State) : (engineTick s).cmd = s.cmd ∧ (engineTick s).operands = s.operands ∧
    (engineTick s).cfg = s.cfg ∧ (engineTick s).inputs = s.inputs ∧ (engineTick s).hostReads = s.hostReads := by
  unfold engineTick
  split
  · unfold initStep
    split <;> simp [State.operands]
  · simp
  · exact Algorithm.tick_frame _ _

theorem engineRun_frame (s : State) : ∃ t, engineRun s = .next t ∧ t.cmd = s.cmd ∧ t.operands = s.operands ∧
    t.cfg = s.cfg := by
  unfold engineRun
  split
  · exact ⟨_, rfl, by unfold initStep; split <;> simp [State.operands]⟩
  · exact ⟨_, rfl, by simp⟩
  · split
    · rw [exec_eq]
      obtain ⟨m, v, c, h⟩ := (algorithmOf ‹_› s.cfg s.operands).run_frame s
      exact ⟨_, rfl, by rw [h]; simp [State.operands]⟩
    · exact ⟨_, rfl, by simp [State.operands]⟩
  · rename_i w x r hp
    obtain ⟨m, v, c, h⟩ := ((wordAlgorithm w s.cfg s.operands).resume (x :: r)).run_frame s
    exact ⟨_, rfl, by rw [h]; simp [State.operands]⟩

/-- The algorithm of a word that decodes (spec R76). -/
theorem wordAlgorithm_command {w : CmdWord} {i : Instr} (h : decode w = .command i) (c : Config) (o : Operands) :
    wordAlgorithm w c o = algorithmOf i c o := by
  unfold wordAlgorithm
  rw [h]

/-- A command reads no operand register but its own (spec R78). -/
theorem algorithmOf_congr (i : Instr) (c : Config) (o p : Operands) (h : sameOperands i o p) :
    algorithmOf i c o = algorithmOf i c p := by
  obtain ⟨a1, a2, a3, a4, a5⟩ := o
  obtain ⟨b1, b2, b3, b4, b5⟩ := p
  cases i <;> simp only [sameOperands] at h
  · subst h; rfl
  · obtain ⟨rfl, rfl, rfl, rfl⟩ := h; rfl
  · obtain ⟨rfl, rfl, rfl, rfl⟩ := h; rfl
  · obtain ⟨rfl, rfl⟩ := h; rfl
  · subst h; rfl
  · obtain ⟨rfl, rfl, rfl, rfl⟩ := h; rfl
  · obtain ⟨rfl, rfl, rfl, rfl⟩ := h; rfl

end Sys2Proof.Machine
end

