-- ==== Sys2Proof/Laws/PerInstr.lean ====
section
/-! SUPPORT. What holds of each command as syntax, command by command. -/

namespace Sys2Proof.Laws.Encoding

/-- The command word of a well-formed command is legal (spec R74), has RSV = 0 (spec R71), and the decoder reads the
command from it, as a word and as an opcode-table word (spec R76). -/
def Statement (i : Instr) : Prop :=
  i.WellFormed →
    (encode i).Legal ∧ (encode i).rsv = 0 ∧ (encode i).op = i.fields.1 ∧ (encode i).lc = i.fields.2 ∧
    decode (encode i) = .command i ∧ decodeTableWord 32 (encode i).toNat = some i

theorem dlen : Statement .dlen := fun _ => by decide
theorem dec : Statement .dec := fun _ => by decide
theorem deca : Statement .deca := fun _ => by decide
theorem decip : Statement .decip := fun _ => by decide
theorem elen : Statement .elen := fun _ => by decide
theorem encU : Statement .encU := fun _ => by decide
theorem encL : Statement .encL := fun _ => by decide

end Sys2Proof.Laws.Encoding
end

