-- ==== Sys2Proof/Tests/Slice0.lean ====
section
/-! SUPPORT. Tests: expected values are those of spec/95_test_vectors.md, each named where it stands; and, for every
statement with hypotheses, a state that meets them. -/

namespace Sys2Proof.Tests
open Sys2Proof Sys2Proof.Machine

/-- The bytes of an ASCII text (spec R15). -/
def ascii (t : String) : List Byte := t.toList.map fun x => BitVec.ofNat 8 x.toNat

/-- Data memory that holds bytes from an address on, and more. -/
def put (a : Nat) (bytes : List Byte) (m : Memory := []) : Memory := Memory.writeBytes m a bytes

/-- The configuration of 95_test_vectors.md with a backend. -/
def cfg (b : Backend) : Config := { size := .b32, memSize := 0x1000, backend := b, regBase := 0, initSteps := 0 }

/-- A configuration with SIZE_BITS = 64 and a register block that is not at 0. -/
def cfg64 (b : Backend) : Config := { size := .b64, memSize := 0x1000, backend := b, regBase := 0x80, initSteps := 2 }

/-- A ready engine with operands and a data memory. -/
def ready (c : Config) (m : Memory) (src len dst cap n : Word) : State :=
  { State.resetOf c m with phase := .idle, srcAddr := src, srcLen := len, dstAddr := dst, dstLen := cap, argN := n }

/-- The same engine right after the host wrote a command's word to CMD. -/
def started (i : Instr) (s : State) : State := s.withFetchWord 32 (encode i).toNat

/-- The state of a next outcome. -/
def stateOf (d : State) : Host.Outcome State Fault Refusal → State
  | .next t => t
  | .fault _ => d
  | .refused _ => d

/-- One step of a started command, and what it leaves: KIND, RESULT, ERR_INDEX and ERR_BYTE. -/
def outcome (i : Instr) (s : State) : Kind × Nat × Nat × Nat :=
  let t := stateOf s (step (started i s))
  (t.kind, t.result.toNat, t.errIndex.toNat, t.errByte.toNat)

/-- One step of a started command, and `n` bytes of the memory it leaves. -/
def bytesAfter (i : Instr) (s : State) (a n : Nat) : List Byte := (stateOf s (step (started i s))).mem.readBytes a n

/-! ### Well-formedness: an ill-formed term for each check -/

theorem test_legal_words : CmdWord.Legal 0x00000001 ∧ CmdWord.Legal 0x00000006 ∧ CmdWord.Legal 0x00000016 := by decide
theorem test_illegal_op_zero : ¬ CmdWord.Legal 0x00000000 := by decide
theorem test_illegal_op_seven : ¬ CmdWord.Legal 0x00000007 := by decide
theorem test_illegal_lc : ¬ CmdWord.Legal 0x00000015 := by decide
theorem test_illegal_rsv : ¬ CmdWord.Legal 0x00000026 := by decide
theorem test_instr_well_formed : (Instr.encL).WellFormed := by decide
theorem test_cfg_legal : (cfg .sse).Legal ∧ (cfg64 .avx).Legal := by decide
theorem test_cfg_mem_size_largest : Config.Legal { cfg .none with memSize := 2 ^ 32 } := by decide
theorem test_cfg_no_memory : ¬ Config.Legal { cfg .sse with memSize := 0 } := by decide
theorem test_cfg_too_much_memory : ¬ Config.Legal { cfg .sse with memSize := 2 ^ 32 + 1 } := by decide
theorem test_cfg_misaligned_block : ¬ Config.Legal { cfg .sse with regBase := 4 } := by decide

/-! ### Decoding: words written out field by field, RSV above LC above OP (spec R71, R72) -/

theorem test_word_dlen : decode ((0#27 ++ 0#1 ++ 0x1#4 : CmdWord)) = .command .dlen := by decide
theorem test_word_dec : decode ((0#27 ++ 0#1 ++ 0x2#4 : CmdWord)) = .command .dec := by decide
theorem test_word_deca : decode ((0#27 ++ 0#1 ++ 0x3#4 : CmdWord)) = .command .deca := by decide
theorem test_word_decip : decode ((0#27 ++ 0#1 ++ 0x4#4 : CmdWord)) = .command .decip := by decide
theorem test_word_elen : decode ((0#27 ++ 0#1 ++ 0x5#4 : CmdWord)) = .command .elen := by decide
theorem test_word_encU : decode ((0#27 ++ 0#1 ++ 0x6#4 : CmdWord)) = .command .encU := by decide
theorem test_word_encL : decode ((0#27 ++ 1#1 ++ 0x6#4 : CmdWord)) = .command .encL := by decide

/-- The bytes of `WR CMD, 0x00000016` (95, Part 3). -/
theorem test_bytes_encL : encodeBytes .encL = [0x16, 0, 0, 0, 0, 0, 0, 0] := by decide

/-- Bits 63:32 are ignored (95, V-FLT: 0xFFFFFFFF00000002 starts HEX.DEC). -/
theorem test_bytes_high_bits : decodeBytes (leBytes 8 0xFFFFFFFF00000002) = .command .dec := by decide

theorem test_bytes_too_short : decodeBytes [0x02, 0, 0] = .illegal .tooShort := by decide

/-! ### Commands: vectors of 95_test_vectors.md -/

/-- V-LEN. -/
theorem test_dlen_largest_even : outcome .dlen (ready (cfg .none) [] 0 0xFFFFFFFE 0 0 0) = (.ok, 0x7FFFFFFF, 0, 0) := by
  decide
theorem test_dlen_odd64 :
    outcome .dlen (ready (cfg64 .avx) [] 0 0xFFFFFFFFFFFFFFFF 0 0 0) = (.oddLength, 0, 0, 0) := by decide
theorem test_elen_largest : outcome .elen (ready (cfg .none) [] 0 0x7FFFFFFF 0 0 0) = (.ok, 0xFFFFFFFE, 0, 0) := by decide
theorem test_elen_overflow : outcome .elen (ready (cfg .none) [] 0 0x80000000 0 0 0) = (.faultOverflow, 0, 0, 0) := by
  decide

/-- S3: the bytes before the failing pair stay written, the rest keeps the fill. -/
theorem test_dec_s3 : outcome .dec (ready (cfg .sse) (put 0x100 (ascii "aabbXX")) 0x100 6 0x800 3 0) =
    (.invalidByte, 0, 4, 0x58) ∧
    bytesAfter .dec (ready (cfg .sse) (put 0x800 [0xEE, 0xEE, 0xEE] (put 0x100 (ascii "aabbXX"))) 0x100 6 0x800 3 0)
      0x800 3 = [0xAA, 0xBB, 0xEE] := by decide

/-- The 16 characters of chunk 0 of T64, then "10X1" (V-VEC, i = 18 there): with W = 16 exactly chunk 0 is written, and
the tail's index counts from the whole text (spec R158). -/
def chunkThenTail : State :=
  ready (cfg .neon) (put 0x100 (ascii "000102030405060710X1")) 0x100 20 0x800 10 0

/-- The first 40 characters of T64 with an 'X' at index 17: inside chunk 1 for W = 16, inside chunk 0 for W = 32
(V-VEC, the row i = 17: 8, 8 and 0 bytes are written). -/
def longBad (b : Backend) : State :=
  ready (cfg b) (put 0x100 (ascii "00010203040506070X090a0b0c0d0e0f10111213")) 0x100 40 0x800 20 20

theorem test_dec_chunks : outcome .dec chunkThenTail = (.invalidByte, 0, 18, 0x58) ∧
    bytesAfter .dec chunkThenTail 0x800 10 = [0, 1, 2, 3, 4, 5, 6, 7, 0x10, 0] ∧
    outcome .dec (longBad .sse) = (.invalidByte, 0, 17, 0x58) ∧
    outcome .dec (longBad .avx) = (.invalidByte, 0, 17, 0x58) ∧
    bytesAfter .dec (longBad .none) 0x800 9 = [0, 1, 2, 3, 4, 5, 6, 7, 0] ∧
    bytesAfter .dec (longBad .sse) 0x800 9 = [0, 1, 2, 3, 4, 5, 6, 7, 0] ∧
    (stateOf (longBad .avx) (step (started .dec (longBad .avx)))).mem = (longBad .avx).mem := by decide

/-- DECA-7: the scalar prefix. -/
theorem test_deca_7 : bytesAfter .deca
      (ready (cfg .avx) (put 0x600 [0xEE, 0xEE, 0xEE, 0xEE] (put 0x500 (ascii "deadbeeX"))) 0x500 8 0x600 0 4) 0x600 4 =
    [0xDE, 0xAD, 0xBE, 0xEE] := by decide
/-- DECA-4. -/
theorem test_deca_4 : outcome .deca (ready (cfg .sse) (put 0x500 (ascii "deadbeef")) 0x500 8 0x600 0 5) =
    (.outputTooSmall, 0, 0, 0) := by decide

/-- DIP-1: the second half keeps its characters. -/
theorem test_decip_1 : bytesAfter .decip (ready (cfg .sse) (put 0x400 (ascii "deadbeef")) 0x400 8 0 0 0) 0x400 8 =
    [0xDE, 0xAD, 0xBE, 0xEF, 0x62, 0x65, 0x65, 0x66] := by decide
/-- DIP-3: the last position is caught before any write. -/
theorem test_decip_3 :
    outcome .decip (ready (cfg .sse) (put 0x400 (ascii "deadbeeX")) 0x400 8 0 0 0) = (.invalidByte, 0, 7, 0x58) ∧
    bytesAfter .decip (ready (cfg .sse) (put 0x400 (ascii "deadbeeX")) 0x400 8 0 0 0) 0x400 8 = ascii "deadbeeX" := by
  decide

/-- ENC-2 and ENC-8. -/
theorem test_encU_2 : bytesAfter .encU (ready (cfg .sse) (put 0x100 [0xDE, 0xAD, 0xBE, 0xEF]) 0x100 4 0x200 8 0) 0x200 8 =
    ascii "DEADBEEF" := by decide
theorem test_encU_8 : outcome .encU (ready (cfg .sse) (put 0x100 [0x0A]) 0x100 1 0x200 2 0) = (.ok, 2, 0, 0) := by decide
/-- ENC-3 and ENC-10. -/
theorem test_encL_3 :
    bytesAfter .encL (ready (cfg .sse) (put 0x200 (List.replicate 6 0xEE) (put 0x100 [0x00, 0xFF])) 0x100 2 0x200 6 0)
      0x200 6 = ascii "00ff" ++ [0xEE, 0xEE] := by decide
theorem test_encL_10 : outcome .encL (ready { cfg .none with memSize := 2 ^ 32 } [] 0 0x80000001 0x80000001 0x7FFFFFFF 0) =
    (.outputTooSmall, 0, 0, 0) := by decide

/-- FLT-4: the end of a region does not wrap. -/
theorem test_range_no_wrap : outcome .dec (ready (cfg .sse) [] 0xFFFFFFFF 2 0x200 1 0) = (.faultRange, 0, 0, 0) := by decide
/-- FLT-5: a region of no byte is in range anywhere. -/
theorem test_empty_in_range : outcome .dec (ready (cfg .sse) [] 0xFFFFFFFF 0 0xFFFFFFF0 0 0) = (.ok, 0, 0, 0) := by decide
/-- FLT-7: adjacent regions do not overlap. -/
theorem test_adjacent : bytesAfter .dec (ready (cfg .sse) (put 0x100 (ascii "deadbeef")) 0x100 8 0x108 4 0) 0x108 4 =
    [0xDE, 0xAD, 0xBE, 0xEF] := by decide
/-- FLT-8: overlap before odd length; FLT-9: odd length before capacity; FLT-10: no overlap with an empty region. -/
theorem test_priority : outcome .dec (ready (cfg .sse) [] 0x100 9 0x104 4 0) = (.faultOverlap, 0, 0, 0) ∧
    outcome .dec (ready (cfg .sse) [] 0x100 9 0x200 1 0) = (.oddLength, 0, 0, 0) ∧
    outcome .dec (ready (cfg .sse) [] 0x100 8 0x104 0 0) = (.outputTooSmall, 0, 0, 0) := by decide

/-- G2: what CAPS reads on four instances. -/
theorem test_caps : (ready (cfg .none) [] 0 0 0 0 0).capsWord = 0x00020000 ∧
    (ready (cfg .sse) [] 0 0 0 0 0).capsWord = 0x00020110 ∧
    (ready (cfg64 .avx) [] 0 0 0 0 0).capsWord = 0x00040220 ∧
    (ready (cfg64 .neon) [] 0 0 0 0 0).capsWord = 0x00040310 := by decide

/-- G1, G6: STATUS after reset, and during a command after an INVALID_BYTE. -/
theorem test_status : State.reset.statusWord = 0x01 ∧
    State.statusWord { ready (cfg .sse) [] 0 0 0 0 0 with done := true, kind := .invalidByte } = 0x32 ∧
    (State.startCommand { ready (cfg .sse) [] 0 0 0 0 0 with done := true, kind := .invalidByte } 2).statusWord = 0x31 := by
  decide

/-- R81's example, read and expanded. -/
theorem test_assembler : (readLine "HEX.DEC src=0x200,8 dst=0x300,4").map (expandLine (cfg .sse)) = some
    [HostOp.wr (cfg .sse) .srcAddr 0x200, HostOp.wr (cfg .sse) .srcLen 8, HostOp.wr (cfg .sse) .dstAddr 0x300,
      HostOp.wr (cfg .sse) .dstLen 4, HostOp.wr (cfg .sse) .cmd 2, .poll] := by decide
/-- The bare spelling is not accepted (spec R80). -/
theorem test_assembler_bare : readLine "HEX.ENC src=0x100,4 dst=0x200,8" = none := by decide

/-- Program 5: the writes of HEX.DECIP on "deadbeef", whose prefixes are the five contents listed there; then those of
HEX.DEC on a chunk and a tail that fails (V-VEC, i = 18), and of HEX.ENC.U (ENC-2, its first byte). -/
theorem test_write_order :
    (decipAlgorithm (cfg .sse) (ready (cfg .sse) [] 0x400 8 0 0 0).operands).writes (put 0x400 (ascii "deadbeef")) =
      [(0x400, 0xDE), (0x401, 0xAD), (0x402, 0xBE), (0x403, 0xEF)] ∧
    (decAlgorithm (cfg .neon) chunkThenTail.operands).writes chunkThenTail.mem =
      [(0x800, 0), (0x801, 1), (0x802, 2), (0x803, 3), (0x804, 4), (0x805, 5), (0x806, 6), (0x807, 7), (0x808, 0x10)] ∧
    (encUAlgorithm (cfg .sse) (ready (cfg .sse) [] 0x100 1 0x200 2 0).operands).writes (put 0x100 [0xDE]) =
      [(0x200, 0x44), (0x201, 0x45)] := by decide

/-- R140: the validation pass of HEX.DECIP reads up to the end of the failing pair (DIP-3). -/
theorem test_decip_reads :
    (decipAlgorithm (cfg .sse) (ready (cfg .sse) [] 0x400 4 0 0 0).operands).reads (put 0x400 (ascii "X0aa")) =
      [0x400, 0x401] := by decide

/-! ### Witnesses: for every statement with hypotheses, states and operands that meet them -/

/-- "deadbeef" at 0x100 with room for four bytes at 0x800. -/
def good (b : Backend) : State := ready (cfg b) (put 0x100 (ascii "deadbeef")) 0x100 8 0x800 4 4

/-- "aabbXX" at 0x100 with room for three bytes at 0x800. -/
def bad (b : Backend) : State := ready (cfg b) (put 0x100 (ascii "aabbXX")) 0x100 6 0x800 3 3

/-- `s` with one input pending. -/
def asked (s : State) (x : Input) : State := { s with inputs := [x] }

theorem witness_good_inv (b : Backend) : (good b).Inv := by
  refine ⟨?_, ⟨?_, ?_⟩, ?_, ?_, ?_, ?_, ?_⟩
  · cases b <;> decide
  · exact (by decide : Memory.wf (put 0x100 (ascii "deadbeef")))
  · exact (by decide : ∀ c ∈ put 0x100 (ascii "deadbeef"), c.1 < 0x1000)
  · exact (by decide : (0x100 : Word).toNat < 2 ^ 32 ∧ (8 : Word).toNat < 2 ^ 32 ∧ (0x800 : Word).toNat < 2 ^ 32 ∧
      (4 : Word).toNat < 2 ^ 32 ∧ (4 : Word).toNat < 2 ^ 32 ∧ (0 : Word).toNat < 2 ^ 32 ∧ (0 : Word).toNat < 2 ^ 32)
  · unfold VecRegs.Lanes
    cases b <;> decide
  · exact ⟨fun _ => rfl, fun _ => ⟨rfl, rfl⟩, fun h => by cases h⟩
  · exact fun h => by cases h.1
  · exact fun _ _ h => by cases h

/-- DecodeInvertsEncode, with bits set above bit 31. -/
theorem witness_decode_inverts : (Instr.encL).WellFormed ∧
    (0xFFFFFFFF00000016 : Word).setWidth 32 = encode .encL := by decide

/-- IllegalWordFaults, WaitsLetTheEngineRun: the words at the edges of R74. -/
theorem witness_illegal : ∀ w ∈ [(0 : CmdWord), 7, 0xF, 0x11, 0x20, 0x80000006],
    (State.withFetchWord (good .sse) 32 w.toNat).Started w ∧ ¬ w.Legal ∧
    (State.withFetchWord (good .sse) 32 w.toNat).inputs = [] := by
  intro w hw
  simp only [List.mem_cons, List.not_mem_nil, or_false] at hw
  rcases hw with rfl | rfl | rfl | rfl | rfl | rfl <;> exact ⟨rfl, by decide, rfl⟩

/-- StepRunsDecodedCommand, WaitsLetTheEngineRun, AccessByAccessReachesExec, EngineStepsAreBounded and
ResetLeavesAPrefixOfTheWrites. -/
theorem witness_started (i : Instr) : (started i (good .sse)).Started (encode i) ∧ decode (encode i) = .command i ∧
    (started i (good .sse)).inputs = [] := by
  cases i <;> exact ⟨rfl, by decide, rfl⟩

/-- EngineStepsAreBounded, on an illegal word. -/
theorem witness_started_illegal : (State.withFetchWord (good .sse) 32 7).Started 7 ∧ decode 7 = .illegal .reservedOp :=
  ⟨rfl, by decide⟩

/-- WaitsLetTheEngineRun: each wait, over and not over; then INIT of either
length, IDLE with no input, and a command one access in. -/
theorem witness_waits :
    ((asked { good .sse with done := true } (.host .poll)).inputs = [.host .poll] ∧
      (asked { good .sse with done := true } (.host .poll)).done = true) ∧
    (asked (good .sse) (.host .pollReady)).busy = false ∧ (asked (good .sse) (.host .poll)).done = false ∧
    (asked State.reset (.host .pollReady)).busy = true := by decide

theorem witness_phases : State.reset.phase = .init 0 ∧ (State.resetOf (cfg64 .avx) []).phase = .init (1 + 1) ∧
    (good .sse).phase = .idle ∧ (good .sse).inputs = [] ∧
    (engineTick (started .dec (good .sse))).phase = .exec (encode .dec) [.got 0x64] :=
  ⟨rfl, rfl, rfl, rfl, rfl⟩

/-- AccessByAccessReachesExec: a command of twelve accesses, which `engineRun` can find after any of them. -/
theorem witness_accesses : (algorithmOf .dec (cfg .sse) (good .sse).operands).accesses (good .sse).mem = 12 := by decide

/-- CmdWriteStartsCommand, ValueRegistersHoldSizeBits, ReadOnlyRegistersIgnoreWrites: a WR to a ready engine. -/
theorem witness_write (r : Reg) : (asked (good .sse) (.host (HostOp.wr (cfg .sse) r 0x100000008))).busy = false ∧
    (asked (good .sse) (.host (HostOp.wr (cfg .sse) r 0x100000008))).inputs =
      .host (HostOp.wr (good .sse).cfg r 0x100000008) :: [] := ⟨rfl, rfl⟩
theorem witness_reg_kinds : isOperandReg .argN = true ∧ isValueReg .errIndex = true ∧ isReadOnlyReg .status = true ∧
    isReadOnlyReg .caps = true := by decide

/-- BusyEngineKeepsRegisters: a WR and an RD of a busy engine, and a run of the engine. -/
theorem witness_busy (r : Reg) (i : Instr) :
    (asked (started i (good .sse)) (.host (HostOp.wr (cfg .sse) r 0x999))).busy = true ∧
    (asked (started i (good .sse)) (.host (HostOp.wr (cfg .sse) r 0x999))).inputs =
      .host (HostOp.wr (good .sse).cfg r 0x999) :: [] ∧
    (asked (started i (good .sse)) (.host (HostOp.rd (cfg .sse) r))).inputs = .host (HostOp.rd (good .sse).cfg r) :: [] ∧
    ∃ t, engineRun (good .sse) = .next t := ⟨rfl, rfl, rfl, _, rfl⟩

/-- BusyEngineKeepsRegisters: an RD of each outcome register of a ready engine whose command has failed (spec R234, step
5), an engine move that is an access, and one that ends initialisation. -/
theorem witness_read_done (r : Reg) : (asked ((bad .sse).ended .faultRange) (.host (HostOp.rd (cfg .sse) r))).busy = false ∧
    (asked ((bad .sse).ended .faultRange) (.host (HostOp.rd (cfg .sse) r))).inputs =
      .host (HostOp.rd (bad .sse).cfg r) :: [] := ⟨rfl, rfl⟩
theorem witness_moves : (engineTick (started .dec (good .sse))).busy = true ∧ (engineTick State.reset).busy = false ∧
    ∀ (w : CmdWord) (trace : List Access), State.reset.phase ≠ .exec w trace :=
  ⟨rfl, rfl, fun _ _ h => by cases h⟩

/-- StepRunsDecodedCommand: an engine move is the next input. -/
theorem witness_engine_input (i : Instr) : (asked (started i (good .sse)) .engine).inputs = .engine :: [] := rfl

/-- StatusWordFields: a busy state of the invariant. -/
theorem witness_busy_inv : ∃ s : State, s.Inv ∧ s.busy = true := by
  obtain ⟨h1, h2, h3, h4, h5, _, _⟩ := witness_good_inv .sse
  refine ⟨started .dec (good .sse), ⟨h1, h2, h3, h4, h5, ?_, ?_⟩, rfl⟩
  · intro h
    cases h.2
  · intro w trace h
    cases h
    rfl

/-- CapsIsHardwired, ConfigurationNeverChanges, EveryStepKeepsInvariant: a step of a state of the invariant. -/
theorem witness_step (b : Backend) : (good b).Inv ∧ ∃ t, step (good b) = .next t := ⟨witness_good_inv b, _, rfl⟩

/-- ReservedSlotsReadZero: the first and the last reserved slot. -/
theorem witness_reserved : ∀ k ∈ [11, 31], 11 ≤ k ∧ k < 32 ∧ (leBytes 8 0x999).length = 8 ∧
    (asked (good .sse) (.host (.regStore (0 + 8 * k) (leBytes 8 0x999)))).inputs =
      .host (.regStore ((good .sse).cfg.regBase + 8 * k) (leBytes 8 0x999)) :: [] ∧
    (asked (good .sse) (.host (.regLoad (0 + 8 * k) 8))).inputs =
      .host (.regLoad ((good .sse).cfg.regBase + 8 * k) 8) :: [] := by decide

/-- PartialRegisterAccessRefused: too short, misaligned, below the block, past it. -/
theorem witness_partial : ∀ q ∈ [((4 : Nat), (0x80 : Nat)), (8, 0x84), (8, 0x78), (8, 0x180)],
    ¬ (q.1 = 8 ∧ (cfg64 .avx).regBase ≤ q.2 ∧ q.2 + 8 ≤ (cfg64 .avx).regBase + 256 ∧
      (q.2 - (cfg64 .avx).regBase) % 8 = 0) ∧
    (asked (ready (cfg64 .avx) [] 0 0 0 0 0) (.host (.regLoad q.2 q.1))).inputs = .host (.regLoad q.2 q.1) :: [] ∧
    (asked (ready (cfg64 .avx) [] 0 0 0 0 0) (.host (.regStore q.2 (List.replicate q.1 1)))).inputs =
      .host (.regStore q.2 (List.replicate q.1 1)) :: [] ∧ (List.replicate q.1 (1 : Byte)).length = q.1 := by decide

/-- HostMemoryAccess: the last byte of data memory, and one past it, stored and loaded. -/
theorem witness_host_memory :
    ((asked (good .sse) (.host (.memStore 0xFFF [1]))).inputs = .host (.memStore 0xFFF [1]) :: [] ∧
      0xFFF + [(1 : Byte)].length ≤ (good .sse).cfg.memSize) ∧
    ((asked (good .sse) (.host (.memStore 0xFFF [1, 2]))).inputs = .host (.memStore 0xFFF [1, 2]) :: [] ∧
      (good .sse).cfg.memSize < 0xFFF + [(1 : Byte), 2].length) ∧
    ((asked (good .sse) (.host (.memLoad 0xFFF 1))).inputs = .host (.memLoad 0xFFF 1) :: [] ∧
      0xFFF + 1 ≤ (good .sse).cfg.memSize) ∧
    ((asked (good .sse) (.host (.memLoad 0x1000 1))).inputs = .host (.memLoad 0x1000 1) :: [] ∧
      (good .sse).cfg.memSize < 0x1000 + 1) := by decide

/-- AssemblerLineStartsItsCommand. -/
theorem witness_line : (State.busy { good .sse with inputs := (expandLine (cfg .sse) (.deca 1 2 3 4)).map Input.host ++ [] } =
    false) ∧ State.inputs { good .sse with inputs := (expandLine (cfg .sse) (.deca 1 2 3 4)).map Input.host ++ [] } =
      (expandLine (good .sse).cfg (.deca 1 2 3 4)).map Input.host ++ [] := ⟨rfl, rfl⟩

/-- ResetEventResetsRegisters, during a command. -/
theorem witness_reset : (asked (started .decip (good .sse)) .reset).inputs = .reset :: [] := rfl

/-- InitialisationEndsIdle: INIT of length 0 and of length 2, with no input and with a host that waits. -/
theorem witness_init_waits : (State.resetOf (cfg64 .avx) []).inputs = [] ∧
    (asked (State.resetOf (cfg64 .avx) []) (.host .pollReady)).phase = .init 2 ∧
    (asked (State.resetOf (cfg64 .avx) []) (.host .pollReady)).inputs = .host .pollReady :: [] := by decide
theorem witness_init : State.reset.phase = .init 0 ∧ (State.resetOf (cfg64 .avx) []).phase = .init 2 ∧ 2 ≤ 2 := by decide

/-- InvariantHoldsAtReset: a memory whose last byte is listed. -/
theorem witness_reset_memory : (cfg .sse).Legal ∧ Memory.wf [(0xFFF, 7)] ∧
    ∀ d ∈ ([(0xFFF, 7)] : Memory), d.1 < (cfg .sse).memSize := by decide

/-- CommandFrame and SourceIsUnchanged: every command answers, and the source has a byte. -/
theorem witness_exec (i : Instr) : (∃ t, exec i (good .sse) = .next t) ∧ 7 < (good .sse).srcLen.toNat :=
  ⟨⟨_, exec_eq i _⟩, by decide⟩

/-- CommandFrame: an address outside, just below and just past what HEX.DEC may write. -/
theorem witness_outside : ¬ mayWrite .dec (good .sse).operands 0x7FF ∧ ¬ mayWrite .dec (good .sse).operands 0x804 ∧
    ¬ mayWrite .decip (good .sse).operands 0x104 ∧ ¬ mayRead .dec (good .sse).operands 0x804 := by
  unfold mayWrite mayRead
  decide

/-- EveryCommandCompletes, FailedChecksWriteNothing and DecipNeverMutatesOnError: a failed outcome of HEX.DECIP. -/
theorem witness_failed : ∃ t, exec .decip (bad .sse) = .next t ∧ t.kind = .invalidByte := ⟨_, rfl, by decide⟩

/-- FailedChecksWriteNothing: a failed check. -/
theorem witness_failed_check : ∃ t, exec .dec { good .sse with dstLen := 3 } = .next t ∧ t.kind = .outputTooSmall :=
  ⟨_, rfl, by decide⟩

/-- CommandReadsOnlyItsSource: two memories that differ outside the source, and unread operands that differ. -/
theorem witness_two_states : (good .sse).cfg = State.cfg { good .sse with mem := put 0x802 [9] (good .sse).mem, argN := 5 } ∧
    sameOperands .dec (good .sse).operands
      (State.operands { good .sse with mem := put 0x802 [9] (good .sse).mem, argN := 5 }) ∧
    ∀ a, mayRead .dec (good .sse).operands a →
      (good .sse).mem.read a = Memory.read (put 0x802 [9] (good .sse).mem) a := by
  refine ⟨rfl, ⟨rfl, rfl, rfl, rfl⟩, fun a h => ?_⟩
  have h2 : a < 0x100 + 8 := h.2
  rw [put, Memory.writeBytes, Memory.writeBytes, Memory.read_write_ne]
  omega

/-- RegionOutOfRangeFaults: FLT-1, FLT-3, FLT-4, for the slice, the array and the buffer. -/
theorem witness_out_of_range :
    ¬ (Region.InRange (ready (cfg .sse) [] 0xFFC 8 0x200 4 4).operands.src 0x1000) ∧
    ¬ (Region.InRange (ready (cfg .sse) [] 0xFFF 2 0x200 4 4).operands.src 0x1000) ∧
    ¬ (Region.InRange (ready (cfg .sse) [] 0x100 8 0xFFF 2 2).operands.dst 0x1000) ∧
    ¬ (Region.InRange (ready (cfg .sse) [] 0x100 8 0xFFF 2 2).operands.array 0x1000) ∧
    ¬ (Region.InRange (ready (cfg .sse) [] 0xFFFFFFFF 2 0x200 1 1).operands.src 0x1000) ∧
    Region.InRange (ready (cfg .sse) [] 0xFF8 8 0x200 4 4).operands.src 0x1000 := by decide

/-- OverlappingRegionsFault: one byte in common (FLT-6), none (FLT-7), and an array region (FLT-12). -/
theorem witness_overlap :
    (∀ s ∈ [ready (cfg .sse) [] 0x100 8 0x107 4 4, ready (cfg .sse) [] 0x103 8 0x100 4 4],
      s.operands.src.InRange 0x1000 ∧ s.operands.dst.InRange 0x1000 ∧ s.operands.array.InRange 0x1000 ∧
      Region.Overlap s.operands.src s.operands.dst ∧ Region.Overlap s.operands.src s.operands.array) ∧
    ∀ s ∈ [ready (cfg .sse) [] 0x100 8 0x108 4 4, ready (cfg .sse) [] 0x104 8 0x100 4 4],
      ¬ Region.Overlap s.operands.src s.operands.dst ∧ ¬ Region.Overlap s.operands.src s.operands.array := by decide

/-- OddLengthIsDecidedFirst: with a capacity that is too small as well. -/
theorem witness_odd : ∀ s ∈ [ready (cfg .sse) [] 0x100 1 0x200 0 0, ready (cfg .sse) [] 0x100 9 0x200 1 1],
    s.srcLen.toNat % 2 = 1 ∧ s.operands.src.InRange 0x1000 ∧ s.operands.dst.InRange 0x1000 ∧
    s.operands.array.InRange 0x1000 ∧ ¬ Region.Overlap s.operands.src s.operands.dst ∧
    ¬ Region.Overlap s.operands.src s.operands.array := by decide

/-- SmallOutputIsDecidedFromLengths: one byte short, for each clause. -/
theorem witness_small : ∀ s ∈ [ready (cfg .sse) [] 0x100 8 0x200 3 3, ready (cfg .sse) [] 0x100 2 0x200 0 0],
    s.operands.src.InRange 0x1000 ∧ s.operands.dst.InRange 0x1000 ∧ s.operands.array.InRange 0x1000 ∧
    ¬ Region.Overlap s.operands.src s.operands.dst ∧ ¬ Region.Overlap s.operands.src s.operands.array ∧
    s.srcLen.toNat % 2 = 0 ∧ s.dstLen.toNat < s.srcLen.toNat / 2 ∧ s.srcLen.toNat / 2 ≠ s.argN.toNat ∧
    s.dstLen.toNat < 2 * s.srcLen.toNat := by decide
theorem witness_array_too_large : (ready (cfg .sse) [] 0x100 8 0x200 3 5).srcLen.toNat / 2 ≠
    (ready (cfg .sse) [] 0x100 8 0x200 3 5).argN.toNat := by decide
theorem witness_enc_one_short : (ready (cfg .sse) [] 0x100 4 0x200 7 0).dstLen.toNat <
    2 * (ready (cfg .sse) [] 0x100 4 0x200 7 0).srcLen.toNat := by decide

/-- DecDecodesValidText, DecaDecodesValidText, DecipDecodesInPlace, DecIgnoresLetterCase, CommandWritesAscend,
CommandReadsAscend: "deadbeef". -/
theorem witness_valid (b : Backend) : (good b).operands.src.InRange (good b).cfg.memSize ∧
    (good b).operands.dst.InRange (good b).cfg.memSize ∧ (good b).operands.array.InRange (good b).cfg.memSize ∧
    ¬ Region.Overlap (good b).operands.src (good b).operands.dst ∧
    ¬ Region.Overlap (good b).operands.src (good b).operands.array ∧ (good b).srcLen.toNat % 2 = 0 ∧
    (good b).srcLen.toNat / 2 ≤ (good b).dstLen.toNat ∧ (good b).srcLen.toNat / 2 = (good b).argN.toNat ∧
    AllHex (good b).text (good b).srcLen.toNat := by
  unfold AllHex
  cases b <;> decide

/-- The first 40 characters of T64: more than a chunk, of either width. -/
def long (b : Backend) : State :=
  ready (cfg b) (put 0x100 (ascii "000102030405060708090a0b0c0d0e0f10111213")) 0x100 40 0x800 20 20

/-- DecDecodesValidText, DecStopsAtFirstInvalid, BackendsAgree, CommandWritesAscend: texts of more than a chunk, for every backend. -/
theorem witness_long (b : Backend) : (long b).operands.src.InRange (long b).cfg.memSize ∧
    (long b).operands.dst.InRange (long b).cfg.memSize ∧ ¬ Region.Overlap (long b).operands.src (long b).operands.dst ∧
    (long b).srcLen.toNat % 2 = 0 ∧ (long b).srcLen.toNat / 2 ≤ (long b).dstLen.toNat ∧
    (long b).cfg.vecChunk < (long b).srcLen.toNat := by
  cases b <;> decide
theorem witness_long_valid : AllHex (long .sse).text 40 := by
  unfold AllHex
  decide

/-- DecStopsAtFirstInvalid, CommandWritesAscend, CommandReadsAscend: the failure inside a full chunk of either width, the
prefix R126 gives, and what is read. -/
theorem witness_long_invalid16 : FirstInvalid (longBad .sse).text 40 17 := by
  unfold FirstInvalid
  decide
theorem witness_long_invalid32 : FirstInvalid (longBad .avx).text 40 17 := by
  unfold FirstInvalid
  decide
theorem witness_long_operands (b : Backend) : (long b).srcLen.toNat = 40 ∧ (longBad b).srcLen.toNat = 40 ∧
    (longBad b).operands = (long b).operands ∧ (longBad b).cfg = (long b).cfg := by
  simp [long, longBad, ready, State.operands, State.resetOf]
theorem witness_prefixes : 17 < 40 / 16 * 16 ∧ decPrefix 16 40 17 = 8 ∧ 17 < 40 / 32 * 32 ∧ decPrefix 32 40 17 = 0 ∧
    decPrefix 0 40 17 = 8 ∧ decReads 16 40 17 = 32 ∧ decReads 32 40 17 = 32 ∧ decReads 0 40 17 = 18 := by decide

/-- The same of the empty text (DEC-1, DECA-5, DIP-6). -/
theorem witness_empty : AllHex (ready (cfg .sse) [] 0 0 0 0 0).text (ready (cfg .sse) [] 0 0 0 0 0).srcLen.toNat ∧
    Region.InRange (ready (cfg .sse) [] 0 0 0 0 0).operands.src 0x1000 :=
  ⟨fun _ h => absurd h (Nat.not_lt_zero _), by decide⟩

/-- DecStopsAtFirstInvalid, DecaStopsAtFirstInvalid, DecipReportsFirstInvalid, CommandWritesAscend, CommandReadsAscend:
"aabbXX". -/
theorem witness_invalid (b : Backend) : (bad b).operands.src.InRange (bad b).cfg.memSize ∧
    (bad b).operands.dst.InRange (bad b).cfg.memSize ∧ (bad b).operands.array.InRange (bad b).cfg.memSize ∧
    ¬ Region.Overlap (bad b).operands.src (bad b).operands.dst ∧
    ¬ Region.Overlap (bad b).operands.src (bad b).operands.array ∧ (bad b).srcLen.toNat % 2 = 0 ∧
    (bad b).srcLen.toNat / 2 ≤ (bad b).dstLen.toNat ∧ (bad b).srcLen.toNat / 2 = (bad b).argN.toNat ∧
    FirstInvalid (bad b).text (bad b).srcLen.toNat 4 := by
  unfold FirstInvalid
  cases b <;> decide

/-- BackendsAgree: both runs answer, on a text of more than a chunk, valid and with a bad character in a chunk. -/
theorem witness_backends (b : Backend) :
    (∃ t, exec .dec { long .none with cfg := { (long .none).cfg with backend := b } } = .next t) ∧
    ∃ t, exec .dec { longBad .none with cfg := { (longBad .none).cfg with backend := b } } = .next t :=
  ⟨⟨_, exec_eq .dec _⟩, _, exec_eq .dec _⟩

/-- DecIgnoresLetterCase: two spellings of one text, and a decode that succeeds and can be repeated. -/
theorem witness_letter_case : ∀ i < (good .sse).srcLen.toNat, lowerCase ((good .sse).text i) =
    lowerCase (State.text { good .sse with mem := put 0x100 (ascii "DeAdBeEf") } i) := by decide
theorem witness_decode_twice : ∃ t r, exec .dec (good .sse) = .next t ∧ t.kind = .ok ∧ exec .dec t = .next r :=
  ⟨_, _, rfl, by decide, rfl⟩

/-- OutcomePriority: each command answers, also where two outcomes apply (FLT-2, FLT-8, DEC-9, DEC-10). -/
theorem witness_priority (i : Instr) (s : State) : ∃ t, exec i s = .next t := ⟨_, exec_eq i s⟩

/-- EncEncodesEveryByte, CommandWritesAscend, CommandReadsAscend: capacity exactly 2n. -/
theorem witness_encode : (ready (cfg .sse) [] 0x100 4 0x200 8 0).operands.src.InRange 0x1000 ∧
    (ready (cfg .sse) [] 0x100 4 0x200 8 0).operands.dst.InRange 0x1000 ∧
    ¬ Region.Overlap (ready (cfg .sse) [] 0x100 4 0x200 8 0).operands.src
      (ready (cfg .sse) [] 0x100 4 0x200 8 0).operands.dst ∧
    2 * (ready (cfg .sse) [] 0x100 4 0x200 8 0).srcLen.toNat ≤ (ready (cfg .sse) [] 0x100 4 0x200 8 0).dstLen.toNat := by
  decide

/-- DecodeOfEncodeIsIdentity: encode four bytes, then decode the eight characters elsewhere. -/
theorem witness_round_trip : ∀ i ∈ [Instr.encU, .encL],
    ∃ t, exec i (ready (cfg .sse) (put 0x100 [0xDE, 0xAD, 0xBE, 0xEF]) 0x100 4 0x200 8 0) = .next t ∧ t.kind = .ok ∧
      (ready (cfg .avx) t.mem 0x200 8 0x300 4 0).mem = t.mem ∧
      (ready (cfg .avx) t.mem 0x200 8 0x300 4 0).srcAddr = 0x200 ∧
      (ready (cfg .avx) t.mem 0x200 8 0x300 4 0).srcLen.toNat = 2 * 4 ∧
      (ready (cfg .avx) t.mem 0x200 8 0x300 4 0).operands.src.InRange 0x1000 ∧
      (ready (cfg .avx) t.mem 0x200 8 0x300 4 0).operands.dst.InRange 0x1000 ∧
      ¬ Region.Overlap (ready (cfg .avx) t.mem 0x200 8 0x300 4 0).operands.src
        (ready (cfg .avx) t.mem 0x200 8 0x300 4 0).operands.dst ∧
      4 ≤ (ready (cfg .avx) t.mem 0x200 8 0x300 4 0).dstLen.toNat := by
  intro i hi
  simp only [List.mem_cons, List.not_mem_nil, or_false] at hi
  rcases hi with rfl | rfl <;>
    exact ⟨_, rfl, by decide, rfl, rfl, by decide, by decide, by decide, by decide, by decide⟩

/-- AccessOutsideRegionsDoesNotInterfere: an address between the regions, one access in. -/
theorem witness_outside_access :
    (engineTick (started .dec (good .sse))).phase = .exec (encode .dec) [.got 0x64] ∧
    decode (encode .dec) = .command .dec ∧ ¬ mayRead .dec (good .sse).operands 0x300 ∧
    ¬ mayWrite .dec (good .sse).operands 0x300 := by
  refine ⟨rfl, by decide, ?_, ?_⟩
  · unfold mayRead
    decide
  · unfold mayWrite
    decide

/-- RacedByteIsOldOrNew: the next access is a read, then it is a write. -/
theorem witness_raced_read : ∃ next, ((wordAlgorithm (encode .dec) (good .none).cfg (good .none).operands).resume
    []).upNext = .read 0x100 next ∧ (started .dec (good .none)).phase = .exec (encode .dec) [] := ⟨_, rfl, rfl⟩
theorem witness_raced_write : ∃ next, ((wordAlgorithm (encode .dec) (good .none).cfg (good .none).operands).resume
    [.got 0x64, .got 0x65]).upNext = .write 0x800 0xDE next := ⟨_, rfl⟩

/-- LocatorNamesTheFirstOffender: V-LOC, the first character, the second, both. -/
theorem witness_locator : pairFlag (pairTable (pairKey 0x58 0x61)) = true ∧
    pairFlag (pairTable (pairKey 0x61 0x58)) = true ∧ pairFlag (pairTable (pairKey 0x58 0x59)) = true := by decide
theorem witness_locator_cases : ¬ nibbleTable 0x58 ≤ 0x0F ∧ nibbleTable 0x61 ≤ 0x0F := by decide

/-- LaneStagesMatchTheTables: a chunk with its first invalid lane at 2, and a valid chunk. -/
theorem witness_lanes : FirstInvalid (fun k => (ascii "00XX").getD k 0) (ascii "00XX").length 2 ∧
    (∀ b ∈ ascii "fFaA09", IsHex b) ∧ 2 * 2 + 1 < (ascii "fFaA09").length := by
  unfold FirstInvalid
  decide

end Sys2Proof.Tests
end

section
/-! SUPPORT. What one step of the machine can be, said once; and the register block under host accesses. -/

namespace Sys2Proof.Machine

/-! ### Command words -/

/-- `decode` and `encode` are inverse to each other (spec R71, R74, R76): only a word below 32 decodes to a command, and
among those each command has its one word. -/
theorem decode_eq_command_iff (w : CmdWord) (i : Instr) : decode w = .command i ↔ w = encode i := by
  by_cases hw : w.rsv = 0
  · obtain ⟨k, rfl⟩ := exists_five_bits w ((rsv_iff w).mp hw)
    revert k
    cases i <;> decide
  · have hne : w ≠ encode i := by
      rintro rfl
      exact hw (by cases i <;> decide)
    simp only [decode, if_pos hw, reduceCtorEq, hne]

@[simp] theorem decode_encode (i : Instr) : decode (encode i) = .command i := (decode_eq_command_iff _ i).mpr rfl

/-- The bits of a CMD store that become the command word (spec R23). -/
theorem setWidth_ofNat_word (v : Nat) : (BitVec.ofNat 64 v).setWidth 32 = BitVec.ofNat 32 v := by
  apply BitVec.eq_of_toNat_eq
  simp only [BitVec.toNat_setWidth, BitVec.toNat_ofNat]
  omega

/-- Settles O3: bits 63:32 fall away in `decodeBytes`, and `decode` answers a command on its one word only. -/
theorem decodeInvertsEncode : Obligations.DecodeInvertsEncode := by
  unfold Obligations.DecodeInvertsEncode
  intro i v _
  refine ⟨?_, decode_encode i, ?_⟩
  · rw [decodeBytes_leBytes, BitVec.ofNat_toNat]
    exact decode_eq_command_iff _ i
  · rw [encodeBytes, decodeBytes_leBytes, BitVec.ofNat_toNat]
    simp

/-! ### What a step can be -/

/-- The engine in EXEC left to itself runs what is left of its word's algorithm, whatever the word is (spec R62, R206). -/
theorem engineRun_exec {s : State} {w : CmdWord} {trace : List Access} (h : s.phase = .exec w trace) :
    engineRun s = .next (((wordAlgorithm w s.cfg s.operands).resume trace).run s) := by
  unfold engineRun
  rw [h]
  cases trace with
  | cons x r => rfl
  | nil =>
    simp only [wordAlgorithm, Algorithm.resume, List.foldl_nil]
    cases decode w with
    | command i => exact exec_eq i s
    | illegal e => rfl

/-- Every step that answers a next state, one constructor for each agent and operation that can move. -/
inductive Moves (s : State) : State → Prop
  /-- The engine is left to itself: no input is pending, or the host waits for a STATUS bit that does not read as wanted. -/
  | run {t : State}
      (pending : s.inputs = [] ∨ (∃ rest, s.inputs = .host .poll :: rest ∧ s.done = false) ∨
        ∃ rest, s.inputs = .host .pollReady :: rest ∧ s.busy = true)
      (next : engineRun s = .next t) : Moves s t
  /-- One move of the engine. -/
  | tick {rest : List Input} (pending : s.inputs = .engine :: rest) : Moves s (engineTick { s with inputs := rest })
  /-- A reset event. -/
  | reset {rest : List Input} (pending : s.inputs = .reset :: rest) :
      Moves s (State.resetEvent { s with inputs := rest })
  /-- A host write of a slot of the register block. -/
  | regStore {rest : List Input} {addr off : Nat} {bytes : List Byte}
      (pending : s.inputs = .host (.regStore addr bytes) :: rest)
      (slot : slotOffset s.cfg addr bytes.length = some off) :
      Moves s (State.writeSlot { s with inputs := rest } off (BitVec.ofNat 64 (leValue bytes)))
  /-- A host read of a slot of the register block. -/
  | regLoad {rest : List Input} {addr len off : Nat} (pending : s.inputs = .host (.regLoad addr len) :: rest)
      (slot : slotOffset s.cfg addr len = some off) :
      Moves s { s with inputs := rest, hostReads := .reg addr (leBytes 8 (s.readSlot off).toNat) :: s.hostReads }
  /-- A host write of data memory. -/
  | memStore {rest : List Input} {addr : Nat} {bytes : List Byte}
      (pending : s.inputs = .host (.memStore addr bytes) :: rest) (reach : hostReach s.cfg addr bytes.length) :
      Moves s { s with inputs := rest, mem := s.mem.writeBytes addr bytes }
  /-- A host read of data memory. -/
  | memLoad {rest : List Input} {addr len : Nat} (pending : s.inputs = .host (.memLoad addr len) :: rest)
      (reach : hostReach s.cfg addr len) :
      Moves s { s with inputs := rest, hostReads := .mem addr (s.mem.readBytes addr len) :: s.hostReads }
  /-- A wait of the host is over. -/
  | waited {rest : List Input}
      (pending : (s.inputs = .host .poll :: rest ∧ s.done = true) ∨
        (s.inputs = .host .pollReady :: rest ∧ s.busy = false)) : Moves s { s with inputs := rest }

theorem step_of_no_input {s : State} (h : s.inputs = []) : step s = engineRun s := by
  unfold step
  rw [h]

theorem step_of_input {s : State} {x : Input} {rest : List Input} (h : s.inputs = x :: rest) :
    step s = takeInput x rest s := by
  unfold step
  rw [h]

/-- A host write of a slot, by the bytes it stores (spec R54). -/
theorem step_regStore {s : State} {addr off : Nat} {bytes : List Byte} {rest : List Input}
    (h : s.inputs = .host (.regStore addr bytes) :: rest) (hoff : slotOffset s.cfg addr bytes.length = some off) :
    step s = .next (State.writeSlot { s with inputs := rest } off (BitVec.ofNat 64 (leValue bytes))) := by
  rw [step_of_input h]
  simp only [takeInput, hostRegStore, hoff]

theorem readSlot_inputs (s : State) (rest : List Input) (off : Nat) :
    State.readSlot { s with inputs := rest } off = s.readSlot off := by
  unfold State.readSlot
  split
  · rename_i r _
    cases r <;> rfl
  · rfl

/-- A host read of a slot, busy or not (spec R35, R54). -/
theorem step_regLoad {s : State} {addr len off : Nat} {rest : List Input}
    (h : s.inputs = .host (.regLoad addr len) :: rest) (hoff : slotOffset s.cfg addr len = some off) :
    step s = .next
      { s with inputs := rest, hostReads := .reg addr (leBytes 8 (s.readSlot off).toNat) :: s.hostReads } := by
  rw [step_of_input h]
  simp only [takeInput, hostRegLoad, hoff, readSlot_inputs]

/-- The inversion of `step`: a step that answers a next state is one of the moves. -/
theorem moves_of_step {s t : State} (h : step s = .next t) : Moves s t := by
  cases hi : s.inputs with
  | nil => exact .run (.inl hi) (by rwa [step_of_no_input hi] at h)
  | cons x rest =>
    cases x with
    | engine =>
      rw [step_of_input hi] at h
      cases h
      exact .tick hi
    | reset =>
      rw [step_of_input hi] at h
      cases h
      exact .reset hi
    | host op =>
      cases op with
      | regStore addr bytes =>
        cases hoff : slotOffset s.cfg addr bytes.length with
        | none => simp [step_of_input hi, takeInput, hostRegStore, hoff] at h
        | some off =>
          rw [step_regStore hi hoff] at h
          cases h
          exact .regStore hi hoff
      | regLoad addr len =>
        cases hoff : slotOffset s.cfg addr len with
        | none => simp [step_of_input hi, takeInput, hostRegLoad, hoff] at h
        | some off =>
          rw [step_regLoad hi hoff] at h
          cases h
          exact .regLoad hi hoff
      | memStore addr bytes =>
        by_cases hr : hostReach s.cfg addr bytes.length
        · simp only [step_of_input hi, takeInput, hostMemStore, if_pos hr] at h
          cases h
          exact .memStore hi hr
        · simp only [step_of_input hi, takeInput, hostMemStore, if_neg hr, reduceCtorEq] at h
      | memLoad addr len =>
        by_cases hr : hostReach s.cfg addr len
        · simp only [step_of_input hi, takeInput, hostMemLoad, if_pos hr] at h
          cases h
          exact .memLoad hi hr
        · simp only [step_of_input hi, takeInput, hostMemLoad, if_neg hr, reduceCtorEq] at h
      | poll =>
        simp only [step_of_input hi, takeInput, hostWait, State.statusWord_done] at h
        split at h
        · rename_i hd
          cases h
          exact .waited (.inl ⟨hi, hd⟩)
        · rename_i hd
          exact .run (.inr (.inl ⟨rest, hi, by simpa using hd⟩)) h
      | pollReady =>
        simp only [step_of_input hi, takeInput, hostWait, State.statusWord_busy] at h
        split at h
        · rename_i hb
          cases h
          exact .waited (.inr ⟨hi, by simpa using hb⟩)
        · rename_i hb
          exact .run (.inr (.inr ⟨rest, hi, by simpa using hb⟩)) h

end Sys2Proof.Machine
end

section
/-! SUPPORT. The invariant: each operation of the machine keeps it, and so does each move. -/

namespace Sys2Proof.Machine

theorem record_busy (s : State) (x : Access) : (s.record x).busy = s.busy := by
  unfold State.record State.busy
  split
  · rename_i h
    rw [h]
    rfl
  · rfl

/-- Recording an access leaves the word of the executing command. -/
theorem exec_of_record_exec {s : State} {x : Access} {w : CmdWord} {trace : List Access}
    (h : (s.record x).phase = .exec w trace) : ∃ r, s.phase = .exec w r := by
  unfold State.record at h
  split at h
  · rename_i w' r hp
    cases h
    exact ⟨r, hp⟩
  · exact ⟨trace, h⟩

/-- An outcome that the registers of a configuration can record (spec R22, R205). -/
def Completion.Fits (c : Config) (k : Completion) : Prop :=
  k.result < 2 ^ c.sizeBits ∧ k.errIndex < 2 ^ c.sizeBits ∧ (k.kind = .invalidByte → ¬ IsHex k.errByte)

/-- What an outcome does not set is 0 (spec R204). -/
theorem Completion.result_of_kind_ne {k : Completion} (h : k.kind ≠ .ok) : k.result = 0 := by
  cases k with
  | ok n => exact absurd rfl h
  | _ => rfl

theorem Completion.err_of_kind_ne {k : Completion} (h : k.kind ≠ .invalidByte) : k.errIndex = 0 ∧ k.errByte = 0 := by
  cases k with
  | invalidByte i b => exact absurd rfl h
  | _ => exact ⟨rfl, rfl⟩

namespace State.Inv

variable {s : State}

theorem legal (h : s.Inv) : s.cfg.Legal := h.1
theorem memOk (h : s.Inv) : s.MemOk := h.2.1
theorem valuesFit (h : s.Inv) : s.ValuesFit := h.2.2.1
theorem lanes (h : s.Inv) : s.vec.Lanes s.cfg.vecChunk := h.2.2.2.1
theorem not_busy_done (h : s.Inv) : ¬ (s.busy = true ∧ s.done = true) := h.2.2.2.2.2.1

end State.Inv

/-- The operand values that bound a result fit SIZE_BITS (spec R22). -/
def Operands.Fit (c : Config) (o : Operands) : Prop :=
  o.srcLen < 2 ^ c.sizeBits ∧ o.dstLen < 2 ^ c.sizeBits ∧ o.argN < 2 ^ c.sizeBits

theorem State.Inv.operands_fit {s : State} (h : s.Inv) : s.operands.Fit s.cfg := by
  obtain ⟨-, hsl, -, hdl, hn, -, -⟩ := h.valuesFit
  exact ⟨hsl, hdl, hn⟩

/-- Every path of a word's algorithm, legal or not, writes inside data memory, loads VEC_CHUNK lanes and ends with an
outcome that fits (spec R51, R150, R205). -/
theorem wordAlgorithm_fits (w : CmdWord) {c : Config} {o : Operands} (ho : o.Fit c) :
    (wordAlgorithm w c o).All (fun _ => True) (fun a => a < c.memSize) (fun v => v.Lanes c.vecChunk)
      (Completion.Fits c) := by
  have hpos : 0 < 2 ^ c.sizeBits := Nat.two_pow_pos _
  unfold wordAlgorithm
  cases decode w with
  | command i =>
    refine (algorithmOf_all i c o).mono (fun _ _ => trivial) (fun _ h => h.2) (fun _ h => h) fun k hk => ?_
    obtain ⟨-, hidx, -, hres, hbyte⟩ := hk
    obtain ⟨hsl, hdl, hn⟩ := ho
    exact ⟨by omega, by omega, hbyte⟩
  | illegal e => exact ⟨hpos, hpos, fun h => by cases h⟩

theorem sizeBits_le (c : Config) : c.sizeBits ≤ 64 := by
  unfold Config.sizeBits
  cases c.size <;> decide

/-- A number that fits SIZE_BITS fits the 64-bit slot of a register. -/
theorem toNat_ofNat_fit {c : Config} {n : Nat} (h : n < 2 ^ c.sizeBits) : (BitVec.ofNat 64 n).toNat < 2 ^ c.sizeBits :=
  lt_of_le_of_lt (by rw [BitVec.toNat_ofNat]; exact Nat.mod_le _ _) h

namespace State.Inv

variable {s : State}

/-- The invariant says nothing of the host's side. -/
theorem hostSide (h : s.Inv) (ins : List Input) (reads : List HostRead) :
    State.Inv { s with inputs := ins, hostReads := reads } := h

theorem setMem (h : s.Inv) {m : Memory} (hm : m.wf) (hlt : ∀ d ∈ m, d.1 < s.cfg.memSize) :
    State.Inv { s with mem := m } := by
  obtain ⟨hc, -, hrest⟩ := h
  exact ⟨hc, ⟨hm, hlt⟩, hrest⟩

theorem setVec (h : s.Inv) {v : VecRegs} (hv : v.Lanes s.cfg.vecChunk) : State.Inv { s with vec := v } := by
  obtain ⟨hc, hm, hvals, -, hrest⟩ := h
  exact ⟨hc, hm, hvals, hv, hrest⟩

theorem complete (h : s.Inv) {k : Completion} (hk : k.Fits s.cfg) : (s.complete k).Inv := by
  obtain ⟨hc, hm, ⟨h1, h2, h3, h4, h5, -, -⟩, hv, -, -, -⟩ := h
  obtain ⟨hres, hidx, hbyte⟩ := hk
  refine ⟨hc, hm, ⟨h1, h2, h3, h4, h5, toNat_ofNat_fit hres, toNat_ofNat_fit hidx⟩, hv, ⟨fun hne => ?_, fun hne => ?_,
    hbyte⟩, fun hb => ?_, fun w trace hp => ?_⟩
  · rw [State.complete_result, Completion.result_of_kind_ne hne]
    rfl
  · obtain ⟨hi, hb⟩ := Completion.err_of_kind_ne hne
    rw [State.complete_errIndex, State.complete_errByte, hi, hb]
    exact ⟨rfl, rfl⟩
  · cases hb.1
  · cases hp

theorem record (h : s.Inv) (x : Access) : (s.record x).Inv := by
  obtain ⟨hc, hm, hvals, hv, hout, hbusy, hword⟩ := h
  refine ⟨?_, ?_, ?_, ?_, ?_, ?_, fun w trace hp => ?_⟩
  · simpa only [State.record_cfg] using hc
  · simpa only [State.MemOk, State.record_cfg, State.record_mem] using hm
  · simpa [State.ValuesFit] using hvals
  · simpa only [State.record_cfg, State.record_vec] using hv
  · simpa [State.OutcomeOk] using hout
  · simpa only [record_busy, State.record_done] using hbusy
  · obtain ⟨r, hr⟩ := exec_of_record_exec hp
    rw [State.record_cmd]
    exact hword w r hr

theorem initStep (h : s.Inv) {left : Nat} (hp : s.phase = .init left) : (Machine.initStep left s).Inv := by
  have hdone : s.done = false := by
    simpa [State.busy, hp, Phase.busy] using h.not_busy_done
  obtain ⟨hc, hm, hvals, hv, hout, -, -⟩ := h
  cases left with
  | zero => exact ⟨hc, hm, hvals, hv, hout, fun hb => Bool.false_ne_true hb.1, fun _ _ hx => by cases hx⟩
  | succ n =>
    exact ⟨hc, hm, hvals, hv, hout, fun hb => Bool.false_ne_true (hdone.symm.trans hb.2), fun _ _ hx => by cases hx⟩

/-- The run of an algorithm whose paths stay inside what the invariant allows. -/
theorem run (h : s.Inv) {p : Algorithm} (hp : p.All (fun _ => True) (fun a => a < s.cfg.memSize)
    (fun v => v.Lanes s.cfg.vecChunk) (Completion.Fits s.cfg)) : (p.run s).Inv := by
  obtain ⟨m, v, k, hrun, hk, hv, -, hwf, hlt⟩ := Algorithm.run_all hp s
  have hmem := h.memOk
  have hlanes : v.Lanes s.cfg.vecChunk := hv.elim (fun e => e ▸ h.lanes) id
  rw [hrun]
  exact ((h.setMem (hwf hmem.1) (hlt _ (fun _ ha => ha) hmem.2)).setVec hlanes).complete hk

theorem tick (h : s.Inv) {p : Algorithm} (hp : p.All (fun _ => True) (fun a => a < s.cfg.memSize)
    (fun v => v.Lanes s.cfg.vecChunk) (Completion.Fits s.cfg)) : (p.tick s).Inv := by
  obtain ⟨v, hv, hcase⟩ := Algorithm.tick_all hp s
  have hmem := h.memOk
  have hlanes : v.Lanes s.cfg.vecChunk := hv.elim (fun e => e ▸ h.lanes) id
  obtain ⟨a, -, he⟩ | ⟨a, b, ha, he⟩ | ⟨k, hk, he⟩ := hcase
  · rw [he]
    exact (h.setVec hlanes).record _
  · rw [he]
    exact ((h.setVec hlanes).setMem (Memory.write_wf a b hmem.1) (Memory.write_below b ha hmem.2)).record _
  · rw [he]
    exact (h.setVec hlanes).complete hk

theorem engineTick (h : s.Inv) : (Machine.engineTick s).Inv := by
  unfold Machine.engineTick
  split
  · rename_i hp
    exact h.initStep hp
  · exact h
  · exact h.tick (.resume _ (wordAlgorithm_fits _ h.operands_fit))

theorem engineRun (h : s.Inv) {t : State} (ht : Machine.engineRun s = .next t) : t.Inv := by
  cases hp : s.phase with
  | init left =>
    simp only [Machine.engineRun, hp] at ht
    cases ht
    exact h.initStep hp
  | idle =>
    simp only [Machine.engineRun, hp] at ht
    cases ht
    exact h
  | exec w trace =>
    rw [engineRun_exec hp] at ht
    cases ht
    exact h.run (.resume trace (wordAlgorithm_fits w h.operands_fit))

theorem startCommand (h : s.Inv) (v : Word) : (s.startCommand v).Inv := by
  obtain ⟨hc, hm, hvals, hv, hout, -, -⟩ := h
  refine ⟨hc, hm, hvals, hv, hout, fun hb => Bool.false_ne_true hb.2, fun w trace hp => ?_⟩
  cases hp
  rfl

theorem writeReg (h : s.Inv) (r : Reg) (v : Word) : (s.writeReg r v).Inv := by
  have hfit : (narrow s.cfg v).toNat < 2 ^ s.cfg.sizeBits := by
    rw [narrow_toNat]
    exact Nat.mod_lt _ (Nat.two_pow_pos _)
  obtain ⟨hc, hm, ⟨h1, h2, h3, h4, h5, h6, h7⟩, hrest⟩ := id h
  cases r with
  | cmd => exact h.startCommand v
  | srcAddr => exact ⟨hc, hm, ⟨hfit, h2, h3, h4, h5, h6, h7⟩, hrest⟩
  | srcLen => exact ⟨hc, hm, ⟨h1, hfit, h3, h4, h5, h6, h7⟩, hrest⟩
  | dstAddr => exact ⟨hc, hm, ⟨h1, h2, hfit, h4, h5, h6, h7⟩, hrest⟩
  | dstLen => exact ⟨hc, hm, ⟨h1, h2, h3, hfit, h5, h6, h7⟩, hrest⟩
  | argN => exact ⟨hc, hm, ⟨h1, h2, h3, h4, hfit, h6, h7⟩, hrest⟩
  | status | result | errIndex | errByte | caps => exact h

theorem writeSlot (h : s.Inv) (off : Nat) (v : Word) : (s.writeSlot off v).Inv := by
  unfold State.writeSlot
  split
  · exact h
  · split
    · exact h.writeReg _ v
    · exact h

theorem writeBytes (h : s.Inv) {a : Nat} {bytes : List Byte} (hr : hostReach s.cfg a bytes.length) :
    State.Inv { s with mem := s.mem.writeBytes a bytes } := by
  obtain hnil | hle := hr
  · rw [List.length_eq_zero_iff.mp hnil]
    exact h
  · exact h.setMem (Memory.writeBytes_wf bytes a h.memOk.1) (Memory.writeBytes_below bytes hle h.memOk.2)

end State.Inv

theorem vecRegs_reset_lanes (c : Config) : (VecRegs.reset c).Lanes c.vecChunk := by
  simp [VecRegs.Lanes, VecRegs.reset]

/-- The state after reset meets the invariant (spec R43). -/
theorem resetOf_inv {c : Config} {m : Memory} (hc : c.Legal) (hm : m.wf) (hlt : ∀ d ∈ m, d.1 < c.memSize) :
    (State.resetOf c m).Inv := by
  have hpos : (0 : Word).toNat < 2 ^ c.sizeBits := Nat.two_pow_pos _
  exact ⟨hc, ⟨hm, hlt⟩, ⟨hpos, hpos, hpos, hpos, hpos, hpos, hpos⟩, vecRegs_reset_lanes c,
    ⟨fun _ => rfl, fun _ => ⟨rfl, rfl⟩, fun h => by cases h⟩, fun h => Bool.false_ne_true h.2, fun _ _ h => by cases h⟩

theorem State.Inv.resetEvent {s : State} (h : s.Inv) : s.resetEvent.Inv :=
  (resetOf_inv h.legal h.memOk.1 h.memOk.2).hostSide s.inputs s.hostReads

/-- Settles O20: every register is 0 after reset, STATUS.DONE among them, and the memory is the given one. -/
theorem invariantHoldsAtReset : Obligations.InvariantHoldsAtReset := by
  unfold Obligations.InvariantHoldsAtReset
  exact ⟨fun _ _ hc hm hlt => resetOf_inv hc hm hlt, resetOf_inv (by decide) (by decide) (by decide)⟩

/-- Settles O21, by cases on the move that the step is. -/
theorem everyStepKeepsInvariant : Obligations.EveryStepKeepsInvariant := by
  unfold Obligations.EveryStepKeepsInvariant
  intro s t h hstep
  have hside := fun rest => h.hostSide rest s.hostReads
  cases moves_of_step hstep with
  | run _ next => exact h.engineRun next
  | tick _ => exact (hside _).engineTick
  | reset _ => exact (hside _).resetEvent
  | regStore _ _ => exact (hside _).writeSlot _ _
  | regLoad _ _ => exact h.hostSide _ _
  | memStore _ reach => exact (hside _).writeBytes reach
  | memLoad _ _ => exact h.hostSide _ _
  | waited _ => exact hside _

end Sys2Proof.Machine
end

section
/-! SUPPORT. The register block under host accesses, the words STATUS and CAPS, and what no step or command changes. -/

namespace Sys2Proof.Machine

/-! ### The register block under host accesses -/

/-- While BUSY = 1 no slot takes a write (spec R35). -/
theorem writeSlot_of_busy {s : State} (h : s.busy = true) (off : Nat) (v : Word) : s.writeSlot off v = s := by
  rw [State.writeSlot, if_pos h]

/-- What one WR to a busy engine comes to (spec R35). -/
theorem step_wr_busy {s : State} {r : Reg} {v : Nat} {rest : List Input} (hb : s.busy = true)
    (hi : s.inputs = .host (HostOp.wr s.cfg r v) :: rest) : step s = .next { s with inputs := rest } :=
  (step_wr hi).trans (congrArg _ (writeSlot_of_busy (s := { s with inputs := rest }) hb _ _))

/-- A read-only register takes no write (spec R29 to R33). -/
theorem writeReg_of_readOnly (s : State) {r : Reg} (h : isReadOnlyReg r = true) (v : Word) : s.writeReg r v = s := by
  cases r with
  | cmd | srcAddr | srcLen | dstAddr | dstLen | argN => cases h
  | status | result | errIndex | errByte | caps => rfl

/-- A reserved slot takes no write (spec R34). -/
theorem writeSlot_of_reserved (s : State) {off : Nat} (h : regAt off = none) (v : Word) : s.writeSlot off v = s := by
  simp only [State.writeSlot, h, ite_self]

theorem readSlot_of_reserved (s : State) {off : Nat} (h : regAt off = none) : s.readSlot off = 0 := by
  simp only [State.readSlot, h]

theorem regOffset_le (r : Reg) : regOffset r ≤ 0x50 := by cases r <;> decide

/-- No register lies above CAPS (spec R34). -/
theorem regAt_of_above {off : Nat} (h : 0x50 < off) : regAt off = none := by
  refine List.find?_eq_none.mpr fun r _ => ?_
  have := regOffset_le r
  rw [beq_iff_eq]
  omega

/-- The offset of slot `k`, seen from the host's address (spec R21). -/
theorem slotOffset_slot (c : Config) {k : Nat} (h : k < 32) : slotOffset c (c.regBase + 8 * k) 8 = some (8 * k) := by
  rw [slotOffset, Nat.add_sub_cancel_left, if_pos (by omega)]

/-- What a register reads after a write of an operand register: that register the bits it keeps, every other one what it
read before (spec R22). -/
theorem readReg_writeReg (s : State) {r : Reg} (h : isOperandReg r = true) (v : Word) (q : Reg) :
    (s.writeReg r v).readReg q = if q = r then narrow s.cfg v else s.readReg q := by
  cases r with
  | cmd | status | result | errIndex | errByte | caps => cases h
  | srcAddr | srcLen | dstAddr | dstLen | argN => cases q <;> rfl

theorem writeReg_operand_phase (s : State) {r : Reg} (h : isOperandReg r = true) (v : Word) :
    (s.writeReg r v).phase = s.phase := by
  cases r with
  | cmd | status | result | errIndex | errByte | caps => cases h
  | srcAddr | srcLen | dstAddr | dstLen | argN => rfl

theorem readReg_inputs (s : State) (rest : List Input) (r : Reg) :
    State.readReg { s with inputs := rest } r = s.readReg r := by
  cases r <;> rfl

/-- A value register of a state of the invariant fits SIZE_BITS (spec R22). -/
theorem State.ValuesFit.readReg {s : State} (h : s.ValuesFit) {r : Reg} (hr : isValueReg r = true) :
    (s.readReg r).toNat < 2 ^ s.cfg.sizeBits := by
  obtain ⟨h1, h2, h3, h4, h5, h6, h7⟩ := h
  cases r with
  | cmd | status | errByte | caps => cases hr
  | srcAddr => exact h1
  | srcLen => exact h2
  | dstAddr => exact h3
  | dstLen => exact h4
  | argN => exact h5
  | result => exact h6
  | errIndex => exact h7

/-- Settles O7: the write is `State.startCommand` of the ready engine, with the low 32 bits of the value. -/
theorem cmdWriteStartsCommand : Obligations.CmdWriteStartsCommand := by
  unfold Obligations.CmdWriteStartsCommand
  intro s v rest hb hi
  have hstart : State.startCommand { s with inputs := rest } (BitVec.ofNat 64 v) =
      { s with inputs := rest, cmd := BitVec.ofNat 32 v, phase := .exec (BitVec.ofNat 32 v) [], done := false } := by
    simp only [State.startCommand, setWidth_ofNat_word]
  exact ⟨_, (step_wr_ready hb hi).trans (congrArg _ hstart), rfl, rfl, rfl⟩

/-- Settles O9: a register keeps `narrow` of what is written, and the invariant bounds what each one holds. -/
theorem valueRegistersHoldSizeBits : Obligations.ValueRegistersHoldSizeBits := by
  unfold Obligations.ValueRegistersHoldSizeBits
  refine ⟨fun s r v rest hb hr hi => ⟨_, step_wr_ready hb hi, ?_, fun q hq => ?_, ?_⟩,
    fun s r h hr => h.valuesFit.readReg hr⟩
  · rw [readReg_writeReg _ hr, if_pos rfl, narrow_ofNat]
  · rw [readReg_writeReg _ hr, if_neg hq, readReg_inputs]
  · simp [writeReg_operand_phase _ hr]

/-- Settles O12: the slots from 11 on lie above CAPS, so no register is at their offsets. -/
theorem reservedSlotsReadZero : Obligations.ReservedSlotsReadZero := by
  unfold Obligations.ReservedSlotsReadZero
  intro s k bytes rest hlo hhi hlen
  have hslot := slotOffset_slot s.cfg hhi
  have hstore : slotOffset s.cfg (s.cfg.regBase + 8 * k) bytes.length = some (8 * k) := by rw [hlen, hslot]
  have hnone : regAt (8 * k) = none := regAt_of_above (by omega)
  refine ⟨fun hi => ?_, fun hi => ?_⟩
  · rw [step_regStore hi hstore, writeSlot_of_reserved _ hnone]
  · rw [step_regLoad hi hslot, readSlot_of_reserved _ hnone]
    rfl

/-- Settles O13: busy or not, the slot of a read-only register takes no write. -/
theorem readOnlyRegistersIgnoreWrites : Obligations.ReadOnlyRegistersIgnoreWrites := by
  unfold Obligations.ReadOnlyRegistersIgnoreWrites
  intro s r v rest hr hi
  cases hb : s.busy with
  | true => exact step_wr_busy hb hi
  | false => rw [step_wr_ready hb hi, writeReg_of_readOnly _ hr]

/-! ### Moves of the engine -/

theorem initStep_frame (left : Nat) (s : State) : ∃ p, initStep left s = { s with phase := p } := by
  cases left with
  | zero => exact ⟨.idle, rfl⟩
  | succ n => exact ⟨.init n, rfl⟩

/-- An engine step that leaves BUSY is an access, which leaves what a completion records (spec R36). -/
theorem tick_busy_outcome (p : Algorithm) : ∀ s : State, (p.tick s).busy = true →
    (p.tick s).done = s.done ∧ (p.tick s).kind = s.kind ∧ (p.tick s).result = s.result ∧
    (p.tick s).errIndex = s.errIndex ∧ (p.tick s).errByte = s.errByte := by
  induction p with
  | read a next ih => intro s _; simp [Algorithm.tick]
  | write a v next ih => intro s _; simp [Algorithm.tick]
  | vector v next ih => exact fun s h => ih (s.setVec v) h
  | complete c => exact fun s h => absurd h Bool.false_ne_true

/-- Settles O8: a slot of a busy engine takes no write, and the frame of each move of the engine says the rest. -/
theorem busyEngineKeepsRegisters : Obligations.BusyEngineKeepsRegisters := by
  unfold Obligations.BusyEngineKeepsRegisters
  refine ⟨fun s r v rest hb hi => step_wr_busy hb hi, fun s r rest hi => step_rd hi, fun s => ?_, fun s t h => ?_,
    fun s h => ?_⟩
  · obtain ⟨hcmd, hops, -⟩ := engineTick_frame s
    exact ⟨hcmd, hops⟩
  · obtain ⟨u, hu, hcmd, hops, -⟩ := engineRun_frame s
    rw [h] at hu
    cases hu
    exact ⟨hcmd, hops⟩
  · cases hp : s.phase with
    | init left =>
      obtain ⟨p, he⟩ := initStep_frame left s
      simp only [engineTick, hp, he, and_self]
    | idle => simp only [engineTick, hp, and_self]
    | exec w trace =>
      have hbusy := h.resolve_right fun hne => hne w trace hp
      simp only [engineTick, hp] at hbusy ⊢
      exact tick_busy_outcome _ s hbusy

/-- Settles O5: with no input pending `step` is `engineRun`, which runs the algorithm of the started word. -/
theorem stepRunsDecodedCommand : Obligations.StepRunsDecodedCommand := by
  unfold Obligations.StepRunsDecodedCommand
  have started : ∀ (s : State) (w : CmdWord) (i : Instr), s.Started w → decode w = .command i → s.inputs = [] →
      step s = exec i s := by
    intro s w i hs hw hi
    rw [step_of_no_input hi, engineRun_exec hs, wordAlgorithm_command hw, exec_eq]
    rfl
  refine ⟨started, fun s i => started _ (encode i) i ?_ (decode_encode i) rfl, fun s rest hi => step_of_input hi⟩
  have hword : BitVec.ofNat 32 ((encode i).toNat % 2 ^ 32) = encode i := by
    rw [Nat.mod_eq_of_lt (encode i).isLt, BitVec.ofNat_toNat, BitVec.setWidth_eq]
  simp only [State.Started, State.withFetchWord, hword]

/-! ### STATUS and CAPS -/

/-- The value of STATUS from its fields (spec R29). -/
theorem statusWord_toNat (s : State) : s.statusWord.toNat =
    (if s.busy then 1 else 0) + 2 * (if s.done then 1 else 0) + 16 * s.kind.code.toNat := by
  unfold State.statusWord
  generalize s.kind.code = k
  cases s.done <;> cases s.busy <;> revert k <;> decide

/-- Settles O10: the value of STATUS from its fields, with BUSY read off the phase. -/
theorem statusWordFields : Obligations.StatusWordFields := by
  unfold Obligations.StatusWordFields
  intro s
  refine ⟨statusWord_toNat s, ?_, ?_, fun h hb => ?_⟩
  · unfold State.busy
    cases s.phase <;> simp [Phase.busy]
  · cases s.kind <;> rfl
  · simpa [hb] using h.not_busy_done

/-- CAPS is read off the configuration (spec R33). -/
theorem capsWord_congr {s t : State} (h : t.cfg = s.cfg) : t.capsWord = s.capsWord := by
  simp only [State.capsWord, h]

theorem step_cfg {s t : State} (h : step s = .next t) : t.cfg = s.cfg := by
  cases moves_of_step h with
  | run _ next =>
    obtain ⟨u, hu, -, -, hcfg⟩ := engineRun_frame s
    rw [next] at hu
    cases hu
    exact hcfg
  | tick _ =>
    obtain ⟨-, -, hcfg, -⟩ := engineTick_frame { s with inputs := _ }
    exact hcfg
  | reset _ => rfl
  | regStore _ _ => exact State.writeSlot_cfg _ _ _
  | regLoad _ _ | memStore _ _ | memLoad _ _ | waited _ => rfl

/-- Settles O22, by cases on the move that the step is. -/
theorem configurationNeverChanges : Obligations.ConfigurationNeverChanges := by
  unfold Obligations.ConfigurationNeverChanges
  exact fun s t h => step_cfg h

/-- Settles O11: CAPS is the configuration, which no step changes. -/
theorem capsIsHardwired : Obligations.CapsIsHardwired := by
  unfold Obligations.CapsIsHardwired
  refine ⟨fun s => ?_, fun s t h => capsWord_congr (step_cfg h), fun s => capsWord_congr s.resetEvent_cfg⟩
  unfold State.capsWord Config.sizeBits Config.vecChunk
  cases s.cfg.backend <;> cases s.cfg.size <;> decide

/-- Settles O18: the registers of the state after reset, one by one. -/
theorem resetStateValues : Obligations.ResetStateValues := by
  unfold Obligations.ResetStateValues
  intro c m
  refine ⟨fun r hs hc => ?_, BitVec.eq_of_toNat_eq (statusWord_toNat _), rfl, rfl, ⟨c.initSteps, rfl⟩, rfl⟩
  cases r with
  | status => exact absurd rfl hs
  | caps => exact absurd rfl hc
  | cmd | srcAddr | srcLen | dstAddr | dstLen | argN | result | errIndex | errByte => rfl

/-! ### What no command changes -/

/-- Every command but HEX.DEC loads no chunk on any path (spec R145, R170). -/
theorem algorithmOf_loads_no_chunk {i : Instr} (h : i ≠ .dec) (c : Config) (o : Operands) :
    (algorithmOf i c o).All (fun _ => True) (fun _ => True) (fun _ => False) (fun _ => True) := by
  have enc : ∀ alphabet, (encAlgorithm alphabet c o).All (fun _ => True) (fun _ => True) (fun _ => False)
      (fun _ => True) := by
    intro alphabet
    refine .checkRegions trivial trivial fun _ _ _ => ?_
    split
    · trivial
    · refine encodeLoop_all ?_ _ _ (fun _ _ _ => trivial) fun _ _ _ => trivial
      trivial
  cases i with
  | dec => exact absurd rfl h
  | dlen =>
    simp only [algorithmOf, dlenAlgorithm]
    split <;> trivial
  | elen =>
    simp only [algorithmOf, elenAlgorithm]
    split <;> trivial
  | deca =>
    refine .checkRegions trivial trivial fun _ _ _ => ?_
    split
    · trivial
    · split
      · trivial
      · rename_i hlen
        exact scalarDecode_all (not_not.mp hlen).le trivial (fun _ _ => trivial) (fun _ _ => trivial)
          fun _ _ _ _ => trivial
  | decip =>
    simp only [algorithmOf, decipAlgorithm]
    split
    · trivial
    · split
      · trivial
      · refine validateLoop_all (inPlaceLoop_all ?_ _ _ (fun _ _ _ => trivial) fun _ _ _ => trivial) _ _
          (fun _ _ _ => trivial) fun _ _ _ _ => trivial
        trivial
  | encU => exact enc alphaUpper
  | encL => exact enc alphaLower

/-- Settles O24: a run changes only memory, vector registers and what a completion records; the paths of the command say
which bytes it writes and whether it loads a chunk. -/
theorem commandFrame : Obligations.CommandFrame := by
  unfold Obligations.CommandFrame
  intro i s t h
  rw [exec_eq] at h
  cases h
  obtain ⟨m, v, k, hrun, -, -, hmem, -⟩ := Algorithm.run_all (algorithmOf_all i s.cfg s.operands) s
  have hvec : i ≠ .dec → v = s.vec := by
    intro hi
    obtain ⟨m', v', k', hrun', -, hv', -⟩ := Algorithm.run_all (algorithmOf_loads_no_chunk hi s.cfg s.operands) s
    rw [hrun'] at hrun
    exact (congrArg State.vec hrun).symm.trans (hv'.resolve_right id)
  rw [hrun]
  exact ⟨rfl, rfl, rfl, rfl, rfl, rfl, rfl, rfl, rfl, hvec, fun a ha => hmem a fun hw => ha hw.1⟩

end Sys2Proof.Machine
end

section
/-! SUPPORT. Where each command leads once its checks have passed: what it reads and writes, in order, and how it
ends. -/

namespace Sys2Proof.Machine

/-! ### Past the checks -/

section Passed

variable {s : State}

/-- HEX.DEC past its checks is its decode engine (spec R125). -/
theorem algorithmOf_dec_passed (hs : s.operands.src.InRange s.cfg.memSize) (hd : s.operands.dst.InRange s.cfg.memSize)
    (hlap : ¬ Region.Overlap s.operands.src s.operands.dst) (heven : s.srcLen.toNat % 2 = 0)
    (hcap : s.srcLen.toNat / 2 ≤ s.dstLen.toNat) :
    algorithmOf .dec s.cfg s.operands =
      decodeEngine s.cfg s.srcAddr.toNat s.srcLen.toNat s.dstAddr.toNat s.dstLen.toNat fun r =>
        .complete r.completion := by
  have hodd : ¬ s.operands.srcLen % 2 = 1 := fun h => absurd (heven.symm.trans h) (by decide)
  have hsmall : ¬ s.operands.dstLen < s.operands.srcLen / 2 := not_lt.mpr hcap
  simp only [algorithmOf, decAlgorithm, checkRegions_pass _ hs hd hlap, if_neg hodd, if_neg hsmall]
  rfl

/-- HEX.DECA past its checks is the scalar engine (spec R171). -/
theorem algorithmOf_deca_passed (hs : s.operands.src.InRange s.cfg.memSize)
    (hd : s.operands.array.InRange s.cfg.memSize) (hlap : ¬ Region.Overlap s.operands.src s.operands.array)
    (heven : s.srcLen.toNat % 2 = 0) (hlen : s.srcLen.toNat / 2 = s.argN.toNat) :
    algorithmOf .deca s.cfg s.operands =
      scalarDecode s.srcAddr.toNat s.srcLen.toNat s.dstAddr.toNat s.argN.toNat 0 fun r => .complete r.completion := by
  have hodd : ¬ s.operands.srcLen % 2 = 1 := fun h => absurd (heven.symm.trans h) (by decide)
  have hfits : ¬ s.operands.srcLen / 2 ≠ s.operands.argN := not_not.mpr hlen
  simp only [algorithmOf, decaAlgorithm, checkRegions_pass _ hs hd hlap, if_neg hodd, if_neg hfits]
  rfl

/-- HEX.DECIP past its checks is its two passes (spec R142). -/
theorem algorithmOf_decip_passed (hs : s.operands.src.InRange s.cfg.memSize) (heven : s.srcLen.toNat % 2 = 0) :
    algorithmOf .decip s.cfg s.operands =
      validateLoop s.srcAddr.toNat (fun i b => .complete (.invalidByte i b))
        (inPlaceLoop s.srcAddr.toNat (.complete (.ok (s.srcLen.toNat / 2))) (s.srcLen.toNat / 2) 0)
        (s.srcLen.toNat / 2) 0 := by
  have hodd : ¬ s.operands.srcLen % 2 = 1 := fun h => absurd (heven.symm.trans h) (by decide)
  simp only [algorithmOf, decipAlgorithm, if_neg (not_not.mpr hs), if_neg hodd]
  rfl

/-- HEX.ENC past its checks is its loop (spec R182). -/
theorem encAlgorithm_passed (alphabet : List Byte) (hs : s.operands.src.InRange s.cfg.memSize)
    (hd : s.operands.dst.InRange s.cfg.memSize) (hlap : ¬ Region.Overlap s.operands.src s.operands.dst)
    (hcap : 2 * s.srcLen.toNat ≤ s.dstLen.toNat) :
    encAlgorithm alphabet s.cfg s.operands =
      encodeLoop alphabet s.srcAddr.toNat s.dstAddr.toNat (.complete (.ok (2 * s.srcLen.toNat))) s.srcLen.toNat 0 := by
  have hsmall : ¬ s.operands.dstLen < 2 * s.operands.srcLen := not_lt.mpr hcap
  rw [encAlgorithm, checkRegions_pass _ hs hd hlap, if_neg hsmall]
  rfl

/-! ### Where each command leads -/

/-- The source and the destination of HEX.DEC are apart, byte by byte (spec R52, R125). -/
theorem text_apart_dst (hlap : ¬ Region.Overlap s.operands.src s.operands.dst) {n : Nat} (hn : n ≤ s.dstLen.toNat) :
    ∀ i k, i < s.srcLen.toNat → k < n → s.srcAddr.toNat + i ≠ s.dstAddr.toNat + k :=
  fun _ _ hi hk => not_overlap hlap hi (lt_of_lt_of_le hk hn)

/-- HEX.DEC on a valid text (spec R125, R127). -/
theorem dec_leads_ok (hs : s.operands.src.InRange s.cfg.memSize) (hd : s.operands.dst.InRange s.cfg.memSize)
    (hlap : ¬ Region.Overlap s.operands.src s.operands.dst) (heven : s.srcLen.toNat % 2 = 0)
    (hcap : s.srcLen.toNat / 2 ≤ s.dstLen.toNat) (hx : AllHex s.text s.srcLen.toNat) :
    ∃ v, (algorithmOf .dec s.cfg s.operands).Leads s.mem (readsFrom s.srcAddr.toNat s.srcLen.toNat)
      (writesFrom s.dstAddr.toNat (s.srcLen.toNat / 2) (decodedByte s.text)) v
      (.complete (.ok (s.srcLen.toNat / 2))) := by
  rw [algorithmOf_dec_passed hs hd hlap heven hcap]
  exact decodeEngine_leads_ok (fun r => .complete r.completion) heven hcap (fun _ _ => rfl) hx
    (text_apart_dst hlap hcap)

/-- HEX.DEC on a text with an invalid character (spec R126). -/
theorem dec_leads_bad {i : Nat} (hs : s.operands.src.InRange s.cfg.memSize)
    (hd : s.operands.dst.InRange s.cfg.memSize) (hlap : ¬ Region.Overlap s.operands.src s.operands.dst)
    (heven : s.srcLen.toNat % 2 = 0) (hcap : s.srcLen.toNat / 2 ≤ s.dstLen.toNat)
    (hx : FirstInvalid s.text s.srcLen.toNat i) :
    ∃ v, (algorithmOf .dec s.cfg s.operands).Leads s.mem
      (readsFrom s.srcAddr.toNat (decReads s.cfg.vecChunk s.srcLen.toNat i))
      (writesFrom s.dstAddr.toNat (decPrefix s.cfg.vecChunk s.srcLen.toNat i) (decodedByte s.text)) v
      (.complete (.invalidByte i (s.text i))) := by
  rw [algorithmOf_dec_passed hs hd hlap heven hcap]
  exact decodeEngine_leads_bad (fun r => .complete r.completion) heven hcap (fun _ _ => rfl) hx
    (text_apart_dst hlap hcap)

/-- HEX.DECA on a valid text (spec R171). -/
theorem deca_leads_ok (hs : s.operands.src.InRange s.cfg.memSize) (hd : s.operands.array.InRange s.cfg.memSize)
    (hlap : ¬ Region.Overlap s.operands.src s.operands.array) (heven : s.srcLen.toNat % 2 = 0)
    (hlen : s.srcLen.toNat / 2 = s.argN.toNat) (hx : AllHex s.text s.srcLen.toNat) :
    (algorithmOf .deca s.cfg s.operands).Leads s.mem (readsFrom s.srcAddr.toNat s.srcLen.toNat)
      (writesFrom s.dstAddr.toNat (s.srcLen.toNat / 2) (decodedByte s.text)) none
      (.complete (.ok (s.srcLen.toNat / 2))) := by
  rw [algorithmOf_deca_passed hs hd hlap heven hlen, ← readsAt_zero, ← writesAt_zero]
  exact scalarDecode_leads_ok (fun r => .complete r.completion) heven hlen.le (fun _ _ => rfl) hx
    fun _ _ hi hk => not_overlap hlap hi (lt_of_lt_of_le hk hlen.le)

/-- HEX.DECA on a text with an invalid character (spec R172). -/
theorem deca_leads_bad {i : Nat} (hs : s.operands.src.InRange s.cfg.memSize)
    (hd : s.operands.array.InRange s.cfg.memSize) (hlap : ¬ Region.Overlap s.operands.src s.operands.array)
    (heven : s.srcLen.toNat % 2 = 0) (hlen : s.srcLen.toNat / 2 = s.argN.toNat)
    (hx : FirstInvalid s.text s.srcLen.toNat i) :
    (algorithmOf .deca s.cfg s.operands).Leads s.mem (readsFrom s.srcAddr.toNat ((i / 2 + 1) * 2))
      (writesFrom s.dstAddr.toNat (i / 2) (decodedByte s.text)) none (.complete (.invalidByte i (s.text i))) := by
  rw [algorithmOf_deca_passed hs hd hlap heven hlen, ← readsAt_zero, ← writesAt_zero]
  have := scalarDecode_leads_bad (off := 0) (fun r => .complete r.completion) heven hlen.le (fun _ _ => rfl) hx
    fun _ _ hi hk => not_overlap hlap hi (lt_of_lt_of_le hk hlen.le)
  rwa [Nat.zero_add] at this

/-- HEX.DECIP on a valid buffer: the validation pass, then the decode pass (spec R140 to R142). -/
theorem decip_leads_ok (hs : s.operands.src.InRange s.cfg.memSize) (heven : s.srcLen.toNat % 2 = 0)
    (hx : AllHex s.text s.srcLen.toNat) :
    (algorithmOf .decip s.cfg s.operands).Leads s.mem
      (readsFrom s.srcAddr.toNat s.srcLen.toNat ++ readsFrom s.srcAddr.toNat s.srcLen.toNat)
      (writesFrom s.srcAddr.toNat (s.srcLen.toNat / 2) (decodedByte s.text)) none
      (.complete (.ok (s.srcLen.toNat / 2))) := by
  rw [algorithmOf_decip_passed hs heven, ← readsAt_zero, ← writesAt_zero]
  have htwice : 2 * (s.srcLen.toNat / 2) = s.srcLen.toNat := by omega
  have hchecked := validateLoop_leads_ok s.srcAddr.toNat (fun i b => .complete (.invalidByte i b))
    (inPlaceLoop s.srcAddr.toNat (.complete (.ok (s.srcLen.toNat / 2))) (s.srcLen.toNat / 2) 0) s.mem
    (s.srcLen.toNat / 2) 0 fun i _ hi => hx i (by omega)
  have hdecoded := inPlaceLoop_leads s.srcAddr.toNat (.complete (.ok (s.srcLen.toNat / 2))) s.text
    (s.srcLen.toNat / 2) 0 s.mem fun i _ hi => ⟨rfl, hx i (by omega)⟩
  have := hchecked.trans hdecoded
  rwa [htwice] at this

/-- HEX.DECIP on a buffer with an invalid character: the validation pass ends at it (spec R140, R142). -/
theorem decip_leads_bad {i : Nat} (hs : s.operands.src.InRange s.cfg.memSize) (heven : s.srcLen.toNat % 2 = 0)
    (hx : FirstInvalid s.text s.srcLen.toNat i) :
    (algorithmOf .decip s.cfg s.operands).Leads s.mem (readsFrom s.srcAddr.toNat ((i / 2 + 1) * 2)) [] none
      (.complete (.invalidByte i (s.text i))) := by
  rw [algorithmOf_decip_passed hs heven, ← readsAt_zero, Nat.mul_comm]
  obtain ⟨hlt, hbad, hok⟩ := hx
  exact validateLoop_leads_bad s.srcAddr.toNat (fun i b => .complete (.invalidByte i b)) _ s.mem i hbad
    (s.srcLen.toNat / 2) 0 (by omega) (by omega) fun j _ hj => hok j hj

/-- HEX.ENC with either alphabet (spec R182, R183). -/
theorem enc_leads (alphabet : List Byte) (hs : s.operands.src.InRange s.cfg.memSize)
    (hd : s.operands.dst.InRange s.cfg.memSize) (hlap : ¬ Region.Overlap s.operands.src s.operands.dst)
    (hcap : 2 * s.srcLen.toNat ≤ s.dstLen.toNat) :
    (encAlgorithm alphabet s.cfg s.operands).Leads s.mem (readsFrom s.srcAddr.toNat s.srcLen.toNat)
      (writesFrom s.dstAddr.toNat (2 * s.srcLen.toNat) (encodedChar alphabet s.text)) none
      (.complete (.ok (2 * s.srcLen.toNat))) := by
  rw [encAlgorithm_passed alphabet hs hd hlap hcap, ← readsAt_zero, ← writesAt_zero]
  exact encodeLoop_leads alphabet _ _ _ s.text _ 0 s.mem (fun _ _ _ => rfl)
    fun i j _ hi _ hj => text_apart_dst hlap hcap i j (by omega) (by omega)

/-- A length command completes at once (spec R100, R103). -/
theorem dlen_completes (c : Config) (o : Operands) : ∃ k, algorithmOf .dlen c o = .complete k := by
  simp only [algorithmOf, dlenAlgorithm]
  split
  · exact ⟨_, rfl⟩
  · exact ⟨_, rfl⟩

theorem elen_completes (c : Config) (o : Operands) : ∃ k, algorithmOf .elen c o = .complete k := by
  simp only [algorithmOf, elenAlgorithm]
  split
  · exact ⟨_, rfl⟩
  · exact ⟨_, rfl⟩

end Passed

/-- Settles O57: the writes of each command are those of where it leads. -/
theorem commandWritesAscend : Obligations.CommandWritesAscend := by
  unfold Obligations.CommandWritesAscend
  intro s
  obtain ⟨_, hdlen⟩ := dlen_completes s.cfg s.operands
  obtain ⟨_, helen⟩ := elen_completes s.cfg s.operands
  refine ⟨congrArg (·.writes s.mem) hdlen, congrArg (·.writes s.mem) helen,
    fun hs heven => ⟨fun hx => (decip_leads_ok hs heven hx).writes_eq,
      fun _ hx => (decip_leads_bad hs heven hx).writes_eq⟩,
    fun hs hd hlap heven hcap => ⟨fun hx => ?_, fun _ hx => ?_⟩,
    fun hs hd hlap heven hlen => ⟨fun hx => (deca_leads_ok hs hd hlap heven hlen hx).writes_eq,
      fun _ hx => (deca_leads_bad hs hd hlap heven hlen hx).writes_eq⟩,
    fun hs hd hlap hcap => ⟨(enc_leads alphaUpper hs hd hlap hcap).writes_eq,
      (enc_leads alphaLower hs hd hlap hcap).writes_eq⟩⟩
  · obtain ⟨_, h⟩ := dec_leads_ok hs hd hlap heven hcap hx
    exact h.writes_eq
  · obtain ⟨_, h⟩ := dec_leads_bad hs hd hlap heven hcap hx
    exact h.writes_eq

/-- Settles O58: the reads of each command are those of where it leads. -/
theorem commandReadsAscend : Obligations.CommandReadsAscend := by
  unfold Obligations.CommandReadsAscend
  intro s
  obtain ⟨_, hdlen⟩ := dlen_completes s.cfg s.operands
  obtain ⟨_, helen⟩ := elen_completes s.cfg s.operands
  refine ⟨congrArg (·.reads s.mem) hdlen, congrArg (·.reads s.mem) helen,
    fun hs heven => ⟨fun hx => (decip_leads_ok hs heven hx).reads_eq,
      fun _ hx => (decip_leads_bad hs heven hx).reads_eq⟩,
    fun hs hd hlap heven hcap => ⟨fun hx => ?_, fun _ hx => ?_⟩,
    fun hs hd hlap heven hlen => ⟨fun hx => (deca_leads_ok hs hd hlap heven hlen hx).reads_eq,
      fun _ hx => (deca_leads_bad hs hd hlap heven hlen hx).reads_eq⟩,
    fun hs hd hlap hcap => ⟨(enc_leads alphaUpper hs hd hlap hcap).reads_eq,
      (enc_leads alphaLower hs hd hlap hcap).reads_eq⟩⟩
  · obtain ⟨_, h⟩ := dec_leads_ok hs hd hlap heven hcap hx
    exact h.reads_eq
  · obtain ⟨_, h⟩ := dec_leads_bad hs hd hlap heven hcap hx
    exact h.reads_eq

end Sys2Proof.Machine
end

section
/-! SUPPORT. The host's waits, its accesses to data memory, and the register accesses that are refused. -/

namespace Sys2Proof.Machine

/-- POLL waits for DONE (spec R83). -/
theorem step_poll {s : State} {rest : List Input} (h : s.inputs = .host .poll :: rest) :
    step s = if s.done = true then .next { s with inputs := rest } else engineRun s := by
  rw [step_of_input h, takeInput, State.statusWord_done, hostWait]

/-- The wait of R234 is for BUSY = 0. -/
theorem step_pollReady {s : State} {rest : List Input} (h : s.inputs = .host .pollReady :: rest) :
    step s = if s.busy = false then .next { s with inputs := rest } else engineRun s := by
  rw [step_of_input h, takeInput, State.statusWord_busy, hostWait]
  simp only [Bool.not_eq_true']

/-- What an MW comes to (spec R50, R83). -/
theorem step_memStore {s : State} {a : Nat} {bytes : List Byte} {rest : List Input}
    (h : s.inputs = .host (.memStore a bytes) :: rest) :
    step s = if hostReach s.cfg a bytes.length then .next { s with inputs := rest, mem := s.mem.writeBytes a bytes }
      else .fault (.noSuchAddress a) := step_of_input h

/-- What an MR comes to (spec R50, R83). -/
theorem step_memLoad {s : State} {a len : Nat} {rest : List Input} (h : s.inputs = .host (.memLoad a len) :: rest) :
    step s = if hostReach s.cfg a len then
        .next { s with inputs := rest, hostReads := .mem a (s.mem.readBytes a len) :: s.hostReads }
      else .fault (.noSuchAddress a) := step_of_input h

/-- Settles O15: an access reaches data memory exactly when its end does, unless it is of no byte. -/
theorem hostMemoryAccess : Obligations.HostMemoryAccess := by
  unfold Obligations.HostMemoryAccess
  intro s a rest
  have outside : ∀ {len : Nat}, 0 < len → s.cfg.memSize < a + len → ¬ hostReach s.cfg a len := by
    rintro len hpos hout (hnil | hin)
    · omega
    · omega
  refine ⟨fun bytes h hin => ?_, fun bytes h hne hout => ?_, fun len h hin => ?_, fun len h hpos hout => ?_⟩
  · exact ⟨_, (step_memStore h).trans (if_pos (.inr hin)), fun x => Memory.read_writeBytes bytes s.mem a x⟩
  · exact (step_memStore h).trans (if_neg (outside (List.length_pos_iff.mpr hne) hout))
  · obtain ⟨hlen, hread⟩ := s.mem.readBytes_spec len a
    exact ⟨_, hlen, hread, (step_memLoad h).trans (if_pos (.inr hin))⟩
  · exact (step_memLoad h).trans (if_neg (outside hpos hout))

/-- Settles O14: such an access has no slot, and without one both accesses are refused. -/
theorem partialRegisterAccessRefused : Obligations.PartialRegisterAccessRefused := by
  unfold Obligations.PartialRegisterAccessRefused
  intro s addr rest
  refine ⟨fun bytes hslot h => ?_, fun len hslot h => ?_⟩
  · have hnone : slotOffset s.cfg addr bytes.length = none := if_neg hslot
    simp only [step_of_input h, takeInput, hostRegStore, hnone]
  · have hnone : slotOffset s.cfg addr len = none := if_neg hslot
    simp only [step_of_input h, takeInput, hostRegLoad, hnone]

end Sys2Proof.Machine
end

section
/-! SUPPORT. A command run access by access: what each move of the engine does to the algorithm that is left. -/

namespace Sys2Proof.Machine

/-! ### One access of an algorithm -/

/-- Writes made in two parts, one after the other. -/
theorem Memory.applyWrites_append (m : Memory) (ws vs : List (Nat × Byte)) :
    m.applyWrites (ws ++ vs) = (m.applyWrites ws).applyWrites vs := List.foldl_append

/-- A run leaves memory as its writes make it, in their order (spec R57). -/
theorem Algorithm.run_mem (p : Algorithm) : ∀ s : State, (p.run s).mem = s.mem.applyWrites (p.writes s.mem) := by
  induction p with
  | read a next ih => exact fun s => ih _ s
  | write a v next ih => exact fun s => ih (s.writeByte a v)
  | vector v next ih => exact fun s => ih (s.setVec v)
  | complete c => exact fun s => rfl

theorem Algorithm.run_phase_idle (p : Algorithm) (s : State) : (p.run s).phase = .idle := by
  obtain ⟨m, v, c, h⟩ := p.run_frame s
  rw [h]
  rfl

/-- Recording an access changes only the phase, which a run does not read. -/
theorem Algorithm.run_record (p : Algorithm) (s : State) (x : Access) : p.run (s.record x) = p.run s := by
  unfold State.record
  split
  · exact p.run_phase s _
  · rfl

/-- An access of the algorithm `p` turns the state `s` into `t` and leaves the algorithm `q`: what is left runs to where
`p` does, the accesses of `p` are one more than its own, and `ws`, the writes of `p` made by this one, are at most
one. -/
structure Algorithm.Accesses (p : Algorithm) (s : State) (ws : List (Nat × Byte)) (q : Algorithm) (t : State) :
    Prop where
  run : q.run t = p.run s
  accesses : p.accesses s.mem = q.accesses t.mem + 1
  writes : p.writes s.mem = ws ++ q.writes t.mem
  mem : t.mem = s.mem.applyWrites ws
  one : ws.length ≤ 1

/-- One engine step of an algorithm with no access left is its completion, the end of its run; else it is its next
access, which is added to the position (spec R57, R204). -/
theorem Algorithm.tick_cases (p : Algorithm) : ∀ {s : State} {w : CmdWord} {trace : List Access},
    s.phase = .exec w trace →
    (p.accesses s.mem = 0 ∧ p.writes s.mem = [] ∧ p.tick s = p.run s) ∨
    ∃ x ws, (p.tick s).phase = .exec w (trace ++ [x]) ∧ p.Accesses s ws (p.advance x) (p.tick s) := by
  induction p with
  | read a next ih =>
    intro s w trace hp
    refine .inr ⟨.got (s.readByte a), [], State.record_phase s _ hp, ?_⟩
    exact ⟨Algorithm.run_record _ _ _, by simp [tick, accesses, advance], by simp [tick, writes, advance],
      by simp [tick, Memory.applyWrites], by simp⟩
  | write a v next ih =>
    intro s w trace hp
    refine .inr ⟨.wrote, [(a, v)], State.record_phase (s.writeByte a v) _ hp, ?_⟩
    exact ⟨Algorithm.run_record _ _ _, by simp [tick, accesses, advance], by simp [tick, writes, advance],
      by simp [tick, Memory.applyWrites], by simp⟩
  | vector v next ih =>
    intro s w trace hp
    obtain hend | ⟨x, ws, hphase, ⟨hrun, hacc, hws, hmem, hone⟩⟩ := ih (s := s.setVec v) hp
    · exact .inl hend
    · exact .inr ⟨x, ws, hphase, ⟨hrun, hacc, hws, hmem, hone⟩⟩
  | complete c => exact fun _ => .inl ⟨rfl, rfl, rfl⟩

/-! ### The command that is executing -/

/-- The engine executes the word `w` and `p` is what is left of its algorithm (spec R40). -/
def State.Executes (s : State) (w : CmdWord) (p : Algorithm) : Prop :=
  ∃ trace, s.phase = .exec w trace ∧ (wordAlgorithm w s.cfg s.operands).resume trace = p

theorem State.Started.executes {s : State} {w : CmdWord} {i : Instr} (h : s.Started w) (hw : decode w = .command i) :
    s.Executes w (algorithmOf i s.cfg s.operands) := ⟨[], h, wordAlgorithm_command hw _ _⟩

theorem engineTick_exec {s : State} {w : CmdWord} {trace : List Access} (h : s.phase = .exec w trace) :
    engineTick s = ((wordAlgorithm w s.cfg s.operands).resume trace).tick s := by
  unfold engineTick
  rw [h]

namespace State.Executes

variable {s : State} {w : CmdWord} {p : Algorithm}

theorem busy (h : s.Executes w p) : s.busy = true := by
  obtain ⟨trace, hp, -⟩ := h
  rw [State.busy, hp]
  rfl

theorem engineRun_eq (h : s.Executes w p) : engineRun s = .next (p.run s) := by
  obtain ⟨trace, hp, rfl⟩ := h
  exact engineRun_exec hp

/-- One move of an executing engine: its completion, or an access after which it executes what is left. -/
theorem engineTick_cases (h : s.Executes w p) :
    (p.accesses s.mem = 0 ∧ p.writes s.mem = [] ∧ engineTick s = p.run s) ∨
    ∃ q ws, (engineTick s).Executes w q ∧ p.Accesses s ws q (engineTick s) := by
  obtain ⟨trace, hp, rfl⟩ := h
  obtain ⟨-, hops, hcfg, -⟩ := engineTick_frame s
  have hcases := Algorithm.tick_cases ((wordAlgorithm w s.cfg s.operands).resume trace) hp
  rw [← engineTick_exec hp] at hcases
  obtain hend | ⟨x, ws, hphase, hacc⟩ := hcases
  · exact .inl hend
  · refine .inr ⟨_, ws, ⟨_, hphase, ?_⟩, hacc⟩
    rw [hops, hcfg, Algorithm.resume_concat]

/-- After any number of its accesses the engine executes what is left, which runs to where the whole does; what is
written is the writes made so far (spec R57, R62). -/
theorem after_accesses (h : s.Executes w p) {k : Nat} (hk : k ≤ p.accesses s.mem) :
    ∃ q ws, (engineTicks k s).Executes w q ∧ q.run (engineTicks k s) = p.run s ∧
      p.accesses s.mem = q.accesses (engineTicks k s).mem + k ∧
      p.writes s.mem = ws ++ q.writes (engineTicks k s).mem ∧ (engineTicks k s).mem = s.mem.applyWrites ws := by
  induction k generalizing s p with
  | zero => exact ⟨p, [], h, rfl, rfl, rfl, rfl⟩
  | succ k ih =>
    obtain ⟨hnone, -⟩ | ⟨q, ws, hq, hacc⟩ := h.engineTick_cases
    · omega
    · have hcount := hacc.accesses
      obtain ⟨r, vs, hr, hrun, hleft, hwrites, hmem⟩ := ih hq (by omega)
      refine ⟨r, ws ++ vs, hr, hrun.trans hacc.run, ?_, ?_, ?_⟩
      · rw [engineTicks]
        omega
      · rw [hacc.writes, hwrites, List.append_assoc, engineTicks]
      · rw [engineTicks, hmem, hacc.mem, Memory.applyWrites_append]

end State.Executes

theorem engineTicks_add (s : State) (j k : Nat) : engineTicks (j + k) s = engineTicks k (engineTicks j s) := by
  induction j generalizing s with
  | zero => rw [Nat.zero_add, engineTicks]
  | succ j ih => rw [Nat.succ_add, engineTicks, engineTicks, ih]

/-- An idle engine makes no move (spec R40). -/
theorem engineTicks_idle {s : State} (h : s.phase = .idle) (k : Nat) : engineTicks k s = s := by
  induction k with
  | zero => rfl
  | succ k ih => rw [engineTicks, show engineTick s = s by simp only [engineTick, h], ih]

namespace State.Executes

variable {s : State} {w : CmdWord} {p : Algorithm}

/-- One move for each access that is left and one for the completion end the run (spec R62, R200). -/
theorem engineTicks_whole (h : s.Executes w p) : engineTicks (p.accesses s.mem + 1) s = p.run s := by
  obtain ⟨q, ws, hq, hrun, hcount, -⟩ := h.after_accesses le_rfl
  rw [engineTicks_add, ← hrun]
  obtain ⟨-, -, hend⟩ | ⟨r, vs, -, hacc⟩ := hq.engineTick_cases
  · exact hend
  · have := hacc.accesses
    omega

theorem engineTicks_busy (h : s.Executes w p) {k : Nat} (hk : k ≤ p.accesses s.mem) :
    (engineTicks k s).busy = true := by
  obtain ⟨q, ws, hq, -⟩ := h.after_accesses hk
  exact hq.busy

/-- What an executing engine has written after any number of moves is an initial part of its writes
(spec R232). -/
theorem engineTicks_mem (h : s.Executes w p) (k : Nat) :
    ∃ j ≤ (p.writes s.mem).length, (engineTicks k s).mem = s.mem.applyWrites ((p.writes s.mem).take j) := by
  rcases Nat.lt_or_ge (p.accesses s.mem) k with hk | hk
  · obtain ⟨n, rfl⟩ := Nat.exists_eq_add_of_le hk
    refine ⟨_, le_rfl, ?_⟩
    rw [engineTicks_add, Nat.succ_eq_add_one, h.engineTicks_whole, engineTicks_idle (p.run_phase_idle s),
      Algorithm.run_mem, List.take_length]
  · obtain ⟨q, ws, -, -, -, hwrites, hmem⟩ := h.after_accesses hk
    refine ⟨ws.length, ?_, ?_⟩
    · rw [hwrites, List.length_append]
      exact Nat.le_add_right _ _
    · rw [hmem, hwrites, List.take_left]

/-- Every initial part of its writes is what an executing engine has written at some time (spec R232): each move adds at
most one write. -/
theorem exists_engineTicks_mem (h : s.Executes w p) {j : Nat} (hj : j ≤ (p.writes s.mem).length) :
    ∃ k, (engineTicks k s).busy = true ∧
      (engineTicks k s).mem = s.mem.applyWrites ((p.writes s.mem).take j) := by
  generalize hn : p.accesses s.mem = n
  induction n generalizing s p j with
  | zero =>
    obtain ⟨-, hnil, -⟩ | ⟨q, ws, -, hacc⟩ := h.engineTick_cases
    · exact ⟨0, h.busy, by rw [hnil, List.take_nil]; rfl⟩
    · have := hacc.accesses
      omega
  | succ n ih =>
    obtain ⟨hnone, -⟩ | ⟨q, ws, hq, hacc⟩ := h.engineTick_cases
    · omega
    · rcases Nat.lt_or_ge j ws.length with hlt | hge
      · have hzero : j = 0 := by have := hacc.one; omega
        exact ⟨0, h.busy, by rw [hzero]; rfl⟩
      · have hlen := congrArg List.length hacc.writes
        rw [List.length_append] at hlen
        obtain ⟨k, hbusy, hmem⟩ := ih hq (j := j - ws.length) (by omega) (by have := hacc.accesses; omega)
        refine ⟨k + 1, hbusy, ?_⟩
        rw [hacc.writes, List.take_append, List.take_of_length_le hge, Memory.applyWrites_append, ← hacc.mem]
        exact hmem

end State.Executes

/-- Settles O47: after each access the engine executes what is left, which runs to where the whole does. -/
theorem accessByAccessReachesExec : Obligations.AccessByAccessReachesExec := by
  unfold Obligations.AccessByAccessReachesExec
  intro s w i hs hw
  have h := hs.executes hw
  refine ⟨by rw [exec_eq, h.engineTicks_whole], fun k hk => ⟨?_, h.engineTicks_busy hk⟩⟩
  obtain ⟨q, ws, hq, hrun, -⟩ := h.after_accesses hk
  rw [hq.engineRun_eq, hrun, exec_eq]

/-- Settles O49: a reset leaves memory, and what the engine had written then is an initial part of its writes, any of
them. -/
theorem resetLeavesAPrefixOfTheWrites : Obligations.ResetLeavesAPrefixOfTheWrites := by
  unfold Obligations.ResetLeavesAPrefixOfTheWrites
  intro s w i hs hw
  have h := hs.executes hw
  exact ⟨fun k => ⟨rfl, rfl, rfl, rfl, rfl, rfl, h.engineTicks_mem k⟩, fun j hj => h.exists_engineTicks_mem hj⟩

/-- A word that decodes meets the conditions of R74. -/
theorem legal_of_decode {w : CmdWord} {i : Instr} (h : decode w = .command i) : w.Legal := by
  rw [(decode_eq_command_iff w i).mp h]
  cases i <;> decide

/-- A word that is not legal completes at once with FAULT_ILLEGAL (spec R74, R206). -/
theorem wordAlgorithm_illegal {w : CmdWord} (h : ¬ w.Legal) (c : Config) (o : Operands) :
    wordAlgorithm w c o = .complete .faultIllegal := by
  unfold wordAlgorithm
  cases hw : decode w with
  | command i => exact absurd (legal_of_decode hw) h
  | illegal e => rfl

/-- Settles O6: each wait is `hostWait` on its STATUS bit, and each phase says what the engine left alone does. -/
theorem waitsLetTheEngineRun : Obligations.WaitsLetTheEngineRun := by
  unfold Obligations.WaitsLetTheEngineRun
  intro s
  refine ⟨fun rest => ⟨fun hi hd => ?_, fun hi hb => ?_, fun hi hd => ?_, fun hi hb => ?_⟩, step_of_no_input,
    fun hp => ?_, fun n hp => ?_, fun hp => ?_, fun w i hs hw => ?_, fun w hs hw => ?_, fun w trace hp => ?_⟩
  · rw [step_poll hi, if_pos hd]
  · rw [step_pollReady hi, if_pos hb]
  · rw [step_poll hi, if_neg (Bool.not_eq_true _ ▸ hd)]
  · rw [step_pollReady hi, if_neg (Bool.not_eq_false _ ▸ hb)]
  · simp only [engineRun, hp, initStep]
  · simp only [engineRun, hp, initStep]
  · simp only [engineRun, hp]
  · rw [(hs.executes hw).engineRun_eq, exec_eq]
  · rw [engineRun_exec hs, wordAlgorithm_illegal hw]
    rfl
  · have h : s.Executes w _ := ⟨trace, hp, rfl⟩
    refine ⟨_, ?_, ?_, fun k hk => h.engineTicks_busy hk⟩
    · rw [h.engineTicks_whole, h.engineRun_eq]
    · rw [h.engineTicks_whole]
      exact Algorithm.run_phase_idle _ s

end Sys2Proof.Machine
end

section
/-! SUPPORT. What a command reads and writes, and what another agent's access to memory does to it: its source, bytes
outside its regions, and raced bytes. -/

namespace Sys2Proof.Machine

/-! ### The source of a command -/

/-- The checks on the regions end the command, or the regions share no address (spec R207, R208). -/
theorem checkRegions_completes_or_apart (c : Config) (src dst : Region) (next : Algorithm) :
    (∃ k, checkRegions c src dst next = .complete k) ∨
      ∀ a, src.addr ≤ a ∧ a < src.addr + src.len → ¬ (dst.addr ≤ a ∧ a < dst.addr + dst.len) := by
  by_cases hrange : src.InRange c.memSize ∧ dst.InRange c.memSize
  · by_cases hlap : Region.Overlap src dst
    · exact .inl ⟨_, checkRegions_overlap next hrange.1 hrange.2 hlap⟩
    · refine .inr fun a hr hw => hlap ?_
      rw [Region.Overlap]
      omega
  · exact .inl ⟨_, checkRegions_range next hrange⟩

/-- Every command but HEX.DECIP completes at once, or no byte of its source is one it may write (spec R57, R207,
R208). -/
theorem completes_or_source_apart {i : Instr} (h : i ≠ .decip) (c : Config) (o : Operands) :
    (∃ k, algorithmOf i c o = .complete k) ∨ ∀ a, mayRead i o a → ¬ mayWrite i o a := by
  cases i with
  | decip => exact absurd rfl h
  | dlen | elen => exact .inr fun _ hr => hr.elim
  | dec | encU | encL => exact checkRegions_completes_or_apart c o.src o.dst _
  | deca => exact checkRegions_completes_or_apart c o.src o.array _

/-- Settles O25: a command whose regions meet completes without a write, and one whose regions are apart writes in its
destination. -/
theorem sourceIsUnchanged : Obligations.SourceIsUnchanged := by
  unfold Obligations.SourceIsUnchanged
  intro i s t hi h k hk
  obtain ⟨-, -, hsrc, -, -, -, -, -, -, -, hmem⟩ := commandFrame i s t h
  rw [State.text, State.text, hsrc]
  obtain ⟨c, hc⟩ | hapart := completes_or_source_apart hi s.cfg s.operands
  · rw [exec_eq, hc] at h
    cases h
    rfl
  · refine hmem _ fun hw => ?_
    cases i with
    | decip => exact hi rfl
    | dlen | elen => exact hw
    | dec | deca | encU | encL => exact hapart _ ⟨Nat.le_add_right _ _, Nat.add_lt_add_left hk _⟩ hw

/-- One algorithm over two memories that agree where it reads ends with one outcome, and each byte is left in both or
written the same in both (spec R57). -/
theorem Algorithm.run_agree {R W : Nat → Prop} {V : VecRegs → Prop} {C : Completion → Prop} :
    ∀ {p : Algorithm}, p.All R W V C → ∀ {s u : State}, (∀ a, R a → s.mem.read a = u.mem.read a) →
    ∃ (c : Completion) (m n : Memory) (v v' : VecRegs), p.run s = State.complete { s with mem := m, vec := v } c ∧
      p.run u = State.complete { u with mem := n, vec := v' } c ∧
      ∀ a, (m.read a = s.mem.read a ∧ n.read a = u.mem.read a) ∨ m.read a = n.read a := by
  intro p
  induction p with
  | read a next ih =>
    intro h s u hag
    have hsame : next (u.readByte a) = next (s.readByte a) := congrArg next (hag a h.1).symm
    rw [run, run, hsame]
    exact ih _ (h.2 _) hag
  | write a b next ih =>
    intro h s u hag
    have hag' : ∀ x, R x → (s.writeByte a b).mem.read x = (u.writeByte a b).mem.read x := fun x hx => by
      rw [State.writeByte_mem, State.writeByte_mem, Memory.read_write, Memory.read_write, hag x hx]
    obtain ⟨c, m, n, v, v', hs, hu, hmem⟩ := ih h.2 hag'
    refine ⟨c, m, n, v, v', hs, hu, fun x => ?_⟩
    obtain ⟨hm, hn⟩ | heq := hmem x
    · rw [State.writeByte_mem, Memory.read_write] at hm hn
      by_cases hx : a = x
      · rw [if_pos hx] at hm hn
        exact .inr (hm.trans hn.symm)
      · rw [if_neg hx] at hm hn
        exact .inl ⟨hm, hn⟩
    · exact .inr heq
  | vector w next ih => exact fun h s u hag => ih h.2 (s := s.setVec w) (u := u.setVec w) hag
  | complete c =>
    exact fun _ s u _ => ⟨c, s.mem, u.mem, s.vec, u.vec, rfl, rfl, fun _ => .inl ⟨rfl, rfl⟩⟩

/-- Settles O27: the operands a command reads fix its algorithm, which reads nothing but the source. -/
theorem commandReadsOnlyItsSource : Obligations.CommandReadsOnlyItsSource := by
  unfold Obligations.CommandReadsOnlyItsSource
  intro i s u t r hcfg hops hmem hs hu
  rw [exec_eq] at hs hu
  rw [← hcfg, ← algorithmOf_congr i s.cfg s.operands u.operands hops] at hu
  cases hs
  cases hu
  obtain ⟨c, m, n, v, v', hrun, hrun', hbytes⟩ :=
    Algorithm.run_agree (algorithmOf_all i s.cfg s.operands) (s := s) (u := u) fun a ha => hmem a ha.1
  rw [hrun, hrun']
  exact ⟨rfl, rfl, rfl, rfl, hbytes⟩

/-! ### The host's accesses between two moves -/

theorem record_setMem (s : State) (m : Memory) (x : Access) :
    State.record { s with mem := m } x = { s.record x with mem := m } := by
  cases hp : s.phase with
  | init left => simp only [State.record, hp]
  | idle => simp only [State.record, hp]
  | exec w trace => simp only [State.record, hp]

/-- An engine step of an algorithm that neither reads nor writes a byte, before a write of that byte or after it (spec
R62). -/
theorem Algorithm.tick_outside {R W : Nat → Prop} {V : VecRegs → Prop} {C : Completion → Prop} {a : Nat} (b : Byte)
    (hr : ¬ R a) (hw : ¬ W a) : ∀ {p : Algorithm}, p.All R W V C → ∀ s : State, ∃ m : Memory,
      p.tick { s with mem := s.mem.write a b } = { p.tick s with mem := m } ∧
        ∀ x, m.read x = if a = x then b else (p.tick s).mem.read x := by
  intro p
  induction p with
  | read a' next ih =>
    intro h s
    have hne : a ≠ a' := fun e => hr (e ▸ h.1)
    refine ⟨s.mem.write a b, ?_, fun x => ?_⟩
    · simp only [tick, State.readByte_eq, Memory.read_write_ne _ _ hne, record_setMem]
    · rw [tick, State.record_mem, Memory.read_write]
  | write a' v next ih =>
    intro h s
    have hne : a ≠ a' := fun e => hw (e ▸ h.1)
    refine ⟨(s.mem.write a b).write a' v, record_setMem (s.writeByte a' v) _ _, fun x => ?_⟩
    simp only [tick, State.record_mem, State.writeByte_mem, Memory.read_write]
    by_cases hx : a = x
    · rw [if_pos hx, if_pos hx, if_neg (hx ▸ hne.symm)]
    · rw [if_neg hx, if_neg hx]
  | vector v next ih => exact fun h s => ih h.2 (s.setVec v)
  | complete c => exact fun _ s => ⟨s.mem.write a b, rfl, fun x => Memory.read_write _ _ _ _⟩

/-- Settles O50: at every position, what is left of a command stays in its regions. -/
theorem accessOutsideRegionsDoesNotInterfere : Obligations.AccessOutsideRegionsDoesNotInterfere := by
  unfold Obligations.AccessOutsideRegionsDoesNotInterfere
  intro s w trace i a b hp hw hread hwrite
  have hall := Algorithm.All.resume trace (algorithmOf_all i s.cfg s.operands)
  rw [← wordAlgorithm_command hw] at hall
  rw [engineTick_exec hp, engineTick_exec (s := { s with mem := s.mem.write a b }) hp]
  exact Algorithm.tick_outside b (fun h => hread h.1) (fun h => hwrite h.1) hall s

/-- An engine step of an algorithm whose next access is a read records the byte that is there (spec R63). -/
theorem Algorithm.tick_of_upNext_read {a : Nat} {next : Byte → Algorithm} :
    ∀ {p : Algorithm}, p.upNext = .read a next → ∀ s : State,
      ∃ v, p.tick s = State.record { s with vec := v } (.got (s.mem.read a)) := by
  intro p
  induction p with
  | read a' next' ih =>
    intro h s
    cases h
    exact ⟨s.vec, rfl⟩
  | vector v next' ih => exact fun h s => ih h (s.setVec v)
  | write a' v next' ih => exact fun h => by cases h
  | complete c => exact fun h => by cases h

/-- An engine step of an algorithm whose next access is a write makes it (spec R63). -/
theorem Algorithm.tick_of_upNext_write {a : Nat} {b : Byte} {next : Algorithm} :
    ∀ {p : Algorithm}, p.upNext = .write a b next → ∀ s : State,
      ∃ v, p.tick s = State.record { s with vec := v, mem := s.mem.write a b } .wrote := by
  intro p
  induction p with
  | write a' v next' ih =>
    intro h s
    cases h
    exact ⟨s.vec, rfl⟩
  | vector v next' ih => exact fun h s => ih h (s.setVec v)
  | read a' next' ih => exact fun h => by cases h
  | complete c => exact fun h => by cases h

/-- Settles O51: the engine's step is the access that is next, on memory as it is then. -/
theorem racedByteIsOldOrNew : Obligations.RacedByteIsOldOrNew := by
  unfold Obligations.RacedByteIsOldOrNew
  intro s w trace a hp
  refine ⟨fun next b h => ?_, fun v next h => ?_⟩
  · have recorded : ∀ m, (engineTick { s with mem := m }).phase = .exec w (trace ++ [.got (m.read a)]) := by
      intro m
      obtain ⟨v, ht⟩ := Algorithm.tick_of_upNext_read h { s with mem := m }
      rw [engineTick_exec (s := { s with mem := m }) hp]
      exact ht ▸ State.record_phase _ _ hp
    have hnew := recorded (s.mem.write a b)
    rw [Memory.read_write_same] at hnew
    exact ⟨recorded s.mem, hnew⟩
  · obtain ⟨u, ht⟩ := Algorithm.tick_of_upNext_write h s
    rw [engineTick_exec hp, ht, State.record_mem]
    exact ⟨Memory.read_write_same _ _ _, State.record_phase _ _ hp, fun x hx => Memory.read_write_ne _ _ hx.symm⟩

end Sys2Proof.Machine
end

section
/-! SUPPORT. The command words as a set, and the expansion of an assembler line. -/

namespace Sys2Proof.Machine

/-! ### The seven legal words -/

/-- The words that meet the conditions of R74 are the words of the commands: below 32 they are looked through one by one. -/
theorem legal_iff_exists_encode (w : CmdWord) : w.Legal ↔ ∃ i, w = encode i := by
  refine ⟨fun h => ?_, fun ⟨i, h⟩ => legal_of_decode ((decode_eq_command_iff w i).mpr h)⟩
  have hlt : w.toNat < 32 := by
    have hrsv := h.1
    omega
  have below : ∀ k : BitVec 5, CmdWord.Legal (k.setWidth 32) →
      ∃ i ∈ [Instr.dlen, .dec, .deca, .decip, .elen, .encU, .encL], k.setWidth 32 = encode i := by decide
  obtain ⟨k, rfl⟩ := exists_five_bits w hlt
  obtain ⟨i, _, hi⟩ := below k h
  exact ⟨i, hi⟩

/-- Settles O2: `decode` answers a command on its one word only, and the legal words are just those words. -/
theorem exactlySevenLegalWords : Obligations.ExactlySevenLegalWords := by
  unfold Obligations.ExactlySevenLegalWords
  refine ⟨fun w i => ?_, fun w => ?_⟩
  · rw [decode_eq_command_iff]
    cases i <;> exact Iff.rfl
  · simp only [decode_eq_command_iff, legal_iff_exists_encode]

/-- Settles O1: the seven words are those of O2, and each of the nine fails the first test of R76 that is not met. -/
theorem tabledWordsDecode : Obligations.TabledWordsDecode := by
  unfold Obligations.TabledWordsDecode
  have word := exactlySevenLegalWords.1
  exact ⟨(word _ .dlen).mpr rfl, (word _ .dec).mpr rfl, (word _ .deca).mpr rfl, (word _ .decip).mpr rfl,
    (word _ .elen).mpr rfl, (word _ .encU).mpr rfl, (word _ .encL).mpr rfl, by decide⟩

/-! ### Writes of operand registers in a row -/

/-- A ready engine after host writes of registers, first element first (spec R81). -/
def State.writeRegs (s : State) (l : List (Reg × Nat)) : State :=
  l.foldl (fun s q => s.writeReg q.1 (BitVec.ofNat 64 q.2)) s

theorem State.writeRegs_cons (s : State) (q : Reg × Nat) (l : List (Reg × Nat)) :
    s.writeRegs (q :: l) = (s.writeReg q.1 (BitVec.ofNat 64 q.2)).writeRegs l := rfl

theorem State.writeRegs_frame (l : List (Reg × Nat)) : ∀ s : State,
    (s.writeRegs l).cfg = s.cfg ∧ (s.writeRegs l).mem = s.mem ∧ (s.writeRegs l).inputs = s.inputs := by
  induction l with
  | nil => exact fun _ => ⟨rfl, rfl, rfl⟩
  | cons q l ih => simp [State.writeRegs_cons, ih]

/-- A register that no write names reads as before. -/
theorem State.readReg_writeRegs_ne {r : Reg} : ∀ {l : List (Reg × Nat)} (s : State),
    (∀ q ∈ l, isOperandReg q.1 = true) → (∀ n, (r, n) ∉ l) → (s.writeRegs l).readReg r = s.readReg r := by
  intro l
  induction l with
  | nil => exact fun _ _ _ => rfl
  | cons q l ih =>
    intro s hop hr
    obtain ⟨hop, hop'⟩ := List.forall_mem_cons.mp hop
    have hq : r ≠ q.1 := fun h => hr q.2 (h ▸ List.mem_cons_self)
    rw [State.writeRegs_cons, ih _ hop' fun n hn => hr n (.tail _ hn), readReg_writeReg _ hop, if_neg hq]

/-- A register that one write names reads what it keeps of the value (spec R22). -/
theorem State.readReg_writeRegs_mem {q : Reg × Nat} : ∀ {l : List (Reg × Nat)} (s : State),
    (∀ p ∈ l, isOperandReg p.1 = true) → (l.map Prod.fst).Nodup → q ∈ l →
      ((s.writeRegs l).readReg q.1).toNat = q.2 % 2 ^ s.cfg.sizeBits := by
  intro l
  induction l with
  | nil => exact fun _ _ _ h => absurd h List.not_mem_nil
  | cons p l ih =>
    intro s hop hnd hq
    obtain ⟨hp, hnd⟩ := List.nodup_cons.mp hnd
    obtain ⟨hop, hop'⟩ := List.forall_mem_cons.mp hop
    rw [State.writeRegs_cons]
    rcases List.mem_cons.mp hq with rfl | hq
    · rw [readReg_writeRegs_ne _ hop' fun n hn => hp (List.mem_map.mpr ⟨_, hn, rfl⟩),
        readReg_writeReg _ hop, if_pos rfl, narrow_ofNat]
    · rw [ih _ hop' hnd hq, State.writeReg_cfg]

theorem writeReg_setInputs (s : State) (r : Reg) (v : Word) (rest : List Input) :
    { s.writeReg r v with inputs := rest } = State.writeReg { s with inputs := rest } r v := by
  cases r <;> rfl

theorem steps_succ {s t : State} (h : step s = .next t) (n : Nat) : steps (n + 1) s = steps n t := by
  rw [steps, h]

/-- One WR for each of some operand registers and the CMD write, run from a ready engine (spec R81): an operand write
leaves the engine ready for the next write. -/
theorem steps_operands_cmd {v : Nat} {rest : List Input} : ∀ {l : List (Reg × Nat)} {s : State}, s.busy = false →
    (∀ q ∈ l, isOperandReg q.1 = true) →
    s.inputs = (l.map fun q => .host (HostOp.wr s.cfg q.1 q.2)) ++ .host (HostOp.wr s.cfg .cmd v) :: rest →
    steps (l.length + 1) s =
      .next ((State.writeRegs { s with inputs := rest } l).startCommand (BitVec.ofNat 64 v)) := by
  intro l
  induction l with
  | nil => exact fun hb _ hi => steps_succ (step_wr_ready hb hi) 0
  | cons q l ih =>
    intro s hb hop hi
    obtain ⟨hq, hl⟩ := List.forall_mem_cons.mp hop
    rw [List.length_cons, steps_succ (step_wr_ready hb hi), ih _ hl (by simp), writeReg_setInputs, State.writeRegs_cons]
    rw [State.busy, writeReg_operand_phase _ hq]
    exact hb

/-! ### Assembler lines -/

theorem lineOperands_operandReg (line : AsmLine) : ∀ q ∈ lineOperands line, isOperandReg q.1 = true := by
  cases line <;> simp [lineOperands, isOperandReg]

/-- A line writes no register twice (spec R78). -/
theorem lineOperands_nodup (line : AsmLine) : ((lineOperands line).map Prod.fst).Nodup := by
  cases line <;> simp [lineOperands]

theorem readReg_startCommand (s : State) (v : Word) {r : Reg} (h : isOperandReg r = true) :
    (s.startCommand v).readReg r = s.readReg r := by
  cases r with
  | cmd | status | result | errIndex | errByte | caps => cases h
  | srcAddr | srcLen | dstAddr | dstLen | argN => rfl

/-- Settles O16: the expansion is a WR for each operand register and the CMD write, so it runs to `State.startCommand` of
the ready engine with its operand registers written. -/
theorem assemblerLineStartsItsCommand : Obligations.AssemblerLineStartsItsCommand := by
  unfold Obligations.AssemblerLineStartsItsCommand
  intro s line rest hb hi
  have hop := lineOperands_operandReg line
  have hi' : s.inputs = ((lineOperands line).map fun q => .host (HostOp.wr s.cfg q.1 q.2)) ++
      .host (HostOp.wr s.cfg .cmd (encode (lineCommand line)).toNat) :: .host .poll :: rest := by
    simp [hi, expandLine]
  obtain ⟨hcfg, hmem, hin⟩ := State.writeRegs_frame (lineOperands line) { s with inputs := .host .poll :: rest }
  refine ⟨_, steps_operands_cmd hb hop hi', ?_, hin, hmem, hcfg, fun q hq => ?_, fun r hr hn => ?_⟩
  · rw [State.Started, State.startCommand_phase, setWidth_ofNat_word, BitVec.ofNat_toNat, BitVec.setWidth_eq]
  · rw [readReg_startCommand _ _ (hop q hq), State.readReg_writeRegs_mem _ hop (lineOperands_nodup line) hq]
  · rw [readReg_startCommand _ _ hr, State.readReg_writeRegs_ne _ hop hn, readReg_inputs]

end Sys2Proof.Machine
end

section
/-! SUPPORT. The length commands, which complete at once whatever the state is. -/

namespace Sys2Proof.Machine

/-- A command that makes no access only completes. -/
theorem exec_of_complete {i : Instr} {s : State} {k : Completion} (h : algorithmOf i s.cfg s.operands = .complete k) :
    exec i s = .next (s.complete k) := by
  rw [exec_eq, h, Algorithm.run]

/-! ### HEX.DLEN -/

theorem exec_dlen_odd {s : State} (h : s.srcLen.toNat % 2 = 1) : exec .dlen s = .next (s.complete .oddLength) :=
  exec_of_complete (if_pos h)

theorem exec_dlen_even {s : State} (h : ¬ s.srcLen.toNat % 2 = 1) :
    exec .dlen s = .next (s.complete (.ok (s.srcLen.toNat / 2))) :=
  exec_of_complete (if_neg h)

/-- Settles O32, by the parity of the length. -/
theorem dlenHalvesEvenLengths : Obligations.DlenHalvesEvenLengths := by
  unfold Obligations.DlenHalvesEvenLengths
  intro s
  by_cases hodd : s.srcLen.toNat % 2 = 1
  · rw [exec_dlen_odd hodd, if_pos hodd, if_pos hodd]
    rfl
  · rw [exec_dlen_even hodd, if_neg hodd, if_neg hodd, BitVec.udiv_def]
    rfl

/-! ### HEX.ELEN -/

theorem exec_elen_fits {s : State} (h : 2 * s.srcLen.toNat < 2 ^ s.cfg.sizeBits) :
    exec .elen s = .next (s.complete (.ok (2 * s.srcLen.toNat))) :=
  exec_of_complete (if_neg h.not_ge)

theorem exec_elen_overflow {s : State} (h : ¬ 2 * s.srcLen.toNat < 2 ^ s.cfg.sizeBits) :
    exec .elen s = .next (s.complete .faultOverflow) :=
  exec_of_complete (if_pos (not_lt.mp h))

/-- A number that fits SIZE_BITS is recorded unchanged (spec R22). -/
theorem toNat_ofNat_of_fits {c : Config} {n : Nat} (h : n < 2 ^ c.sizeBits) : (BitVec.ofNat 64 n).toNat = n := by
  have hslot : 2 ^ c.sizeBits ≤ 2 ^ 64 := Nat.pow_le_pow_right two_pos (sizeBits_le c)
  rw [BitVec.toNat_ofNat, Nat.mod_eq_of_lt (h.trans_le hslot)]

/-- Settles O33, by whether twice the length fits SIZE_BITS. -/
theorem elenDoublesOrOverflows : Obligations.ElenDoublesOrOverflows := by
  unfold Obligations.ElenDoublesOrOverflows
  intro s
  by_cases hfit : 2 * s.srcLen.toNat < 2 ^ s.cfg.sizeBits
  · rw [exec_elen_fits hfit, if_pos hfit, if_pos hfit]
    exact ⟨_, rfl, toNat_ofNat_of_fits hfit⟩
  · rw [exec_elen_overflow hfit, if_neg hfit, if_neg hfit]
    exact ⟨_, rfl, rfl⟩

end Sys2Proof.Machine
end

section
/-! SUPPORT. The tables entry by entry, and how many of their entries are valid. -/

namespace Sys2Proof.Machine

/-! ### The nibble table -/

/-- Validity of a nibble-table entry as a number (spec R111). -/
theorem isHex_iff (c : Byte) : IsHex c ↔ (nibbleTable c).toNat ≤ 15 := by
  rw [IsHex, BitVec.le_def]
  rfl

/-- Settles O52: the comparisons and subtractions of each range, read as numbers. -/
theorem nibbleTableContent : Obligations.NibbleTableContent := by
  unfold Obligations.NibbleTableContent
  refine ⟨fun c => ?_, by decide⟩
  simp only [nibbleTable, nibbleInvalid, BitVec.le_def]
  split_ifs <;> bv_omega

/-! ### The pair table -/

/-- The first character of a pair is the high byte of its key (spec R113). -/
theorem pairKey_toNat (c0 c1 : Byte) : (pairKey c0 c1).toNat = 256 * c0.toNat + c1.toNat := by
  have h0 := c0.isLt
  have h1 := c1.isLt
  simp only [pairKey, BitVec.toNat_or, BitVec.toNat_shiftLeft, BitVec.toNat_setWidth]
  rw [Nat.mod_eq_of_lt (by omega), Nat.mod_eq_of_lt (by omega), Nat.mod_eq_of_lt (by omega),
    ← Nat.shiftLeft_add_eq_or_of_lt h1, Nat.shiftLeft_eq]
  omega

/-- Every key is the key of its two bytes. -/
theorem eq_pairKey (k : BitVec 16) : k = pairKey (BitVec.ofNat 8 (k.toNat / 256)) (BitVec.ofNat 8 (k.toNat % 256)) := by
  apply BitVec.eq_of_toNat_eq
  rw [pairKey_toNat, BitVec.toNat_ofNat, BitVec.toNat_ofNat]
  omega

/-- The decoded byte of two nibbles as a number (spec R112). -/
theorem toNat_nibbles {a b : Byte} (ha : a.toNat ≤ 15) (hb : b.toNat ≤ 15) :
    ((a <<< 4) ||| b).toNat = 16 * a.toNat + b.toNat := by
  rw [BitVec.toNat_or, BitVec.toNat_shiftLeft, Nat.shiftLeft_eq, Nat.mod_eq_of_lt (by omega), ← Nat.shiftLeft_eq,
    ← Nat.shiftLeft_add_eq_or_of_lt (by omega), Nat.shiftLeft_eq]
  omega

theorem pairTable_toNat (c0 c1 : Byte) : (pairTable (pairKey c0 c1)).toNat =
    if (nibbleTable c0).toNat ≤ 15 ∧ (nibbleTable c1).toNat ≤ 15
    then 16 * (nibbleTable c0).toNat + (nibbleTable c1).toNat else 0xFFFF := by
  simp only [pairTable_pairKey, isHex_iff]
  split
  · rename_i h
    rw [BitVec.toNat_setWidth, toNat_nibbles h.1 h.2]
    omega
  · rfl

/-- Entries of a table that meet a test, counted by their indices. -/
theorem length_filter_entries (w n : Nat) (p : BitVec w → Bool) :
    (((List.range n).map (BitVec.ofNat w)).filter p).length =
      ((Finset.range n).filter fun i => p (BitVec.ofNat w i) = true).card := by
  rw [List.filter_map, List.length_map, ← Nat.count_eq_card_filter_range, Nat.count, List.countP_eq_length_filter]
  simp [Function.comp_def]

/-- A key is valid when its two bytes are hex digits (spec R112, R114). -/
theorem valid_key_iff {i : Nat} (hi : i < 65536) : (!pairFlag (pairTable (BitVec.ofNat 16 i))) = true ↔
    IsHex (BitVec.ofNat 8 (i / 256)) ∧ IsHex (BitVec.ofNat 8 (i % 256)) := by
  have hkey := eq_pairKey (BitVec.ofNat 16 i)
  rw [BitVec.toNat_ofNat, Nat.mod_eq_of_lt hi] at hkey
  rw [hkey, pairFlag_pairTable, Bool.not_not, decide_eq_true_iff]

/-- The pair table's valid keys are the pairs of the nibble table's valid characters (spec R112). -/
theorem length_valid_keys :
    (((List.range 65536).map (BitVec.ofNat 16)).filter fun k => !pairFlag (pairTable k)).length =
      (((List.range 256).map (BitVec.ofNat 8)).filter fun c => decide (IsHex c)).length *
        (((List.range 256).map (BitVec.ofNat 8)).filter fun c => decide (IsHex c)).length := by
  rw [length_filter_entries, length_filter_entries, ← Finset.card_product]
  have halves {a b : Nat} (hb : b < 256) : (256 * a + b) / 256 = a ∧ (256 * a + b) % 256 = b := by omega
  refine Finset.card_bij' (fun i _ => (i / 256, i % 256)) (fun q _ => 256 * q.1 + q.2) (fun i hi => ?_)
    (fun q hq => ?_) (fun i _ => Nat.div_add_mod i 256) fun q hq => ?_
  all_goals simp only [Finset.mem_product, Finset.mem_filter, Finset.mem_range, decide_eq_true_iff] at *
  · obtain ⟨h0, h1⟩ := (valid_key_iff hi.1).mp hi.2
    exact ⟨⟨by omega, h0⟩, by omega, h1⟩
  · obtain ⟨⟨hlt0, h0⟩, hlt1, h1⟩ := hq
    have hlt : 256 * q.1 + q.2 < 65536 := by omega
    refine ⟨hlt, (valid_key_iff hlt).mpr ?_⟩
    rw [(halves hlt1).1, (halves hlt1).2]
    exact ⟨h0, h1⟩
  · exact Prod.ext (halves hq.2.1).1 (halves hq.2.1).2

/-- Settles O53: the key as a number, the entry from the two nibbles, and the 22 characters squared. -/
theorem pairTableContent : Obligations.PairTableContent := by
  unfold Obligations.PairTableContent
  refine ⟨fun c0 c1 => ⟨pairKey_toNat c0 c1, pairTable_toNat c0 c1⟩, fun k => ⟨_, _, eq_pairKey k⟩, ?_⟩
  rw [length_valid_keys, nibbleTableContent.2]

/-! ### The error locator -/

/-- Settles O54: the flag says that one of the two is no hex digit, and the locator tests the first. -/
theorem locatorNamesTheFirstOffender : Obligations.LocatorNamesTheFirstOffender := by
  unfold Obligations.LocatorNamesTheFirstOffender
  intro c0 c1 j hflag
  have hpair : ¬ (IsHex c0 ∧ IsHex c1) := by
    rwa [pairFlag_pairTable, Bool.not_eq_true', decide_eq_false_iff_not] at hflag
  exact ⟨fun hbad => if_pos hbad, fun hok => ⟨if_neg (not_not.mpr hok), fun h1 => hpair ⟨hok, h1⟩⟩⟩

end Sys2Proof.Machine
end

section
/-! SUPPORT. HEX.DEC as a whole: its checks, what it leaves on a valid text and on an invalid one, and texts that decode
alike. -/

namespace Sys2Proof.Machine

/-! ### The outcome of HEX.DEC -/

/-- The operands of HEX.DEC pass every check made before a character is read (spec R125). -/
structure DecPasses (c : Config) (o : Operands) : Prop where
  srcInRange : o.src.InRange c.memSize
  dstInRange : o.dst.InRange c.memSize
  apart : ¬ Region.Overlap o.src o.dst
  even : o.srcLen % 2 = 0
  fits : o.srcLen / 2 ≤ o.dstLen

/-- A failed check of HEX.DEC completes it at once, and not with OK (spec R125). -/
theorem dec_completes_or_passes (c : Config) (o : Operands) :
    (∃ k, algorithmOf .dec c o = .complete k ∧ k.kind ≠ .ok) ∨ DecPasses c o := by
  by_cases hrange : o.src.InRange c.memSize ∧ o.dst.InRange c.memSize
  · obtain ⟨hs, hd⟩ := hrange
    by_cases hlap : Region.Overlap o.src o.dst
    · exact .inl ⟨_, checkRegions_overlap _ hs hd hlap, by decide⟩
    · by_cases hodd : o.srcLen % 2 = 1
      · exact .inl ⟨.oddLength, (checkRegions_pass _ hs hd hlap).trans (if_pos hodd), by decide⟩
      · by_cases hsmall : o.dstLen < o.srcLen / 2
        · exact .inl ⟨.outputTooSmall,
            (checkRegions_pass _ hs hd hlap).trans ((if_neg hodd).trans (if_pos hsmall)), by decide⟩
        · exact .inr ⟨hs, hd, hlap, by omega, not_lt.mp hsmall⟩
  · exact .inl ⟨_, checkRegions_range _ hrange, by decide⟩

/-- A text is valid or has a first invalid character (spec R18). -/
theorem allHex_or_firstInvalid (f : Nat → Byte) (len : Nat) : AllHex f len ∨ ∃ i, FirstInvalid f len i := by
  by_cases hx : AllHex f len
  · exact .inl hx
  · have hex : ∃ i, i < len ∧ ¬ IsHex (f i) := by simpa [AllHex] using hx
    obtain ⟨hlt, hbad⟩ := Nat.find_spec hex
    refine .inr ⟨Nat.find hex, hlt, hbad, fun j hj => ?_⟩
    exact not_not.mp fun h => Nat.find_min hex hj ⟨hj.trans hlt, h⟩

/-- HEX.DEC on a valid text, past its checks (spec R125, R127). -/
theorem exec_dec_valid {s : State} (h : DecPasses s.cfg s.operands) (hx : AllHex s.text s.srcLen.toNat) :
    ∃ (m : Memory) (v : VecRegs),
      exec .dec s = .next (State.complete { s with mem := m, vec := v } (.ok (s.srcLen.toNat / 2))) ∧
      Writes s.mem m s.dstAddr.toNat (s.srcLen.toNat / 2) (decodedByte s.text) := by
  obtain ⟨hs, hd, hlap, heven, hcap⟩ := h
  obtain ⟨v, hleads⟩ := dec_leads_ok hs hd hlap heven hcap hx
  exact ⟨_, _, by rw [exec_eq, hleads.run_eq], writes_writesFrom _ _ _ _⟩

/-- HEX.DEC on a text with an invalid character, past its checks (spec R126). -/
theorem exec_dec_invalid {s : State} {i : Nat} (h : DecPasses s.cfg s.operands)
    (hx : FirstInvalid s.text s.srcLen.toNat i) :
    ∃ (m : Memory) (v : VecRegs),
      exec .dec s = .next (State.complete { s with mem := m, vec := v } (.invalidByte i (s.text i))) ∧
      Writes s.mem m s.dstAddr.toNat (decPrefix s.cfg.vecChunk s.srcLen.toNat i) (decodedByte s.text) := by
  obtain ⟨hs, hd, hlap, heven, hcap⟩ := h
  obtain ⟨v, hleads⟩ := dec_leads_bad hs hd hlap heven hcap hx
  exact ⟨_, _, by rw [exec_eq, hleads.run_eq], writes_writesFrom _ _ _ _⟩

/-- HEX.DEC that ends with OK has passed its checks and found every character valid (spec R125). -/
theorem dec_passes_of_ok {s t : State} (h : exec .dec s = .next t) (hok : t.kind = .ok) :
    DecPasses s.cfg s.operands ∧ AllHex s.text s.srcLen.toNat := by
  obtain ⟨k, hk, hne⟩ | hpass := dec_completes_or_passes s.cfg s.operands
  · rw [exec_of_complete hk] at h
    cases h
    exact absurd hok hne
  · refine ⟨hpass, (allHex_or_firstInvalid _ _).resolve_right fun ⟨i, hi⟩ => ?_⟩
    obtain ⟨m, v, hrun, -⟩ := exec_dec_invalid hpass hi
    rw [hrun] at h
    cases h
    cases hok

/-- A number no larger than a register's value is recorded unchanged. -/
theorem toNat_ofNat_of_le {n : Nat} {r : Word} (h : n ≤ r.toNat) : (BitVec.ofNat 64 n).toNat = n := by
  rw [BitVec.toNat_ofNat, Nat.mod_eq_of_lt (h.trans_lt r.isLt)]

/-! ### The vector registers -/

/-- Without a vector backend, or with a text shorter than a chunk, HEX.DEC loads no chunk on any path (spec R124,
R157). -/
theorem dec_loads_no_chunk {c : Config} {o : Operands} (h : o.srcLen < c.vecChunk ∨ c.vecChunk = 0) :
    (algorithmOf .dec c o).All (fun _ => True) (fun _ => True) (fun _ => False) (fun _ => True) := by
  refine .checkRegions trivial trivial fun _ _ _ => ?_
  split
  · trivial
  · split
    · trivial
    · rename_i hfits
      have hcap := not_lt.mp hfits
      unfold decodeEngine
      split
      · exact scalarDecode_all hcap trivial (fun _ _ => trivial) (fun _ _ => trivial) fun _ _ _ _ => trivial
      · rename_i hvec
        rw [vectorDecode, Nat.div_eq_of_lt (h.resolve_right hvec), Nat.zero_mul, vectorLoop]
        exact scalarDecode_all hcap trivial (fun _ _ => trivial) (fun _ _ => trivial) fun _ _ _ _ => trivial

/-- Then HEX.DEC leaves the vector registers (log 4). -/
theorem exec_dec_keeps_vec {s t : State} (h : exec .dec s = .next t)
    (hshort : s.srcLen.toNat < s.cfg.vecChunk ∨ s.cfg.vecChunk = 0) : t.vec = s.vec := by
  obtain ⟨m, v, k, hrun, -, hv, -⟩ := Algorithm.run_all (dec_loads_no_chunk (o := s.operands) hshort) s
  rw [exec_eq, hrun] at h
  cases h
  exact hv.resolve_right id

/-- Settles O34: a valid text is decoded whole, and the vector registers stay when no chunk is loaded. -/
theorem decDecodesValidText : Obligations.DecDecodesValidText := by
  unfold Obligations.DecDecodesValidText
  intro s hs hd hlap heven hcap hx
  obtain ⟨m, v, hrun, hwrites⟩ := exec_dec_valid ⟨hs, hd, hlap, heven, hcap⟩ hx
  exact ⟨m, v, _, hrun, toNat_ofNat_of_le (Nat.div_le_self _ 2), hwrites, exec_dec_keeps_vec hrun⟩

/-! ### The prefix a failure leaves -/

/-- The prefix lies between the bytes of the full chunks of 32 before the failure and those of the pairs before it (spec
R126). -/
theorem decPrefix_bounds (c : Config) (len i : Nat) :
    i / 32 * 16 ≤ decPrefix c.vecChunk len i ∧ decPrefix c.vecChunk len i ≤ i / 2 := by
  have hchunk : c.vecChunk = 0 ∨ c.vecChunk = 16 ∨ c.vecChunk = 32 := by
    unfold Config.vecChunk
    cases c.backend <;> decide
  unfold decPrefix
  split
  · rcases hchunk with h | h | h <;> rw [h] <;> omega
  · omega

/-- Settles O35: the writes are those of `decPrefix`, the rule's prefix. -/
theorem decStopsAtFirstInvalid : Obligations.DecStopsAtFirstInvalid := by
  unfold Obligations.DecStopsAtFirstInvalid
  intro s i hs hd hlap heven hcap hx
  obtain ⟨m, v, hrun, hwrites⟩ := exec_dec_invalid ⟨hs, hd, hlap, heven, hcap⟩ hx
  obtain ⟨hlow, hhigh⟩ := decPrefix_bounds s.cfg s.srcLen.toNat i
  exact ⟨m, v, _, _, hrun, toNat_ofNat_of_le hx.1.le, hwrites, rfl, hlow, hhigh⟩

/-! ### Texts that decode alike -/

/-- The nibble table does not tell an uppercase letter from its lowercase one (spec R110, R128). -/
theorem nibbleTable_lowerCase (b : Byte) : nibbleTable (lowerCase b) = nibbleTable b := by
  revert b
  decide

section SameNibbles

variable {f g : Nat → Byte} {len : Nat} (h : ∀ i < len, nibbleTable (f i) = nibbleTable (g i))
include h

theorem AllHex.congr (hx : AllHex f len) : AllHex g len := fun i hi => by
  rw [IsHex, ← h i hi]
  exact hx i hi

theorem FirstInvalid.congr {i : Nat} (hx : FirstInvalid f len i) : FirstInvalid g len i := by
  obtain ⟨hlt, hbad, hok⟩ := hx
  refine ⟨hlt, fun hg => hbad ?_, fun j hj => ?_⟩
  · rw [IsHex, h i hlt]
    exact hg
  · rw [IsHex, ← h j (hj.trans hlt)]
    exact hok j hj

theorem decodedByte_congr {k : Nat} (hk : k < len / 2) : decodedByte f k = decodedByte g k := by
  rw [decodedByte, decodedByte, h (2 * k) (by omega), h (2 * k + 1) (by omega)]

end SameNibbles

/-- A written byte reads as what was written. -/
theorem Writes.read_add {m m' : Memory} {a n k : Nat} {f : Nat → Byte} (h : Writes m m' a n f) (hk : k < n) :
    m'.read (a + k) = f k := by
  rw [h, if_pos ⟨Nat.le_add_right a k, Nat.add_lt_add_left hk a⟩, Nat.add_sub_cancel_left]

/-- HEX.DEC on the same operands and texts with the same nibbles: the same outcome, but for ERR_BYTE, and the same
decoded bytes. -/
theorem exec_dec_same_nibbles {s u t r : State} (hcfg : u.cfg = s.cfg) (hops : u.operands = s.operands)
    (htext : ∀ i < s.srcLen.toNat, nibbleTable (s.text i) = nibbleTable (u.text i))
    (ht : exec .dec s = .next t) (hr : exec .dec u = .next r) :
    t.kind = r.kind ∧ t.result = r.result ∧ t.errIndex = r.errIndex ∧
    (t.kind = .ok → ∀ k < s.srcLen.toNat / 2,
      t.mem.read (s.dstAddr.toNat + k) = r.mem.read (s.dstAddr.toNat + k)) := by
  have hlen : u.srcLen.toNat = s.srcLen.toNat := congrArg Operands.srcLen hops
  have hdst : u.dstAddr.toNat = s.dstAddr.toNat := congrArg Operands.dstAddr hops
  obtain ⟨k, hk, hne⟩ | hpass := dec_completes_or_passes s.cfg s.operands
  · have hk' : algorithmOf .dec u.cfg u.operands = .complete k := by rw [hcfg, hops, hk]
    rw [exec_of_complete hk] at ht
    rw [exec_of_complete hk'] at hr
    cases ht
    cases hr
    exact ⟨rfl, rfl, rfl, fun hok => absurd hok hne⟩
  · have hpass' : DecPasses u.cfg u.operands := by rwa [hcfg, hops]
    obtain hx | ⟨i, hx⟩ := allHex_or_firstInvalid s.text s.srcLen.toNat
    · have hx' : AllHex u.text u.srcLen.toNat := hlen ▸ hx.congr htext
      obtain ⟨m, v, hrun, hwrites⟩ := exec_dec_valid hpass hx
      obtain ⟨m', v', hrun', hwrites'⟩ := exec_dec_valid hpass' hx'
      rw [hrun] at ht
      rw [hrun', hlen] at hr
      rw [hlen, hdst] at hwrites'
      cases ht
      cases hr
      refine ⟨rfl, rfl, rfl, fun _ k hk => ?_⟩
      exact (hwrites.read_add hk).trans ((decodedByte_congr htext hk).trans (hwrites'.read_add hk).symm)
    · have hx' : FirstInvalid u.text u.srcLen.toNat i := hlen ▸ hx.congr htext
      obtain ⟨m, v, hrun, -⟩ := exec_dec_invalid hpass hx
      obtain ⟨m', v', hrun', -⟩ := exec_dec_invalid hpass' hx'
      rw [hrun] at ht
      rw [hrun'] at hr
      cases ht
      cases hr
      exact ⟨rfl, rfl, rfl, fun hok => nomatch hok⟩

/-- Settles O43: letter case changes no nibble; and a decode leaves its source and its operands, so that the same bytes
are written again. -/
theorem decIgnoresLetterCase : Obligations.DecIgnoresLetterCase := by
  unfold Obligations.DecIgnoresLetterCase
  refine ⟨fun s u t r hcfg hops hcase ht hr => exec_dec_same_nibbles hcfg hops (fun i hi => ?_) ht hr,
    fun s t r ht hok hr => ?_⟩
  · rw [← nibbleTable_lowerCase, hcase i hi, nibbleTable_lowerCase]
  · obtain ⟨hpass, hx⟩ := dec_passes_of_ok ht hok
    have htext := sourceIsUnchanged .dec s t (by decide) ht
    have hsame : ∀ i < s.srcLen.toNat, nibbleTable (s.text i) = nibbleTable (t.text i) := fun i hi => by
      rw [htext i hi]
    obtain ⟨m, v, hrun, hwrites⟩ := exec_dec_valid hpass hx
    rw [hrun] at ht
    cases ht
    obtain ⟨m', v', hrun', hwrites'⟩ := exec_dec_valid (s := State.complete { s with mem := m, vec := v } _) hpass
      (hx.congr hsame)
    rw [hrun'] at hr
    cases hr
    refine ⟨rfl, rfl, fun a => (hwrites' a).trans ?_⟩
    split
    · rename_i hin
      have hk : a - s.dstAddr.toNat < s.srcLen.toNat / 2 := by
        obtain ⟨hle, hlt⟩ := hin
        exact Nat.sub_lt_left_of_lt_add hle hlt
      exact (decodedByte_congr hsame hk).symm.trans ((hwrites a).trans (if_pos hin)).symm
    · rfl

end Sys2Proof.Machine
end

section
/-! SUPPORT. HEX.DECIP as a whole: its checks, what it leaves on a valid buffer and on an invalid one, and that its run
does not see the backend. -/

namespace Sys2Proof.Machine

/-! ### The outcome of HEX.DECIP -/

/-- A failed check of HEX.DECIP completes it at once; otherwise its buffer is in range and of even length (spec R142). -/
theorem decip_completes_or_passes (c : Config) (o : Operands) :
    (∃ k, algorithmOf .decip c o = .complete k) ∨ (o.src.InRange c.memSize ∧ o.srcLen % 2 = 0) := by
  by_cases hs : o.src.InRange c.memSize
  · by_cases hodd : o.srcLen % 2 = 1
    · exact .inl ⟨.oddLength, (if_neg (not_not.mpr hs)).trans (if_pos hodd)⟩
    · exact .inr ⟨hs, by omega⟩
  · exact .inl ⟨.faultRange, if_pos hs⟩

section Passed

variable {s : State} (hs : s.operands.src.InRange s.cfg.memSize) (heven : s.srcLen.toNat % 2 = 0)
include hs heven

/-- HEX.DECIP on a valid buffer, past its checks (spec R142, R144). -/
theorem exec_decip_valid (hx : AllHex s.text s.srcLen.toNat) :
    ∃ m : Memory, exec .decip s = .next (State.complete { s with mem := m } (.ok (s.srcLen.toNat / 2))) ∧
      Writes s.mem m s.srcAddr.toNat (s.srcLen.toNat / 2) (decodedByte s.text) :=
  ⟨_, by rw [exec_eq, (decip_leads_ok hs heven hx).run_eq, Option.getD_none], writes_writesFrom _ _ _ _⟩

/-- HEX.DECIP on a buffer with an invalid character, past its checks (spec R140, R142). -/
theorem exec_decip_invalid {i : Nat} (hx : FirstInvalid s.text s.srcLen.toNat i) :
    exec .decip s = .next (s.complete (.invalidByte i (s.text i))) := by
  rw [exec_eq, (decip_leads_bad hs heven hx).run_eq]
  rfl

end Passed

/-- Settles O38: the decode pass writes the decoded bytes of the original text, and nothing else. -/
theorem decipDecodesInPlace : Obligations.DecipDecodesInPlace := by
  unfold Obligations.DecipDecodesInPlace
  intro s hs heven hx
  obtain ⟨m, hrun, hwrites⟩ := exec_decip_valid hs heven hx
  exact ⟨m, _, hrun, toNat_ofNat_of_le (Nat.div_le_self _ 2), hwrites⟩

/-- Settles O39: the validation pass ends at the first invalid character, before any write. -/
theorem decipReportsFirstInvalid : Obligations.DecipReportsFirstInvalid := by
  unfold Obligations.DecipReportsFirstInvalid
  intro s i hs heven hx
  exact ⟨_, toNat_ofNat_of_le hx.1.le, exec_decip_invalid hs heven hx⟩

/-- Settles O40: a failed check and an invalid buffer complete without a write, and a valid buffer ends with OK. -/
theorem decipNeverMutatesOnError : Obligations.DecipNeverMutatesOnError := by
  unfold Obligations.DecipNeverMutatesOnError
  intro s t h hne
  obtain ⟨k, hk⟩ | ⟨hs, heven⟩ := decip_completes_or_passes s.cfg s.operands
  · rw [exec_of_complete hk] at h
    cases h
    rfl
  · obtain hx | ⟨i, hx⟩ := allHex_or_firstInvalid s.text s.srcLen.toNat
    · obtain ⟨m, hrun, -⟩ := exec_decip_valid hs heven hx
      rw [hrun] at h
      cases h
      exact absurd rfl hne
    · rw [exec_decip_invalid hs heven hx] at h
      cases h
      rfl

/-! ### The backend -/

/-- A run reads no parameter of the instance: those it depends on are in the algorithm. -/
theorem Algorithm.run_setCfg (p : Algorithm) (c : Config) :
    ∀ s : State, p.run { s with cfg := c } = { p.run s with cfg := c } := by
  induction p with
  | read a next ih => exact fun s => ih _ s
  | write a v next ih => exact fun s => ih (s.writeByte a v)
  | vector v next ih => exact fun s => ih (s.setVec v)
  | complete k => exact fun s => rfl

/-- The backend is no part of HEX.DECIP's algorithm (spec R145). -/
theorem algorithmOf_decip_setBackend (c : Config) (o : Operands) (b : Backend) :
    algorithmOf .decip { c with backend := b } o = algorithmOf .decip c o := rfl

/-- Settles O41: both backends run the same algorithm, and a run leaves the configuration out. -/
theorem decipIgnoresTheBackend : Obligations.DecipIgnoresTheBackend := by
  unfold Obligations.DecipIgnoresTheBackend
  intro s b
  refine ⟨_, exec_eq .decip s, ?_⟩
  rw [exec_eq]
  show Host.Outcome.next ((algorithmOf .decip { s.cfg with backend := b } s.operands).run _) = _
  rw [algorithmOf_decip_setBackend, Algorithm.run_setCfg]

end Sys2Proof.Machine
end

section
/-! SUPPORT. HEX.DEC on any two backends, and the lane stages of one chunk. -/

namespace Sys2Proof.Machine

/-! ### The backends agree -/

/-- The checks of HEX.DEC do not see the backend (spec R125). -/
theorem DecPasses.setBackend {c : Config} {o : Operands} (h : DecPasses c o) (b : Backend) :
    DecPasses { c with backend := b } o := { h with }

/-- When a check fails, HEX.DEC is the same algorithm for every backend (spec R125). -/
theorem algorithmOf_dec_setBackend {c : Config} {o : Operands} (h : ¬ DecPasses c o) (b : Backend) :
    algorithmOf .dec { c with backend := b } o = algorithmOf .dec c o := by
  show decAlgorithm { c with backend := b } o = decAlgorithm c o
  unfold decAlgorithm checkRegions
  split_ifs with hrange hlap hodd hsmall
  · rfl
  · rfl
  · rfl
  · obtain ⟨hs, hd⟩ := hrange
    exact absurd ⟨hs, hd, hlap, by omega, not_lt.mp hsmall⟩ h
  · rfl

/-- HEX.DEC on another backend: the same outcome, and the same memory on success (spec R160). -/
theorem exec_dec_setBackend {s t r : State} (b : Backend) (ht : exec .dec s = .next t)
    (hr : exec .dec { s with cfg := { s.cfg with backend := b } } = .next r) :
    t.kind = r.kind ∧ t.result = r.result ∧ t.errIndex = r.errIndex ∧ t.errByte = r.errByte ∧
    (t.kind = .ok → ∀ a, t.mem.read a = r.mem.read a) := by
  by_cases hpass : DecPasses s.cfg s.operands
  · have hpass' := hpass.setBackend b
    obtain hx | ⟨i, hx⟩ := allHex_or_firstInvalid s.text s.srcLen.toNat
    · obtain ⟨m, v, hrun, hwrites⟩ := exec_dec_valid hpass hx
      obtain ⟨m', v', hrun', hwrites'⟩ :=
        exec_dec_valid (s := { s with cfg := { s.cfg with backend := b } }) hpass' hx
      rw [hrun] at ht
      rw [hrun'] at hr
      cases ht
      cases hr
      exact ⟨rfl, rfl, rfl, rfl, fun _ a => (hwrites a).trans (hwrites' a).symm⟩
    · obtain ⟨m, v, hrun, -⟩ := exec_dec_invalid hpass hx
      obtain ⟨m', v', hrun', -⟩ :=
        exec_dec_invalid (s := { s with cfg := { s.cfg with backend := b } }) hpass' hx
      rw [hrun] at ht
      rw [hrun'] at hr
      cases ht
      cases hr
      exact ⟨rfl, rfl, rfl, rfl, fun hok => nomatch hok⟩
  · obtain ⟨k, hk, hne⟩ := (dec_completes_or_passes s.cfg s.operands).resolve_right hpass
    rw [exec_of_complete hk] at ht
    rw [exec_of_complete ((algorithmOf_dec_setBackend hpass b).trans hk)] at hr
    cases ht
    cases hr
    exact ⟨rfl, rfl, rfl, rfl, fun hok => absurd hok hne⟩

/-- Settles O42: the checks do not see the backend, and past them the text alone decides the outcome and, on success, the
bytes written. -/
theorem backendsAgree : Obligations.BackendsAgree := by
  unfold Obligations.BackendsAgree
  intro s t r b c ht hr
  exact exec_dec_setBackend c ht hr

/-! ### The lane stages -/

/-- No byte is in two of the three valid lane classes (spec R151). -/
theorem laneClasses_disjoint (b : Byte) : (laneDig b && laneLow b) = false ∧ (laneDig b && laneUpp b) = false ∧
    (laneLow b && laneUpp b) = false := by
  revert b
  decide

/-- A list of lanes as a function of the lane. -/
theorem map_range_getD (l : List Byte) : (List.range l.length).map (fun k => l.getD k 0) = l :=
  List.ext_getElem (by simp) fun k _ hk => by simp [hk]

/-- The lanes of a list are all hex digits as a list and as a text. -/
theorem forall_mem_isHex_iff (l : List Byte) : (∀ b ∈ l, IsHex b) ↔ AllHex (fun k => l.getD k 0) l.length := by
  rw [List.forall_mem_iff_getElem]
  exact forall₂_congr fun k hk => iff_of_eq (congrArg IsHex (List.getD_eq_getElem l 0 hk).symm)

/-- A chunk is valid exactly when its lanes are hex digits (spec R152). -/
theorem ofLanes_list_valid (l : List Byte) : (VecRegs.ofLanes l).valid = true ↔ ∀ b ∈ l, IsHex b := by
  have h := ofLanes_valid (fun k => l.getD k 0) l.length
  rw [map_range_getD] at h
  exact h.trans (forall_mem_isHex_iff l).symm

/-- Settles O55: the classes byte by byte, and for the rest the rules of a chunk whose lanes are given by a function. -/
theorem laneStagesMatchTheTables : Obligations.LaneStagesMatchTheTables := by
  unfold Obligations.LaneStagesMatchTheTables
  refine ⟨fun b => ⟨laneInv_iff b, laneClasses_disjoint b⟩, ofLanes_list_valid, fun l f hf => ⟨?_, rfl⟩,
    fun l hx => ?_⟩
  · obtain ⟨hlt, hbad, hok⟩ := hf
    have h := ofLanes_firstInvalid _ hlt hbad hok
    rwa [map_range_getD] at h
  · have hhex := (forall_mem_isHex_iff l).mp hx
    refine ⟨fun k hk => ?_, fun j hj => ?_⟩
    · have h := ofLanes_nibble (fun k => l.getD k 0) hk (hhex k hk)
      rwa [map_range_getD] at h
    · have h := ofLanes_packed _ hj hhex
      rw [map_range_getD] at h
      rw [h, pairByte_pairTable (hhex _ (by omega)) (hhex _ hj), decodedByte]

end Sys2Proof.Machine
end

section
/-! SUPPORT. HEX.DECA as a whole: what it leaves on a valid text and on an invalid one, past its checks. -/

namespace Sys2Proof.Machine

section Passed

variable {s : State} (hs : s.operands.src.InRange s.cfg.memSize) (hd : s.operands.array.InRange s.cfg.memSize)
  (hlap : ¬ Region.Overlap s.operands.src s.operands.array) (heven : s.srcLen.toNat % 2 = 0)
  (hlen : s.srcLen.toNat / 2 = s.argN.toNat)
include hs hd hlap heven hlen

/-- HEX.DECA on a valid text (spec R171). -/
theorem exec_deca_valid (hx : AllHex s.text s.srcLen.toNat) :
    ∃ m : Memory, exec .deca s = .next (State.complete { s with mem := m } (.ok s.argN.toNat)) ∧
      Writes s.mem m s.dstAddr.toNat s.argN.toNat (decodedByte s.text) := by
  have hleads := deca_leads_ok hs hd hlap heven hlen hx
  rw [hlen] at hleads
  exact ⟨_, by rw [exec_eq, hleads.run_eq, Option.getD_none], writes_writesFrom _ _ _ _⟩

/-- HEX.DECA on a text with an invalid character: the prefix of the scalar engine, for every backend (spec R172). -/
theorem exec_deca_invalid {i : Nat} (hx : FirstInvalid s.text s.srcLen.toNat i) :
    ∃ m : Memory, exec .deca s = .next (State.complete { s with mem := m } (.invalidByte i (s.text i))) ∧
      Writes s.mem m s.dstAddr.toNat (i / 2) (decodedByte s.text) :=
  ⟨_, by rw [exec_eq, (deca_leads_bad hs hd hlap heven hlen hx).run_eq, Option.getD_none], writes_writesFrom _ _ _ _⟩

end Passed

/-- Settles O36: the scalar engine decodes the whole text, and RESULT is the count ARG_N itself holds. -/
theorem decaDecodesValidText : Obligations.DecaDecodesValidText := by
  unfold Obligations.DecaDecodesValidText
  intro s hs hd hlap heven hlen hx
  obtain ⟨m, hrun, hwrites⟩ := exec_deca_valid hs hd hlap heven hlen hx
  have hresult : BitVec.ofNat 64 s.argN.toNat = s.argN := by rw [BitVec.ofNat_toNat, BitVec.setWidth_eq]
  rw [State.complete, Completion.result, hresult] at hrun
  exact ⟨m, hrun, hwrites⟩

/-- Settles O37: the scalar engine stops at the pair of the first invalid character, whatever the backend. -/
theorem decaStopsAtFirstInvalid : Obligations.DecaStopsAtFirstInvalid := by
  unfold Obligations.DecaStopsAtFirstInvalid
  intro s i hs hd hlap heven hlen hx
  obtain ⟨m, hrun, hwrites⟩ := exec_deca_invalid hs hd hlap heven hlen hx
  exact ⟨m, _, hrun, toNat_ofNat_of_le hx.1.le, hwrites⟩

end Sys2Proof.Machine
end

section
/-! SUPPORT. HEX.ENC as a whole: the alphabets' characters, its checks, what it leaves past them, and the round trip. -/

namespace Sys2Proof.Machine

/-! ### The alphabets -/

section Alphabet

variable {alphabet : List Byte} (ha : alphabet ∈ [alphaLower, alphaUpper])
include ha

/-- The nibble table gives back the position of a character of either alphabet (spec R110, R180). -/
theorem nibble_alphaAt (v : BitVec 4) : nibbleTable (alphaAt alphabet v) = v.setWidth 8 := by
  rw [List.mem_pair] at ha
  obtain rfl | rfl := ha
  · exact nibble_alphaLower v
  · exact nibble_alphaUpper v

theorem isHex_alphaAt (v : BitVec 4) : IsHex (alphaAt alphabet v) := by
  have hv := v.isLt
  rw [isHex_iff, nibble_alphaAt ha, BitVec.toNat_setWidth]
  omega

end Alphabet

/-- Settles O56: the entries one by one, and a byte's two nibbles put together again. -/
theorem alphabetsInvertTheNibbleTable : Obligations.AlphabetsInvertTheNibbleTable := by
  unfold Obligations.AlphabetsInvertTheNibbleTable
  refine ⟨by decide, fun x alphabet ha => ?_⟩
  rw [pairTable_pairKey, if_pos ⟨isHex_alphaAt ha _, isHex_alphaAt ha _⟩, nibble_alphaAt ha, nibble_alphaAt ha,
    nibbles_of_byte]

/-! ### The characters of an encoding -/

theorem encodedChar_even (alphabet : List Byte) (f : Nat → Byte) (k : Nat) :
    encodedChar alphabet f (2 * k) = alphaAt alphabet (highNibble (f k)) := by
  rw [encodedChar, if_pos (Nat.mul_mod_right 2 k), Nat.mul_div_cancel_left k two_pos]

theorem encodedChar_odd (alphabet : List Byte) (f : Nat → Byte) (k : Nat) :
    encodedChar alphabet f (2 * k + 1) = alphaAt alphabet (lowNibble (f k)) := by
  rw [encodedChar, if_neg (by omega), show (2 * k + 1) / 2 = k by omega]

theorem isHex_encodedChar {alphabet : List Byte} (ha : alphabet ∈ [alphaLower, alphaUpper]) (f : Nat → Byte) (j : Nat) :
    IsHex (encodedChar alphabet f j) := by
  unfold encodedChar
  split
  · exact isHex_alphaAt ha _
  · exact isHex_alphaAt ha _

/-- Decoding inverts encoding, byte by byte (spec R184). -/
theorem decodedByte_encodedChar {alphabet : List Byte} (ha : alphabet ∈ [alphaLower, alphaUpper]) (f : Nat → Byte)
    (k : Nat) : decodedByte (encodedChar alphabet f) k = f k := by
  rw [decodedByte, encodedChar_even, encodedChar_odd, nibble_alphaAt ha, nibble_alphaAt ha, nibbles_of_byte]

/-! ### The outcome of HEX.ENC -/

/-- The operands of HEX.ENC pass every check made before a byte is read (spec R182). -/
structure EncPasses (c : Config) (o : Operands) : Prop where
  srcInRange : o.src.InRange c.memSize
  dstInRange : o.dst.InRange c.memSize
  apart : ¬ Region.Overlap o.src o.dst
  fits : 2 * o.srcLen ≤ o.dstLen

/-- A failed check of HEX.ENC completes it at once, and not with OK (spec R182). -/
theorem enc_completes_or_passes (alphabet : List Byte) (c : Config) (o : Operands) :
    (∃ k, encAlgorithm alphabet c o = .complete k ∧ k.kind ≠ .ok) ∨ EncPasses c o := by
  by_cases hrange : o.src.InRange c.memSize ∧ o.dst.InRange c.memSize
  · obtain ⟨hs, hd⟩ := hrange
    by_cases hlap : Region.Overlap o.src o.dst
    · exact .inl ⟨_, checkRegions_overlap _ hs hd hlap, by decide⟩
    · by_cases hsmall : o.dstLen < 2 * o.srcLen
      · exact .inl ⟨.outputTooSmall, (checkRegions_pass _ hs hd hlap).trans (if_pos hsmall), by decide⟩
      · exact .inr ⟨hs, hd, hlap, not_lt.mp hsmall⟩
  · exact .inl ⟨_, checkRegions_range _ hrange, by decide⟩

/-- HEX.ENC past its checks, with either alphabet (spec R182, R183). -/
theorem encAlgorithm_run (alphabet : List Byte) {s : State} (h : EncPasses s.cfg s.operands) :
    ∃ m : Memory, (encAlgorithm alphabet s.cfg s.operands).run s =
        State.complete { s with mem := m } (.ok (2 * s.srcLen.toNat)) ∧
      Writes s.mem m s.dstAddr.toNat (2 * s.srcLen.toNat) (encodedChar alphabet s.text) := by
  obtain ⟨hs, hd, hlap, hcap⟩ := h
  exact ⟨_, by rw [(enc_leads alphabet hs hd hlap hcap).run_eq, Option.getD_none], writes_writesFrom _ _ _ _⟩

/-- Settles O45: the loop writes every character, and RESULT is exact because it is at most the capacity. -/
theorem encEncodesEveryByte : Obligations.EncEncodesEveryByte := by
  unfold Obligations.EncEncodesEveryByte
  intro s hs hd hlap hcap
  have hpass : EncPasses s.cfg s.operands := ⟨hs, hd, hlap, hcap⟩
  obtain ⟨m, hrun, hwrites⟩ := encAlgorithm_run alphaUpper hpass
  obtain ⟨m', hrun', hwrites'⟩ := encAlgorithm_run alphaLower hpass
  have hresult := toNat_ofNat_of_le hcap
  exact ⟨⟨m, _, congrArg Host.Outcome.next hrun, hresult, hwrites⟩,
    m', _, congrArg Host.Outcome.next hrun', hresult, hwrites'⟩

/-! ### The round trip -/

/-- An encode command encodes with one of the two alphabets (spec R73, R182). -/
theorem exists_alphabet {i : Instr} (h : i ∈ [Instr.encU, .encL]) :
    ∃ alphabet ∈ [alphaLower, alphaUpper], ∀ c o, algorithmOf i c o = encAlgorithm alphabet c o := by
  rw [List.mem_pair] at h
  obtain rfl | rfl := h
  · exact ⟨alphaUpper, by decide, fun _ _ => rfl⟩
  · exact ⟨alphaLower, by decide, fun _ _ => rfl⟩

/-- HEX.ENC that ends with OK has passed its checks and written the characters of its source (spec R181, R182). -/
theorem enc_of_ok {s t : State} {i : Instr} (hi : i ∈ [Instr.encU, .encL]) (h : exec i s = .next t)
    (hok : t.kind = .ok) : ∃ alphabet ∈ [alphaLower, alphaUpper],
      Writes s.mem t.mem s.dstAddr.toNat (2 * s.srcLen.toNat) (encodedChar alphabet s.text) := by
  obtain ⟨alphabet, ha, halg⟩ := exists_alphabet hi
  rw [exec_eq, halg] at h
  obtain ⟨k, hk, hne⟩ | hpass := enc_completes_or_passes alphabet s.cfg s.operands
  · rw [hk] at h
    cases h
    exact absurd hok hne
  · obtain ⟨m, hrun, hwrites⟩ := encAlgorithm_run alphabet hpass
    rw [hrun] at h
    cases h
    exact ⟨alphabet, ha, hwrites⟩

/-- Two contents that agree on the bytes written describe the same writes. -/
theorem Writes.congr {m m' : Memory} {a n : Nat} {f g : Nat → Byte} (h : Writes m m' a n f)
    (hfg : ∀ k < n, f k = g k) : Writes m m' a n g := fun x => by
  rw [h x]
  refine if_ctx_congr Iff.rfl (fun hin => hfg _ ?_) fun _ => rfl
  exact Nat.sub_lt_left_of_lt_add hin.1 hin.2

/-- Settles O46: the text HEX.DEC reads is the encoding, so it is valid and each pair decodes to its byte. -/
theorem decodeOfEncodeIsIdentity : Obligations.DecodeOfEncodeIsIdentity := by
  unfold Obligations.DecodeOfEncodeIsIdentity
  intro s t u i hi ht hok hmem haddr hlen hs hd hlap hcap
  obtain ⟨alphabet, ha, hwrites⟩ := enc_of_ok hi ht hok
  have htext : ∀ j < 2 * s.srcLen.toNat, u.text j = encodedChar alphabet s.text j := fun j hj => by
    rw [State.text, hmem, haddr, hwrites.read_add hj]
  have heven : u.srcLen.toNat % 2 = 0 := by omega
  have hhalf : u.srcLen.toNat / 2 = s.srcLen.toNat := by omega
  have hpass : DecPasses u.cfg u.operands := ⟨hs, hd, hlap, heven, hhalf.le.trans hcap⟩
  have hx : AllHex u.text u.srcLen.toNat := fun j hj => by
    rw [htext j (hlen ▸ hj)]
    exact isHex_encodedChar ha s.text j
  obtain ⟨m, v, hrun, hdecoded⟩ := exec_dec_valid hpass hx
  rw [hhalf] at hrun hdecoded
  refine ⟨_, hrun, rfl, toNat_ofNat_of_le hcap, hdecoded.congr fun k hk => ?_⟩
  rw [decodedByte, htext (2 * k) (by omega), htext (2 * k + 1) (by omega)]
  exact decodedByte_encodedChar ha s.text k

end Sys2Proof.Machine
end

section
/-! SUPPORT. The outcomes of a command: the checks that end it before any access, the first cause that decides its
outcome, and what every outcome records. -/

namespace Sys2Proof.Machine

/-! ### A check that fails -/

/-- An outcome that is neither OK nor INVALID_BYTE records nothing but its KIND (spec R204). -/
theorem complete_eq_ended (s : State) {k : Completion} (hok : k.kind ≠ .ok) (hbyte : k.kind ≠ .invalidByte) :
    s.complete k = s.ended k.kind := by
  obtain ⟨hidx, hbyt⟩ := Completion.err_of_kind_ne hbyte
  rw [State.complete, Completion.result_of_kind_ne hok, hidx, hbyt]
  rfl

@[simp] theorem State.ended_kind (s : State) (k : Kind) : (s.ended k).kind = k := rfl

/-- A command whose whole algorithm is such an outcome ends with it and makes no access. -/
theorem ends_before_any_access {i : Instr} {s : State} {k : Completion}
    (h : algorithmOf i s.cfg s.operands = .complete k) (hok : k.kind ≠ .ok := by decide)
    (hbyte : k.kind ≠ .invalidByte := by decide) :
    exec i s = .next (s.ended k.kind) ∧ algorithmOf i s.cfg s.operands = .complete k :=
  ⟨by rw [exec_of_complete h, complete_eq_ended s hok hbyte], h⟩

/-- HEX.DEC and HEX.ENC begin with the checks on the source and the destination (spec R125, R182). -/
theorem algorithmOf_checks_dst {i : Instr} (hi : i ∈ [Instr.dec, .encU, .encL]) (c : Config) (o : Operands) :
    ∃ next, algorithmOf i c o = checkRegions c o.src o.dst next := by
  simp only [List.mem_cons, List.not_mem_nil, or_false] at hi
  obtain rfl | rfl | rfl := hi
  · exact ⟨_, rfl⟩
  · exact ⟨_, rfl⟩
  · exact ⟨_, rfl⟩

/-! ### What every outcome records -/

/-- What an outcome does not set is 0, and an offending byte is no hex digit (spec R204, R205). -/
theorem outcomeOk_complete (s : State) {k : Completion} (hbyte : k.kind = .invalidByte → ¬ IsHex k.errByte) :
    (s.complete k).OutcomeOk := by
  refine ⟨fun hne => ?_, fun hne => ?_, hbyte⟩
  · rw [State.complete_result, Completion.result_of_kind_ne hne]
    rfl
  · obtain ⟨hidx, hbyt⟩ := Completion.err_of_kind_ne hne
    rw [State.complete_errIndex, State.complete_errByte, hidx, hbyt]
    exact ⟨rfl, rfl⟩

/-- Settles O23: a run ends in a completion, and the paths of the command say which it can be. -/
theorem everyCommandCompletes : Obligations.EveryCommandCompletes := by
  unfold Obligations.EveryCommandCompletes
  intro i s
  obtain ⟨m, v, k, hrun, ⟨hkind, -, hidx, -, hbyte⟩, -⟩ := Algorithm.run_all (algorithmOf_all i s.cfg s.operands) s
  refine ⟨_, by rw [exec_eq, hrun], rfl, rfl, rfl, hkind, outcomeOk_complete _ hbyte, fun hinv => ?_⟩
  rw [State.complete_errIndex, BitVec.toNat_ofNat]
  exact (Nat.mod_le _ _).trans_lt (hidx hinv)

/-- A command ends with a KIND that it raises (spec R201). -/
theorem mayEnd_of_exec {i : Instr} {s t : State} (h : exec i s = .next t) : mayEnd i t.kind = true := by
  obtain ⟨u, hu, -, -, -, hkind, -⟩ := everyCommandCompletes i s
  rw [h] at hu
  cases hu
  exact hkind

/-! ### The checks, one by one -/

/-- Settles O28: the checks on the regions come first, and FAULT_RANGE is no KIND of a length command. -/
theorem regionOutOfRangeFaults : Obligations.RegionOutOfRangeFaults := by
  unfold Obligations.RegionOutOfRangeFaults
  intro s
  refine ⟨fun hbad i hi => ?_, fun hbad => ends_before_any_access (i := .deca) (checkRegions_range _ hbad),
    fun hbad => ends_before_any_access (i := .decip) (k := .faultRange) (if_pos hbad), fun i hi t h hk => ?_⟩
  · obtain ⟨next, hchecks⟩ := algorithmOf_checks_dst hi s.cfg s.operands
    exact ends_before_any_access (hchecks.trans (checkRegions_range next hbad))
  · have hends := mayEnd_of_exec h
    rw [hk] at hends
    rw [List.mem_pair] at hi
    obtain rfl | rfl := hi
    · cases hends
    · cases hends

/-- Settles O29: the overlap is checked next, and FAULT_OVERLAP is no KIND of HEX.DECIP. -/
theorem overlappingRegionsFault : Obligations.OverlappingRegionsFault := by
  unfold Obligations.OverlappingRegionsFault
  intro s
  refine ⟨fun hs hd hlap i hi => ?_,
    fun hs hd hlap => ends_before_any_access (i := .deca) (checkRegions_overlap _ hs hd hlap), fun t h hk => ?_⟩
  · obtain ⟨next, hchecks⟩ := algorithmOf_checks_dst hi s.cfg s.operands
    exact ends_before_any_access (hchecks.trans (checkRegions_overlap next hs hd hlap))
  · have hends := mayEnd_of_exec h
    rw [hk] at hends
    cases hends

/-- Settles O30: past the checks on the regions the parity is tested first. -/
theorem oddLengthIsDecidedFirst : Obligations.OddLengthIsDecidedFirst := by
  unfold Obligations.OddLengthIsDecidedFirst
  intro s hodd
  refine ⟨?_, fun hs hd hlap => ?_, fun hs hd hlap => ?_, fun hs => ?_⟩
  · exact ends_before_any_access (i := .dlen) (k := .oddLength) (if_pos hodd)
  · exact ends_before_any_access (i := .dec) (k := .oddLength) ((checkRegions_pass _ hs hd hlap).trans (if_pos hodd))
  · exact ends_before_any_access (i := .deca) (k := .oddLength) ((checkRegions_pass _ hs hd hlap).trans (if_pos hodd))
  · exact ends_before_any_access (i := .decip) (k := .oddLength) ((if_neg (not_not.mpr hs)).trans (if_pos hodd))

/-- Settles O31: past the parity the lengths are compared, before any character or byte is read. -/
theorem smallOutputIsDecidedFromLengths : Obligations.SmallOutputIsDecidedFromLengths := by
  unfold Obligations.SmallOutputIsDecidedFromLengths
  intro s
  refine ⟨fun hs hd hlap heven hsmall => ?_, fun hs hd hlap heven hsmall => ?_, fun hs hd hlap hsmall i hi => ?_⟩
  · exact ends_before_any_access (i := .dec) (k := .outputTooSmall) ((checkRegions_pass _ hs hd hlap).trans
      ((if_neg (Nat.mod_two_ne_one.mpr heven)).trans (if_pos hsmall)))
  · exact ends_before_any_access (i := .deca) (k := .outputTooSmall) ((checkRegions_pass _ hs hd hlap).trans
      ((if_neg (Nat.mod_two_ne_one.mpr heven)).trans (if_pos hsmall)))
  · obtain ⟨alphabet, -, halg⟩ := exists_alphabet hi
    exact ends_before_any_access (k := .outputTooSmall) ((halg _ _).trans
      ((checkRegions_pass _ hs hd hlap).trans (if_pos hsmall)))

/-! ### An illegal word -/

/-- Settles O4: the algorithm of an illegal word is the completion with FAULT_ILLEGAL. -/
theorem illegalWordFaults : Obligations.IllegalWordFaults := by
  unfold Obligations.IllegalWordFaults
  intro s w hs hw
  refine ⟨?_, fun hi => ?_⟩
  · rw [engineTick_exec hs, wordAlgorithm_illegal hw]
    rfl
  · rw [step_of_no_input hi, engineRun_exec hs, wordAlgorithm_illegal hw]
    rfl

/-- No command ends with FAULT_ILLEGAL (spec R201, R206). -/
theorem exec_kind_ne_faultIllegal {i : Instr} {s t : State} (h : exec i s = .next t) : t.kind ≠ .faultIllegal := by
  intro hk
  have hends := mayEnd_of_exec h
  rw [hk] at hends
  cases i <;> cases hends

/-- FAULT_ILLEGAL is what a started word ends with exactly when it is not legal (spec R74, R206). -/
theorem step_kind_faultIllegal_iff {s t : State} {w : CmdWord} (hs : s.Started w) (hi : s.inputs = [])
    (h : step s = .next t) : t.kind = .faultIllegal ↔ ¬ w.Legal := by
  by_cases hw : w.Legal
  · obtain ⟨i, rfl⟩ := (legal_iff_exists_encode w).mp hw
    rw [step_of_no_input hi, (hs.executes (decode_encode i)).engineRun_eq, ← exec_eq] at h
    exact iff_of_false (exec_kind_ne_faultIllegal h) (not_not.mpr hw)
  · rw [(illegalWordFaults s w hs hw).2 hi] at h
    cases h
    exact iff_of_true rfl hw

/-! ### The first cause decides -/

/-- What a command on regions of `s` can answer when the causes of R210 are as given, `invalid i` being that `i` is the
index of the first invalid character: the first cause that holds, in the order of the rule, decides the outcome. The
outcomes of the checks change nothing else; the other two come after the accesses to memory. -/
inductive FirstCause (s : State) (bad lap odd small : Prop) (invalid : Nat → Prop) :
    Host.Outcome State Fault Refusal → Prop
  | range (hbad : bad) : FirstCause s bad lap odd small invalid (.next (s.ended .faultRange))
  | overlap (hbad : ¬ bad) (hlap : lap) : FirstCause s bad lap odd small invalid (.next (s.ended .faultOverlap))
  | oddLength (hbad : ¬ bad) (hlap : ¬ lap) (hodd : odd) :
      FirstCause s bad lap odd small invalid (.next (s.ended .oddLength))
  | tooSmall (hbad : ¬ bad) (hlap : ¬ lap) (hodd : ¬ odd) (hsmall : small) :
      FirstCause s bad lap odd small invalid (.next (s.ended .outputTooSmall))
  | invalidByte {m : Memory} {v : VecRegs} {i : Nat} {b : Byte} (hbad : ¬ bad) (hlap : ¬ lap) (hodd : ¬ odd)
      (hsmall : ¬ small) (hinv : invalid i) :
      FirstCause s bad lap odd small invalid (.next (State.complete { s with mem := m, vec := v } (.invalidByte i b)))
  | ok {m : Memory} {v : VecRegs} {n : Nat} (hbad : ¬ bad) (hlap : ¬ lap) (hodd : ¬ odd) (hsmall : ¬ small)
      (hinv : ∀ i, ¬ invalid i) :
      FirstCause s bad lap odd small invalid (.next (State.complete { s with mem := m, vec := v } (.ok n)))

/-- A text is valid exactly when no character is its first invalid one (spec R18). -/
theorem allHex_iff (f : Nat → Byte) (len : Nat) : AllHex f len ↔ ∀ i, ¬ FirstInvalid f len i :=
  ⟨fun hx i ⟨hlt, hbad, _⟩ => hbad (hx i hlt),
    fun h => (allHex_or_firstInvalid f len).resolve_right (not_exists.mpr h)⟩

namespace FirstCause

variable {s t : State} {bad lap odd small : Prop} {invalid : Nat → Prop}

/-- What is answered for each cause, when it is the first that holds, and for none. -/
theorem of_answers {r : Host.Outcome State Fault Refusal} (range : bad → r = .next (s.ended .faultRange))
    (overlap : ¬ bad → lap → r = .next (s.ended .faultOverlap))
    (oddLength : ¬ bad → ¬ lap → odd → r = .next (s.ended .oddLength))
    (tooSmall : ¬ bad → ¬ lap → ¬ odd → small → r = .next (s.ended .outputTooSmall))
    (invalidByte : ¬ bad → ¬ lap → ¬ odd → ¬ small → ∀ i, invalid i →
      ∃ m v b, r = .next (State.complete { s with mem := m, vec := v } (.invalidByte i b)))
    (ok : ¬ bad → ¬ lap → ¬ odd → ¬ small → (∀ i, ¬ invalid i) →
      ∃ m v n, r = .next (State.complete { s with mem := m, vec := v } (.ok n))) :
    FirstCause s bad lap odd small invalid r := by
  by_cases hbad : bad
  · exact range hbad ▸ .range hbad
  by_cases hlap : lap
  · exact overlap hbad hlap ▸ .overlap hbad hlap
  by_cases hodd : odd
  · exact oddLength hbad hlap hodd ▸ .oddLength hbad hlap hodd
  by_cases hsmall : small
  · exact tooSmall hbad hlap hodd hsmall ▸ .tooSmall hbad hlap hodd hsmall
  by_cases hinv : ∃ i, invalid i
  · obtain ⟨i, hi⟩ := hinv
    obtain ⟨m, v, b, rfl⟩ := invalidByte hbad hlap hodd hsmall i hi
    exact .invalidByte hbad hlap hodd hsmall hi
  · have hinv := not_exists.mp hinv
    obtain ⟨m, v, n, rfl⟩ := ok hbad hlap hodd hsmall hinv
    exact .ok hbad hlap hodd hsmall hinv

/-- An outcome of a check leaves memory (spec R212). -/
theorem mem_of_check (h : FirstCause s bad lap odd small invalid (.next t)) (hok : t.kind ≠ .ok)
    (hbyte : t.kind ≠ .invalidByte) : t.mem = s.mem := by
  cases h with
  | range | overlap | oddLength | tooSmall => rfl
  | invalidByte => exact absurd rfl hbyte
  | ok => exact absurd rfl hok

/-- Each KIND is reported exactly when its cause is the first that holds (spec R210). -/
theorem kind_iff (h : FirstCause s bad lap odd small invalid (.next t)) :
    (t.kind = .faultRange ↔ bad) ∧ (t.kind = .faultOverlap ↔ ¬ bad ∧ lap) ∧
    (t.kind = .oddLength ↔ ¬ bad ∧ ¬ lap ∧ odd) ∧ (t.kind = .outputTooSmall ↔ ¬ bad ∧ ¬ lap ∧ ¬ odd ∧ small) ∧
    (t.kind = .invalidByte ↔ ¬ bad ∧ ¬ lap ∧ ¬ odd ∧ ¬ small ∧ ∃ i, invalid i) := by
  cases h with
  | range hbad => simp [hbad]
  | overlap hbad hlap => simp [hbad, hlap]
  | oddLength hbad hlap hodd => simp [hbad, hlap, hodd]
  | tooSmall hbad hlap hodd hsmall => simp [hbad, hlap, hodd, hsmall]
  | invalidByte hbad hlap hodd hsmall hinv =>
    have hex : ∃ i, invalid i := ⟨_, hinv⟩
    simp [Completion.kind, hbad, hlap, hodd, hsmall, hex]
  | ok hbad hlap hodd hsmall hinv =>
    simp [Completion.kind, hbad, hlap, hodd, hsmall, hinv]

/-- For a command that decodes a text the last cause is that the text is not valid, and ERR_INDEX is the index of its
first invalid character (spec R205, R210, R211). -/
theorem text_kind_iff (h : FirstCause s bad lap odd small (FirstInvalid s.text s.srcLen.toNat) (.next t)) :
    (t.kind = .faultRange ↔ bad) ∧ (t.kind = .faultOverlap ↔ ¬ bad ∧ lap) ∧
    (t.kind = .oddLength ↔ ¬ bad ∧ ¬ lap ∧ odd) ∧ (t.kind = .outputTooSmall ↔ ¬ bad ∧ ¬ lap ∧ ¬ odd ∧ small) ∧
    (t.kind = .invalidByte ↔ ¬ bad ∧ ¬ lap ∧ ¬ odd ∧ ¬ small ∧ ¬ AllHex s.text s.srcLen.toNat) ∧
    (t.kind = .invalidByte → FirstInvalid s.text s.srcLen.toNat t.errIndex.toNat) := by
  obtain ⟨hrange, hoverlap, hodd, hsmall, hbyte⟩ := h.kind_iff
  rw [allHex_iff, not_forall_not]
  refine ⟨hrange, hoverlap, hodd, hsmall, hbyte, fun hk => ?_⟩
  cases h with
  | range | overlap | oddLength | tooSmall | ok => cases hk
  | invalidByte _ _ _ _ hinv =>
    rw [State.complete_errIndex, Completion.errIndex, toNat_ofNat_of_le hinv.1.le]
    exact hinv

end FirstCause

/-- HEX.DEC answers the first cause (spec R125, R210). -/
theorem exec_dec_firstCause (s : State) :
    FirstCause s (¬ (s.operands.src.InRange s.cfg.memSize ∧ s.operands.dst.InRange s.cfg.memSize))
      (Region.Overlap s.operands.src s.operands.dst) (s.srcLen.toNat % 2 = 1)
      (s.dstLen.toNat < s.srcLen.toNat / 2) (FirstInvalid s.text s.srcLen.toNat) (exec .dec s) := by
  obtain ⟨hrange, -⟩ := regionOutOfRangeFaults s
  obtain ⟨hoverlap, -⟩ := overlappingRegionsFault s
  obtain ⟨hsmall, -⟩ := smallOutputIsDecidedFromLengths s
  refine .of_answers (fun hbad => (hrange hbad .dec (by decide)).1) (fun hbad hlap => ?_) (fun hbad hlap hodd => ?_)
    (fun hbad hlap hodd hcap => ?_) (fun hbad hlap hodd hcap i hi => ?_) fun hbad hlap hodd hcap hx => ?_
  all_goals obtain ⟨hs, hd⟩ := not_not.mp hbad
  · exact (hoverlap hs hd hlap .dec (by decide)).1
  · obtain ⟨-, hends, -⟩ := oddLengthIsDecidedFirst s hodd
    exact (hends hs hd hlap).1
  · exact (hsmall hs hd hlap (Nat.mod_two_ne_one.mp hodd) hcap).1
  · obtain ⟨m, v, hrun, -⟩ := exec_dec_invalid ⟨hs, hd, hlap, Nat.mod_two_ne_one.mp hodd, not_lt.mp hcap⟩ hi
    exact ⟨m, v, _, hrun⟩
  · obtain ⟨m, v, hrun, -⟩ :=
      exec_dec_valid ⟨hs, hd, hlap, Nat.mod_two_ne_one.mp hodd, not_lt.mp hcap⟩ ((allHex_iff _ _).mpr hx)
    exact ⟨m, v, _, hrun⟩

/-- HEX.DECA answers the first cause (spec R171, R210). -/
theorem exec_deca_firstCause (s : State) :
    FirstCause s (¬ (s.operands.src.InRange s.cfg.memSize ∧ s.operands.array.InRange s.cfg.memSize))
      (Region.Overlap s.operands.src s.operands.array) (s.srcLen.toNat % 2 = 1)
      (s.srcLen.toNat / 2 ≠ s.argN.toNat) (FirstInvalid s.text s.srcLen.toNat) (exec .deca s) := by
  obtain ⟨-, hrange, -⟩ := regionOutOfRangeFaults s
  obtain ⟨-, hoverlap, -⟩ := overlappingRegionsFault s
  obtain ⟨-, hsmall, -⟩ := smallOutputIsDecidedFromLengths s
  refine .of_answers (fun hbad => (hrange hbad).1) (fun hbad hlap => ?_) (fun hbad hlap hodd => ?_)
    (fun hbad hlap hodd hlen => ?_) (fun hbad hlap hodd hlen i hi => ?_) fun hbad hlap hodd hlen hx => ?_
  all_goals obtain ⟨hs, hd⟩ := not_not.mp hbad
  · exact (hoverlap hs hd hlap).1
  · obtain ⟨-, -, hends, -⟩ := oddLengthIsDecidedFirst s hodd
    exact (hends hs hd hlap).1
  · exact (hsmall hs hd hlap (Nat.mod_two_ne_one.mp hodd) hlen).1
  · obtain ⟨m, hrun, -⟩ := exec_deca_invalid hs hd hlap (Nat.mod_two_ne_one.mp hodd) (not_not.mp hlen) hi
    exact ⟨m, s.vec, _, hrun⟩
  · obtain ⟨m, hrun, -⟩ :=
      exec_deca_valid hs hd hlap (Nat.mod_two_ne_one.mp hodd) (not_not.mp hlen) ((allHex_iff _ _).mpr hx)
    exact ⟨m, s.vec, _, hrun⟩

/-- HEX.DECIP answers the first cause; it has no second region and no capacity (spec R142, R208, R210). -/
theorem exec_decip_firstCause (s : State) :
    FirstCause s (¬ s.operands.src.InRange s.cfg.memSize) False (s.srcLen.toNat % 2 = 1) False
      (FirstInvalid s.text s.srcLen.toNat) (exec .decip s) := by
  obtain ⟨-, -, hrange, -⟩ := regionOutOfRangeFaults s
  refine .of_answers (fun hbad => (hrange hbad).1) (fun _ hlap => hlap.elim) (fun hbad _ hodd => ?_)
    (fun _ _ _ hsmall => hsmall.elim) (fun hbad _ hodd _ i hi => ?_) fun hbad _ hodd _ hx => ?_
  · obtain ⟨-, -, -, hends⟩ := oddLengthIsDecidedFirst s hodd
    exact (hends (not_not.mp hbad)).1
  · exact ⟨s.mem, s.vec, _, exec_decip_invalid (not_not.mp hbad) (Nat.mod_two_ne_one.mp hodd) hi⟩
  · obtain ⟨m, hrun, -⟩ :=
      exec_decip_valid (not_not.mp hbad) (Nat.mod_two_ne_one.mp hodd) ((allHex_iff _ _).mpr hx)
    exact ⟨m, s.vec, _, hrun⟩

/-- HEX.ENC answers the first cause; every length and every byte is valid (spec R182, R210). -/
theorem exec_enc_firstCause (s : State) {i : Instr} (hi : i ∈ [Instr.encU, .encL]) :
    FirstCause s (¬ (s.operands.src.InRange s.cfg.memSize ∧ s.operands.dst.InRange s.cfg.memSize))
      (Region.Overlap s.operands.src s.operands.dst) False (s.dstLen.toNat < 2 * s.srcLen.toNat)
      (fun _ => False) (exec i s) := by
  have hdst : i ∈ [Instr.dec, .encU, .encL] := List.mem_cons_of_mem _ hi
  obtain ⟨hrange, -⟩ := regionOutOfRangeFaults s
  obtain ⟨hoverlap, -⟩ := overlappingRegionsFault s
  obtain ⟨-, -, hsmall⟩ := smallOutputIsDecidedFromLengths s
  refine .of_answers (fun hbad => (hrange hbad i hdst).1) (fun hbad hlap => ?_) (fun _ _ hodd => hodd.elim)
    (fun hbad hlap _ hcap => ?_) (fun _ _ _ _ _ hx => hx.elim) fun hbad hlap _ hcap _ => ?_
  all_goals obtain ⟨hs, hd⟩ := not_not.mp hbad
  · exact (hoverlap hs hd hlap i hdst).1
  · exact (hsmall hs hd hlap hcap i hi).1
  · obtain ⟨alphabet, -, halg⟩ := exists_alphabet hi
    obtain ⟨m, hrun, -⟩ := encAlgorithm_run alphabet ⟨hs, hd, hlap, not_lt.mp hcap⟩
    exact ⟨m, s.vec, _, by rw [exec_eq, halg, hrun]⟩

/-- A command that only completes leaves memory. -/
theorem mem_of_completes {i : Instr} {s t : State} (hk : ∃ k, algorithmOf i s.cfg s.operands = .complete k)
    (h : exec i s = .next t) : t.mem = s.mem := by
  obtain ⟨k, hk⟩ := hk
  rw [exec_of_complete hk] at h
  cases h
  rfl

/-- Settles O26: an outcome that is neither OK nor INVALID_BYTE is that of a check. -/
theorem failedChecksWriteNothing : Obligations.FailedChecksWriteNothing := by
  unfold Obligations.FailedChecksWriteNothing
  intro i s t h hok hbyte
  cases i with
  | decip => exact decipNeverMutatesOnError s t h hok
  | dlen => exact mem_of_completes (dlen_completes _ _) h
  | elen => exact mem_of_completes (elen_completes _ _) h
  | dec => exact (h ▸ exec_dec_firstCause s).mem_of_check hok fun hk => nomatch hbyte hk
  | deca => exact (h ▸ exec_deca_firstCause s).mem_of_check hok fun hk => nomatch hbyte hk
  | encU => exact (h ▸ exec_enc_firstCause s (by decide)).mem_of_check hok fun hk => nomatch hbyte hk
  | encL => exact (h ▸ exec_enc_firstCause s (by decide)).mem_of_check hok fun hk => nomatch hbyte hk

/-- Settles O44: the first cause decides a command on regions, and each other command has one cause. -/
theorem outcomePriority : Obligations.OutcomePriority := by
  unfold Obligations.OutcomePriority
  refine ⟨fun s t h => (h ▸ exec_dec_firstCause s).text_kind_iff,
    fun s t h => (h ▸ exec_deca_firstCause s).text_kind_iff, fun s t h => ?_, fun s t i hi h => ?_, fun s t h => ?_,
    fun s t h => ?_, fun s t w hs hi h => step_kind_faultIllegal_iff hs hi h⟩
  · obtain ⟨hrange, -, hodd, -, hbyte, hindex⟩ := (h ▸ exec_decip_firstCause s).text_kind_iff
    simp only [not_false_eq_true, true_and] at hodd hbyte
    exact ⟨hrange, hodd, hbyte, hindex⟩
  · obtain ⟨hrange, hoverlap, -, hsmall, -⟩ := (h ▸ exec_enc_firstCause s hi).kind_iff
    simp only [not_false_eq_true, true_and] at hsmall
    exact ⟨hrange, hoverlap, hsmall⟩
  · by_cases hfit : 2 * s.srcLen.toNat < 2 ^ s.cfg.sizeBits
    · rw [exec_elen_fits hfit] at h
      cases h
      exact iff_of_false nofun hfit.not_ge
    · rw [exec_elen_overflow hfit] at h
      cases h
      exact iff_of_true rfl (not_lt.mp hfit)
  · by_cases hodd : s.srcLen.toNat % 2 = 1
    · rw [exec_dlen_odd hodd] at h
      cases h
      exact iff_of_true rfl hodd
    · rw [exec_dlen_even hodd] at h
      cases h
      exact iff_of_false nofun hodd

end Sys2Proof.Machine
end

section
/-! SUPPORT. Reset and how long the engine moves: the reset event, initialisation, and a bound on the accesses of a
command. -/

namespace Sys2Proof.Machine

/-! ### Reset and initialisation -/

/-- Settles O17: the event is `State.resetEvent`, which is `State.resetOf` but for the host's side. -/
theorem resetEventResetsRegisters : Obligations.ResetEventResetsRegisters := by
  unfold Obligations.ResetEventResetsRegisters
  intro s rest h
  exact ⟨s.cfg.initSteps, VecRegs.reset s.cfg, step_of_input h⟩

/-- The phase after `k` moves of an engine that has `left` initialisation steps to go (spec R231). -/
theorem engineTicks_init {s : State} {left k : Nat} (h : s.phase = .init left) (hk : k ≤ left) :
    engineTicks k s = { s with phase := .init (left - k) } := by
  induction k generalizing s left with
  | zero => rw [Nat.sub_zero, ← h, engineTicks]
  | succ k ih =>
    obtain ⟨n, rfl⟩ : ∃ n, left = n + 1 := ⟨left - 1, by omega⟩
    have htick : engineTick s = { s with phase := .init n } := by simp only [engineTick, h, initStep]
    rw [engineTicks, htick, ih rfl (by omega), Nat.add_sub_add_right]

/-- One move more than the initialisation steps to go ends in IDLE (spec R231). -/
theorem engineTicks_init_whole {s : State} {left : Nat} (h : s.phase = .init left) :
    engineTicks (left + 1) s = { s with phase := .idle } := by
  rw [engineTicks_add, engineTicks_init h le_rfl, Nat.sub_self]
  rfl

/-- While the engine initialises, a step with no input, or of a host that waits for BUSY = 0, is a move of the engine. -/
theorem step_init {s : State} {left : Nat} (h : s.phase = .init left)
    (hi : s.inputs = [] ∨ ∃ rest, s.inputs = .host .pollReady :: rest) : step s = .next (engineTick s) := by
  have hrun : engineRun s = .next (engineTick s) := by simp only [engineRun, engineTick, h]
  obtain hnil | ⟨rest, hwait⟩ := hi
  · rw [step_of_no_input hnil, hrun]
  · rw [step_pollReady hwait, if_neg (by simp [State.busy, h, Phase.busy]), hrun]

theorem steps_add {s t : State} {j : Nat} (h : steps j s = .next t) (k : Nat) : steps (j + k) s = steps k t := by
  induction j generalizing s with
  | zero =>
    obtain rfl : s = t := by simpa only [steps, Host.Outcome.next.injEq] using h
    rw [Nat.zero_add]
  | succ j ih =>
    rw [Nat.succ_add]
    rw [steps] at h ⊢
    split at h
    · exact ih h
    · cases h
    · cases h

/-- So each step is a move of the engine until initialisation has ended. -/
theorem steps_init {s : State} {left k : Nat} (h : s.phase = .init left)
    (hi : s.inputs = [] ∨ ∃ rest, s.inputs = .host .pollReady :: rest) (hk : k ≤ left + 1) :
    steps k s = .next (engineTicks k s) := by
  induction k with
  | zero => rfl
  | succ k ih =>
    rw [steps_add (ih (by omega)), engineTicks_add, engineTicks_init h (by omega)]
    exact steps_succ (step_init (s := { s with phase := .init (left - k) }) rfl hi) 0

/-- Settles O19: initialisation counts down to IDLE, by moves and so by steps, and the wait then finds BUSY = 0. -/
theorem initialisationEndsIdle : Obligations.InitialisationEndsIdle := by
  unfold Obligations.InitialisationEndsIdle
  intro s left h
  refine ⟨engineTicks_init_whole h, fun k hk => ⟨?_, engineTicks_init h hk⟩, fun hi => ⟨fun k hk => ?_, ?_⟩,
    fun rest hi => ?_⟩
  · rw [engineTicks_init h hk]
    rfl
  · rw [steps_init h hi (by omega), engineTicks_init h hk]
  · rw [steps_init h hi le_rfl, engineTicks_init_whole h]
  · have hend := steps_init h (.inr ⟨rest, hi⟩) le_rfl
    rw [engineTicks_init_whole h] at hend
    rw [show left + 2 = left + 1 + 1 from rfl, steps_add hend]
    exact steps_succ ((step_pollReady (s := { s with phase := .idle }) hi).trans (if_pos rfl)) 0

/-! ### A bound on the accesses of a command -/

/-- Each access is a read or a write (spec R57). -/
theorem Algorithm.accesses_eq (p : Algorithm) (m : Memory) :
    p.accesses m = (p.reads m).length + (p.writes m).length := by
  induction p generalizing m with
  | read a next ih => rw [accesses, reads, writes, ih, List.length_cons, Nat.add_right_comm]
  | write a v next ih => rw [accesses, reads, writes, ih, List.length_cons, Nat.add_assoc]
  | vector v next ih => exact ih m
  | complete c => rfl

theorem Algorithm.Leads.accesses_eq {p : Algorithm} {m : Memory} {rs : List Nat} {ws : List (Nat × Byte)}
    {v : Option VecRegs} {c : Completion} (h : p.Leads m rs ws v (.complete c)) :
    p.accesses m = rs.length + ws.length := by
  rw [Algorithm.accesses_eq, h.reads_eq, h.writes_eq]

@[simp] theorem length_readsFrom (a n : Nat) : (readsFrom a n).length = n := by simp [readsFrom]

@[simp] theorem length_writesFrom (a n : Nat) (f : Nat → Byte) : (writesFrom a n f).length = n := by simp [writesFrom]

/-- HEX.DEC reads no character past its text (spec R57). -/
theorem decReads_le {w len i : Nat} (heven : len % 2 = 0) (hi : i < len) : decReads w len i ≤ len := by
  unfold decReads
  split
  · next hfull =>
    have hchunk : i / w + 1 ≤ len / w := Nat.div_lt_of_lt_mul (by rw [Nat.mul_comm]; exact hfull.2)
    exact (Nat.mul_le_mul_right w hchunk).trans (Nat.div_mul_le_self len w)
  · omega

theorem accesses_of_completes {p : Algorithm} (h : ∃ k, p = .complete k) (m : Memory) : p.accesses m = 0 := by
  obtain ⟨k, rfl⟩ := h
  rfl

/-- HEX.DEC reads its text at most once and writes at most its decoded bytes (spec R125 to R127). -/
theorem dec_accesses_le (s : State) :
    (algorithmOf .dec s.cfg s.operands).accesses s.mem ≤ s.srcLen.toNat + s.srcLen.toNat / 2 := by
  obtain ⟨k, hk, -⟩ | ⟨hs, hd, hlap, heven, hcap⟩ := dec_completes_or_passes s.cfg s.operands
  · simp only [accesses_of_completes ⟨k, hk⟩, Nat.zero_le]
  · obtain hx | ⟨i, hx⟩ := allHex_or_firstInvalid s.text s.srcLen.toNat
    · obtain ⟨v, hleads⟩ := dec_leads_ok hs hd hlap heven hcap hx
      rw [hleads.accesses_eq, length_readsFrom, length_writesFrom]
    · obtain ⟨v, hleads⟩ := dec_leads_bad hs hd hlap heven hcap hx
      obtain ⟨-, hwrites⟩ := decPrefix_bounds s.cfg s.srcLen.toNat i
      rw [hleads.accesses_eq, length_readsFrom, length_writesFrom]
      exact Nat.add_le_add (decReads_le heven hx.1) (hwrites.trans (Nat.div_le_div_right hx.1.le))

/-- A failed check of HEX.DECA completes it at once (spec R171). -/
theorem deca_completes_or_passes (c : Config) (o : Operands) :
    (∃ k, algorithmOf .deca c o = .complete k) ∨
      (o.src.InRange c.memSize ∧ o.array.InRange c.memSize ∧ ¬ Region.Overlap o.src o.array ∧ o.srcLen % 2 = 0 ∧
        o.srcLen / 2 = o.argN) := by
  by_cases hrange : o.src.InRange c.memSize ∧ o.array.InRange c.memSize
  · obtain ⟨hs, hd⟩ := hrange
    by_cases hlap : Region.Overlap o.src o.array
    · exact .inl ⟨_, checkRegions_overlap _ hs hd hlap⟩
    · by_cases hodd : o.srcLen % 2 = 1
      · exact .inl ⟨.oddLength, (checkRegions_pass _ hs hd hlap).trans (if_pos hodd)⟩
      · by_cases hlen : o.srcLen / 2 = o.argN
        · exact .inr ⟨hs, hd, hlap, by omega, hlen⟩
        · exact .inl ⟨.outputTooSmall, (checkRegions_pass _ hs hd hlap).trans ((if_neg hodd).trans (if_pos hlen))⟩
  · exact .inl ⟨_, checkRegions_range _ hrange⟩

/-- HEX.DECA reads its text at most once and writes at most its decoded bytes (spec R171, R172). -/
theorem deca_accesses_le (s : State) :
    (algorithmOf .deca s.cfg s.operands).accesses s.mem ≤ s.srcLen.toNat + s.srcLen.toNat / 2 := by
  obtain hk | ⟨hs, hd, hlap, heven, hlen⟩ := deca_completes_or_passes s.cfg s.operands
  · simp only [accesses_of_completes hk, Nat.zero_le]
  · obtain hx | ⟨i, hx⟩ := allHex_or_firstInvalid s.text s.srcLen.toNat
    · rw [(deca_leads_ok hs hd hlap heven hlen hx).accesses_eq, length_readsFrom, length_writesFrom]
    · have hlt := hx.1
      have heven' : s.srcLen.toNat % 2 = 0 := heven
      rw [(deca_leads_bad hs hd hlap heven hlen hx).accesses_eq, length_readsFrom, length_writesFrom]
      omega

/-- HEX.DECIP reads its buffer at most twice and writes at most half of it (spec R140 to R142). -/
theorem decip_accesses_le (s : State) :
    (algorithmOf .decip s.cfg s.operands).accesses s.mem ≤ 2 * s.srcLen.toNat + s.srcLen.toNat / 2 := by
  obtain hk | ⟨hs, heven⟩ := decip_completes_or_passes s.cfg s.operands
  · simp only [accesses_of_completes hk, Nat.zero_le]
  · obtain hx | ⟨i, hx⟩ := allHex_or_firstInvalid s.text s.srcLen.toNat
    · rw [(decip_leads_ok hs heven hx).accesses_eq, List.length_append, length_readsFrom, length_writesFrom, Nat.two_mul]
    · have hlt := hx.1
      rw [(decip_leads_bad hs heven hx).accesses_eq, length_readsFrom, List.length_nil]
      omega

/-- HEX.ENC reads each source byte once and writes each character once (spec R182). -/
theorem encAlgorithm_accesses_le (alphabet : List Byte) (s : State) :
    (encAlgorithm alphabet s.cfg s.operands).accesses s.mem ≤ s.srcLen.toNat + 2 * s.srcLen.toNat := by
  obtain ⟨k, hk, -⟩ | ⟨hs, hd, hlap, hcap⟩ := enc_completes_or_passes alphabet s.cfg s.operands
  · simp only [accesses_of_completes ⟨k, hk⟩, Nat.zero_le]
  · rw [(enc_leads alphabet hs hd hlap hcap).accesses_eq, length_readsFrom, length_writesFrom]

/-- A command reads its source at most twice, and writes at most what it writes when it succeeds (spec R57, R240). -/
theorem algorithmOf_accesses_le (i : Instr) (s : State) :
    (algorithmOf i s.cfg s.operands).accesses s.mem ≤ 2 * s.srcLen.toNat + dstUsed i s.operands := by
  have hsrc : s.srcLen.toNat ≤ 2 * s.srcLen.toNat := Nat.le_mul_of_pos_left _ Nat.two_pos
  cases i with
  | dlen => simp only [accesses_of_completes (dlen_completes _ _), Nat.zero_le]
  | elen => simp only [accesses_of_completes (elen_completes _ _), Nat.zero_le]
  | dec => exact (dec_accesses_le s).trans (Nat.add_le_add_right hsrc _)
  | deca => exact (deca_accesses_le s).trans (Nat.add_le_add_right hsrc _)
  | decip => exact decip_accesses_le s
  | encU => exact (encAlgorithm_accesses_le alphaUpper s).trans (Nat.add_le_add_right hsrc _)
  | encL => exact (encAlgorithm_accesses_le alphaLower s).trans (Nat.add_le_add_right hsrc _)

/-- Settles O48 with one move for each access and one for the completion; the constant 2 is for HEX.DECIP, which reads its
buffer twice. -/
theorem engineStepsAreBounded : Obligations.EngineStepsAreBounded := by
  unfold Obligations.EngineStepsAreBounded
  refine ⟨1, 2, fun s w hs => ⟨fun i hw => ?_, fun e hw => ⟨1, le_rfl, ?_⟩⟩⟩
  · have hcount := algorithmOf_accesses_le i s
    refine ⟨(algorithmOf i s.cfg s.operands).accesses s.mem + 1, by omega, ?_⟩
    rw [(hs.executes hw).engineTicks_whole, State.busy, Algorithm.run_phase_idle]
    rfl
  · rw [engineTicks, engineTicks, engineTick_exec hs, wordAlgorithm, hw]
    rfl

end Sys2Proof.Machine
end
